-- ==== Sys2Proof/Word.lean ====
section
/-! DEFINITION. The widths of spec/00_scope.md R14: bus data of 8, 16 and 32 bits, channel ids 0 to 3 (R10). Times are unbounded natural numbers of base-clock cycles (R33) and have the type Nat. -/

namespace Sys2Proof

/-- 8-bit bus data; also an operation word and one operand byte (R70, R73). -/
abbrev Byte := BitVec 8

/-- 16-bit register values (R14). -/
abbrev Half := BitVec 16

/-- 32-bit bus data (R55). -/
abbrev Word := BitVec 32

/-- A channel id, 0 to 3 (R10, R21). -/
abbrev Chan := Fin 4

end Sys2Proof
end

