-- ==== Sys2Proof/Config.lean ====
section
/-! DEFINITION. The implementation parameters that spec/00_scope.md R11 leaves OPEN. The parameters whose value the spec takes (PRESCALE, AUDIO_CADENCE_CHANNELS) stand in Sys2Proof/Machine/Params.lean; HOST_SCHEDULE is data of the state (Sys2Proof/Machine/State.lean). -/

namespace Sys2Proof

/-- `TIMER_BASE`, the bus address of offset 0 of the register window: OPEN (R11, R50, 92 D1, 93 U9). It has no body, so
nothing can be proved of its value. Assumption log entry 11. -/
opaque Config.timerBase : Nat

/-- `CLOCK_HZ`, the base clock: OPEN (R11, R213, 92 D36, 93 U8). No rule depends on it and nothing in the model reads it.
Assumption log entry 11. -/
opaque Config.clockHz : Nat

end Sys2Proof
end

