-- ==== Sys2Proof/Syntax.lean ====
section
/-! DEFINITION. The 18 operations of spec/30_encoding.md R75 as one inductive type, with their operands (R73, R74), and the kinds of refusal of spec/60_exceptions.md R182. -/

namespace Sys2Proof

/-- One constructor per row of spec/opcode_table.json, in the table's order. `c` is the channel (`off[3:2]` in format B, bits
1:0 in format I, R74); `b`, `v`, `w` the data of a write; `t` the target time of ADVANCE, a natural number (R105). -/
inductive Instr where
  /-- RD8_CNT_LO (R134). -/
  | rd8CntLo (c : Chan)
  /-- RD8_CNT_HI (R135). -/
  | rd8CntHi (c : Chan)
  /-- RD8_CTL_LO (R137). -/
  | rd8CtlLo (c : Chan)
  /-- RD8_CTL_HI (R138). -/
  | rd8CtlHi (c : Chan)
  /-- RD16_CNT (R133). -/
  | rd16Cnt (c : Chan)
  /-- RD16_CTL (R136). -/
  | rd16Ctl (c : Chan)
  /-- RD32 (R139). -/
  | rd32 (c : Chan)
  /-- WR8_RELOAD_LO (R127). -/
  | wr8ReloadLo (c : Chan) (b : Byte)
  /-- WR8_RELOAD_HI (R128). -/
  | wr8ReloadHi (c : Chan) (b : Byte)
  /-- WR8_CTL_LO (R130). -/
  | wr8CtlLo (c : Chan) (b : Byte)
  /-- WR8_CTL_HI (R131). -/
  | wr8CtlHi (c : Chan) (b : Byte)
  /-- WR16_RELOAD (R126). -/
  | wr16Reload (c : Chan) (v : Half)
  /-- WR16_CTL (R129). -/
  | wr16Ctl (c : Chan) (v : Half)
  /-- WR32 (R132). -/
  | wr32 (c : Chan) (w : Word)
  /-- OVF (R160), accepted only as the scheduler's callback (R77). -/
  | ovf (c : Chan)
  /-- RD_RELOAD (R141). -/
  | rdReload (c : Chan)
  /-- ADVANCE (R105). -/
  | advance (t : Nat)
  /-- RESET (R201). -/
  | reset
deriving DecidableEq, Repr

/-- Why an operation is refused at the block's interface, before it executes (R182). -/
inductive RefusalKind where
  /-- A word that matches no row of R75, other than a misaligned access (R76). -/
  | reservedWord
  /-- A half-word access with `off[0] = 1` or a word access with `off[1:0] ≠ 00` (R54, R76). -/
  | misaligned
  /-- An OVF word that is not the scheduler's callback (R77). -/
  | hostOvf
  /-- The stream ends inside an operand (R78). -/
  | truncatedOperand
  /-- Not one of R182's kinds: a foreign callback issues ADVANCE, which R8 gives to the host alone and R101 does not give to
  a callback. Assumption log entry 5. -/
  | nestedAdvance
deriving DecidableEq, Repr

end Sys2Proof
end

