-- ==== Sys2Proof/WellFormed.lean ====
section
/-! DEFINITION. Which operations a program stream can name (spec/30_encoding.md R73). Every operand but one has exactly its width as its type; the target time of ADVANCE is an unbounded natural in the model (R33) and 8 bytes in a stream. -/

namespace Sys2Proof

/-- An operation that has an encoding: an ADVANCE target below 2^64 ("a program stream cannot name a target of 2^64 or more",
R73); every other operation always. -/
def Instr.wf : Instr → Bool
  | .advance t => decide (t < 2 ^ 64)
  | .rd8CntLo _ => true
  | .rd8CntHi _ => true
  | .rd8CtlLo _ => true
  | .rd8CtlHi _ => true
  | .rd16Cnt _ => true
  | .rd16Ctl _ => true
  | .rd32 _ => true
  | .wr8ReloadLo _ _ => true
  | .wr8ReloadHi _ _ => true
  | .wr8CtlLo _ _ => true
  | .wr8CtlHi _ _ => true
  | .wr16Reload _ _ => true
  | .wr16Ctl _ _ => true
  | .wr32 _ _ => true
  | .ovf _ => true
  | .rdReload _ => true
  | .reset => true

end Sys2Proof
end

