-- ==== Sys2Proof/Decode.lean ====
section
/-! DEFINITION. The operation encoding of spec/30_encoding.md: the decoder (R70 to R78), total on every byte sequence and rejecting by name, and after it the encoder. -/

namespace Sys2Proof

/-- The mnemonics of R75. -/
inductive Op where
  | rd8CntLo | rd8CntHi | rd8CtlLo | rd8CtlHi | rd16Cnt | rd16Ctl | rd32
  | wr8ReloadLo | wr8ReloadHi | wr8CtlLo | wr8CtlHi | wr16Reload | wr16Ctl | wr32
  | ovf | rdReload | advance | reset
deriving DecidableEq, Repr

/-- A row of R75: a word `w` is this operation exactly when `w & mask = pattern`. -/
structure OpcodeRow where
  op : Op
  pattern : Byte
  mask : Byte
deriving DecidableEq, Repr

/-- The opcode map of R75, row for row. -/
def opcodeRows : List OpcodeRow :=
  [⟨.rd8CntLo, 0x00#8, 0xF3#8⟩, ⟨.rd8CntHi, 0x01#8, 0xF3#8⟩, ⟨.rd8CtlLo, 0x02#8, 0xF3#8⟩,
    ⟨.rd8CtlHi, 0x03#8, 0xF3#8⟩, ⟨.rd16Cnt, 0x10#8, 0xF3#8⟩, ⟨.rd16Ctl, 0x12#8, 0xF3#8⟩,
    ⟨.rd32, 0x20#8, 0xF3#8⟩, ⟨.wr8ReloadLo, 0x40#8, 0xF3#8⟩, ⟨.wr8ReloadHi, 0x41#8, 0xF3#8⟩,
    ⟨.wr8CtlLo, 0x42#8, 0xF3#8⟩, ⟨.wr8CtlHi, 0x43#8, 0xF3#8⟩, ⟨.wr16Reload, 0x50#8, 0xF3#8⟩,
    ⟨.wr16Ctl, 0x52#8, 0xF3#8⟩, ⟨.wr32, 0x60#8, 0xF3#8⟩, ⟨.ovf, 0x80#8, 0xFC#8⟩,
    ⟨.rdReload, 0x90#8, 0xFC#8⟩, ⟨.advance, 0xA0#8, 0xFF#8⟩, ⟨.reset, 0xB0#8, 0xFF#8⟩]

/-- The operation a word names, or none for a reserved word (R75, R76). -/
def opOfWord (w : Byte) : Option Op :=
  (opcodeRows.find? fun r => w &&& r.mask == r.pattern).map OpcodeRow.op

/-- `off[3:2]`, the channel of a bus access (R71). -/
def busChannel (w : Byte) : Chan := Fin.ofNat 4 (w.toNat / 4)

/-- Bits 1:0, the channel of OVF and RD_RELOAD (R72). -/
def internalChannel (w : Byte) : Chan := Fin.ofNat 4 w.toNat

/-- A word of format B whose access is misaligned: `size = 01` with `off[0] = 1`, or `size = 10` with `off[1:0] ≠ 00`
(R54, R76). -/
def misalignedWord (w : Byte) : Bool :=
  !w.getLsbD 7 &&
    ((w.extractLsb' 4 2 == 1#2 && w.getLsbD 0) || (w.extractLsb' 4 2 == 2#2 && w.extractLsb' 0 2 != 0#2))

/-- The refusal a reserved word gets (R182: MISALIGNED is named separately from RESERVED_WORD). -/
def reservedKind (w : Byte) : RefusalKind :=
  if misalignedWord w then .misaligned else .reservedWord

/-- How many operand bytes follow the operation word (R73). -/
def Op.operandBytes : Op → Nat
  | .wr8ReloadLo | .wr8ReloadHi | .wr8CtlLo | .wr8CtlHi => 1
  | .wr16Reload | .wr16Ctl => 2
  | .wr32 => 4
  | .advance => 8
  | .rd8CntLo | .rd8CntHi | .rd8CtlLo | .rd8CtlHi | .rd16Cnt | .rd16Ctl | .rd32 => 0
  | .ovf | .rdReload | .reset => 0

/-- The value of operand bytes, the first the least significant (little-endian, R53, R73). -/
def leValue : List Byte → Nat
  | [] => 0
  | b :: bs => b.toNat + 256 * leValue bs

/-- The `n` low bytes of a value, the least significant first (R53, R73). -/
def leBytes : Nat → Nat → List Byte
  | 0, _ => []
  | n + 1, v => BitVec.ofNat 8 v :: leBytes n (v / 256)

/-- The operation `op` with the operands that word `w` and operand value `v` give it (R74: whole operands, unsigned, no
extension, scaling or shifting). -/
def Op.build (op : Op) (w : Byte) (v : Nat) : Instr :=
  match op with
  | .rd8CntLo => .rd8CntLo (busChannel w)
  | .rd8CntHi => .rd8CntHi (busChannel w)
  | .rd8CtlLo => .rd8CtlLo (busChannel w)
  | .rd8CtlHi => .rd8CtlHi (busChannel w)
  | .rd16Cnt => .rd16Cnt (busChannel w)
  | .rd16Ctl => .rd16Ctl (busChannel w)
  | .rd32 => .rd32 (busChannel w)
  | .wr8ReloadLo => .wr8ReloadLo (busChannel w) (BitVec.ofNat 8 v)
  | .wr8ReloadHi => .wr8ReloadHi (busChannel w) (BitVec.ofNat 8 v)
  | .wr8CtlLo => .wr8CtlLo (busChannel w) (BitVec.ofNat 8 v)
  | .wr8CtlHi => .wr8CtlHi (busChannel w) (BitVec.ofNat 8 v)
  | .wr16Reload => .wr16Reload (busChannel w) (BitVec.ofNat 16 v)
  | .wr16Ctl => .wr16Ctl (busChannel w) (BitVec.ofNat 16 v)
  | .wr32 => .wr32 (busChannel w) (BitVec.ofNat 32 v)
  | .ovf => .ovf (internalChannel w)
  | .rdReload => .rdReload (internalChannel w)
  | .advance => .advance v
  | .reset => .reset

/-- What decoding the bytes at the head of a stream gives: an operation and the rest of the stream, or a refusal. -/
inductive Decoded where
  | ok (i : Instr) (rest : List Byte)
  | refuse (k : RefusalKind)
deriving DecidableEq, Repr

/-- The decoder, total on every byte sequence (R78): an operation word followed by its operand bytes (R70, R73). A stream
with no byte at all has no operation word; asking for one is refused as truncated (assumption log entry 7). -/
def decode : List Byte → Decoded
  | [] => .refuse .truncatedOperand
  | w :: bs =>
    match opOfWord w with
    | none => .refuse (reservedKind w)
    | some op =>
      if bs.length < op.operandBytes then .refuse .truncatedOperand
      else .ok (op.build w (leValue (bs.take op.operandBytes))) (bs.drop op.operandBytes)

/-! ### The encoder -/

/-- A bus-access word with channel bits: `0 W size cc sub` (R71). -/
def busOpcode (pattern : Byte) (c : Chan) : Byte := pattern ||| BitVec.ofNat 8 (4 * c.val)

/-- An internal word with channel bits 1:0 (R72). -/
def internalOpcode (pattern : Byte) (c : Chan) : Byte := pattern ||| BitVec.ofNat 8 c.val

/-- The operation word of an operation (R75). -/
def opWord : Instr → Byte
  | .rd8CntLo c => busOpcode 0x00#8 c
  | .rd8CntHi c => busOpcode 0x01#8 c
  | .rd8CtlLo c => busOpcode 0x02#8 c
  | .rd8CtlHi c => busOpcode 0x03#8 c
  | .rd16Cnt c => busOpcode 0x10#8 c
  | .rd16Ctl c => busOpcode 0x12#8 c
  | .rd32 c => busOpcode 0x20#8 c
  | .wr8ReloadLo c _ => busOpcode 0x40#8 c
  | .wr8ReloadHi c _ => busOpcode 0x41#8 c
  | .wr8CtlLo c _ => busOpcode 0x42#8 c
  | .wr8CtlHi c _ => busOpcode 0x43#8 c
  | .wr16Reload c _ => busOpcode 0x50#8 c
  | .wr16Ctl c _ => busOpcode 0x52#8 c
  | .wr32 c _ => busOpcode 0x60#8 c
  | .ovf c => internalOpcode 0x80#8 c
  | .rdReload c => internalOpcode 0x90#8 c
  | .advance _ => 0xA0#8
  | .reset => 0xB0#8

/-- The operand bytes of an operation, little-endian (R73). -/
def operandBytes : Instr → List Byte
  | .rd8CntLo _ => []
  | .rd8CntHi _ => []
  | .rd8CtlLo _ => []
  | .rd8CtlHi _ => []
  | .rd16Cnt _ => []
  | .rd16Ctl _ => []
  | .rd32 _ => []
  | .wr8ReloadLo _ b => [b]
  | .wr8ReloadHi _ b => [b]
  | .wr8CtlLo _ b => [b]
  | .wr8CtlHi _ b => [b]
  | .wr16Reload _ v => leBytes 2 v.toNat
  | .wr16Ctl _ v => leBytes 2 v.toNat
  | .wr32 _ w => leBytes 4 w.toNat
  | .ovf _ => []
  | .rdReload _ => []
  | .advance t => leBytes 8 t
  | .reset => []

/-- The bytes of a well-formed operation: its word, then its operand (R70, R73). -/
def encode (i : Instr) : List Byte := opWord i :: operandBytes i

/-! ### Operation words as the opcode table numbers them -/

/-- How many bytes the longest operation has (ADVANCE, R73). -/
def longestOperation : Nat := 9

/-- The bytes of an operation whose bits are `w`, bit 0 the least significant of the operation word, `nbits` of them given
and every later bit 0: the first byte first. -/
def tableBytes (nbits w : Nat) : List Byte := leBytes longestOperation (w % 2 ^ nbits)

/-- The operation the decoder reads from an operation whose bits are `w`. -/
def decodeTableWord (nbits w : Nat) : Option Instr :=
  match decode (tableBytes nbits w) with
  | .ok i _ => some i
  | .refuse _ => none

end Sys2Proof
end

