-- ==== Sys2Proof/Machine/State.lean ====
section
/-! DEFINITION. The state of the block and of the run around it (spec/10_state.md R20 to R39, spec/00_scope.md R8 and R9), as plain data, with its power-on value. -/

namespace Sys2Proof.Machine

/-- One channel (R22 to R27). The control word is kept as its four fields; its reserved bits have no storage (R24). -/
structure Channel where
  /-- The value loaded by a start and by each overflow (R22). -/
  reload : Half
  /-- The counter at `tStart` for an internally clocked channel, the live counter otherwise (R23). -/
  base : Half
  /-- Control bits 1:0, the prescaler selector (R24, R28). -/
  sel : BitVec 2
  /-- Control bit 2 (R24). Channel 0's is hard-wired to 0 (R25): read it through `State.cascadeBit`. -/
  cascade : Bool
  /-- Control bit 6, the interrupt enable (R24, R165). -/
  irq : Bool
  /-- Control bit 7 (R24, R29). -/
  run : Bool
  /-- The time of the last start, re-base or overflow (R26). -/
  tStart : Nat
  /-- The handle of the pending overflow event, if there is one (R27). -/
  ev : Option Nat
deriving DecidableEq, Repr

/-- A channel after power-on and after RESET (R39, R200, R201). -/
def Channel.zero : Channel :=
  { reload := 0, base := 0, sel := 0, cascade := false, irq := false, run := false, tStart := 0, ev := none }

/-- What an event calls when it fires: this block's `OVF(c)`, whose owner is TIMER, or a callback of the foreign component
with the given tag (R34, R101). -/
inductive Callback where
  | ovf (c : Chan)
  | foreign (owner : Nat)
deriving DecidableEq, Repr

/-- A pending event: target time, registration number (which is its handle), callback (R34, R35). -/
structure Event where
  t : Nat
  seq : Nat
  cb : Callback
deriving DecidableEq, Repr

/-- The kinds of output event (R9). -/
inductive OutKind where
  | irq | cadence | rate
deriving DecidableEq, Repr

/-- An output event: its kind, its channel and the time it is emitted at (R9). -/
structure OutEvent where
  kind : OutKind
  ch : Chan
  time : Nat
deriving DecidableEq, Repr

/-- A value a read returns, of 1, 2 or 4 bytes (R52, R73). -/
inductive ReadValue where
  | byte (v : Byte)
  | half (v : Half)
  | word (v : Word)
deriving DecidableEq, Repr

/-- The block's fault kinds (R180). -/
inductive FaultKind where
  /-- Raised by `Sched.Add` with a target time before `now` (R103); only a foreign component can (R112, R183). -/
  | schedPast
  /-- Raised by ADVANCE with a target time before `now` (R111). -/
  | advanceBackward
deriving DecidableEq, Repr

/-- What `raise Fault(k)` records: the kind, the time asked for, and `now` (R180). -/
structure FaultRecord where
  kind : FaultKind
  asked : Nat
  now : Nat
deriving DecidableEq, Repr

/-- What a foreign component asks of the scheduler (R101): `Sched.Add` at an absolute time, `Sched.Cancel` of an event of
its own. -/
inductive ForeignRequest where
  | add (t : Nat)
  | cancel (h : Nat)
deriving DecidableEq, Repr

/-- One action of a foreign callback (R7 c, R101): an operation presented to the block as the bytes of its word and operand
(R52, R70), or a request to the scheduler. -/
inductive CallbackAction where
  | op (bytes : List Byte)
  | request (r : ForeignRequest)
deriving DecidableEq, Repr

/-- One item of what reaches the machine between operations: a byte of the host's operation stream (R70, R73), or a request
of a foreign component to the scheduler (R101). -/
inductive HostItem where
  | byte (b : Byte)
  | request (owner : Nat) (r : ForeignRequest)
deriving DecidableEq, Repr

/-- The whole state. The fields `chans` to `out` are the spec's table R39; the rest is the run around the block. -/
structure State where
  /-- `ch[0]` to `ch[3]` (R21). -/
  chans : Vector Channel 4
  /-- The scheduler's current time (R33). -/
  now : Nat
  /-- The pending events, a set (R34), listed in registration order: `seq` strictly rising. Log entry 13. -/
  queue : List Event
  /-- The registration number the next Add gives (R35). -/
  nextSeq : Nat
  /-- The recorded fault, once there is one (R36, R180). -/
  fault : Option FaultRecord
  /-- The output events, oldest first (R9, R37). -/
  out : List OutEvent
  /-- The values reads have returned, oldest first: with `out`, the observation of a run (R9). Log entry 6. -/
  reads : List ReadValue
  /-- The refusal mark (R182) for operations refused inside a foreign callback, oldest first. Log entry 5. -/
  refusals : List RefusalKind
  /-- The event whose callback is running (R105), by which an OVF word is known to be the scheduler's (R77). Log entry 8. -/
  firing : Option Event
  /-- What the host issues next (R8). Log entry 1. -/
  input : List HostItem
  /-- HOST_SCHEDULE (R8, R101): what the foreign callbacks do, in the order in which they will run. Log entry 2. -/
  schedule : List (List CallbackAction)
deriving DecidableEq, Repr

/-- Why a step stops with a fault. The block's own faults (R180) are no reason: they are recorded in `State.fault` and the
machine then stands still (R181, log entry 4). -/
inductive Fault where
  /-- Raised by ADVANCE if the bound on the number of events it fires were too small. Safe: it claims nothing; and the bound
  (`State.advanceBound`) is large enough in every state, so no state reaches it. -/
  | advanceUnfinished
deriving DecidableEq, Repr

/-- Why an operation is rejected. -/
inductive Refusal where
  /-- Raised by `exec` for an instruction that has no meaning yet. Safe. -/
  | notModelled (mnemonic : String)
  /-- Raised by `step` for a word the decoder refuses and by OVF when it is not the scheduler's callback: the refusal of R182,
  which changes nothing. The outcome itself is the run's refusal mark. Safe. -/
  | atInterface (k : RefusalKind)
deriving DecidableEq, Repr

/-- The three outcomes of a step or a meaning. -/
abbrev Result := Host.Outcome State Fault Refusal

/-- Power-on. The fields `chans` to `out` are R39's and R200's: every channel zero and stopped, time 0, no event, no fault,
no output. The others are the model's choice, which no rule gives (DESIGN CHOICE): nothing issued yet by the host (`input`, log
entry 1), an empty HOST_SCHEDULE although it is open (`schedule`, R8, log entry 2), no value read and no refusal yet (`reads`,
`refusals`, log entries 6 and 5), no callback running (`firing`, log entry 8). -/
def State.reset : State :=
  { chans := Vector.replicate 4 Channel.zero
    now := 0
    queue := []
    nextSeq := 0
    fault := none
    out := []
    reads := []
    refusals := []
    firing := none
    input := []
    schedule := [] }

end Sys2Proof.Machine
end

