-- ==== Sys2Proof/Machine/Params.lean ====
section
/-! DEFINITION. The implementation parameters of spec/00_scope.md R11 whose value the spec takes. -/

namespace Sys2Proof.Machine

/-- `PRESCALE[0..3]`: base-clock cycles per counter tick (R28, 92 D3). Log entry 9. -/
def prescale (sel : BitVec 2) : Nat :=
  if sel = 0#2 then 1 else if sel = 1#2 then 64 else if sel = 2#2 then 256 else 1024

/-- `AUDIO_CADENCE_CHANNELS = {0, 1}` (R166, 92 D14). Log entry 9. -/
def audioCadence (c : Chan) : Bool := c == 0 || c == 1

/-- `0x10000`: one more than the largest counter value (R10). -/
def counterRange : Nat := 0x10000

end Sys2Proof.Machine
end

