-- ==== Sys2Proof/Machine/Ops.lean ====
section
/-! DEFINITION. The named operations over the state: channel access, output events, raising a fault (spec/60_exceptions.md R180, R181), and the scheduler's Add and Cancel (spec/40_timebase.md R103, R104). The block takes no traps and has no return from one (R190, R191): raising a fault is its only exception entry. -/

namespace Sys2Proof.Machine

/-- `ch[c]`. -/
def State.ch (s : State) (c : Chan) : Channel := s.chans[c.val]

/-- `ch[c] <- x`. -/
def State.setCh (s : State) (c : Chan) (x : Channel) : State := { s with chans := s.chans.set c.val x }

/-- `emit K(c)`: append an output event stamped with `now` (R9, R13). -/
def emit (k : OutKind) (c : Chan) (s : State) : State := { s with out := s.out ++ [⟨k, c, s.now⟩] }

/-- A read returns `v` (R9, R52). -/
def returnValue (v : ReadValue) (s : State) : State := { s with reads := s.reads ++ [v] }

/-! ### Faults -/

/-- The code of a fault kind (R180). -/
def FaultKind.code : FaultKind → Nat
  | .schedPast => 1
  | .advanceBackward => 2

/-- `raise Fault(k)`: record the kind, the time asked for and `now` (R180). What was done before stays (R181). -/
def raiseFault (k : FaultKind) (asked : Nat) (s : State) : State := { s with fault := some ⟨k, asked, s.now⟩ }

/-- Go on with an operation unless a fault has been raised: the operation that raised it stops at that point (R181). -/
def State.andThen (s : State) (f : State → State) : State := if s.fault.isSome then s else f s

/-- An operation takes effect only while no fault is recorded; after one, no operation of any agent does (R181). -/
def unlessFaulted (s : State) (f : State → State) : Result := .next (s.andThen f)

/-! ### The scheduler's Add and Cancel -/

/-- `Sched.Add(t, cb)` (R103). The handle it returns is `nextSeq` as it was before. -/
def schedAdd (t : Nat) (cb : Callback) (s : State) : State :=
  if t < s.now then raiseFault .schedPast t s
  else { s with queue := s.queue ++ [⟨t, s.nextSeq, cb⟩], nextSeq := s.nextSeq + 1 }

/-- `Sched.Cancel(h)` (R104): the event with that handle leaves the queue; with no such event, nothing happens. -/
def schedCancel (h : Nat) (s : State) : State := { s with queue := s.queue.filter fun e => e.seq != h }

/-- `ch[c].ev <- Sched.Add(t, OVF(c))` (R120, R122, R160). -/
def armOverflow (c : Chan) (t : Nat) (s : State) : State :=
  (schedAdd t (.ovf c) s).andThen fun s' => s'.setCh c { s'.ch c with ev := some s.nextSeq }

/-- `if ch[c].ev ≠ none then Sched.Cancel(ch[c].ev); ch[c].ev <- none` (R121, R122, R201). -/
def cancelOverflow (c : Chan) (s : State) : State :=
  match (s.ch c).ev with
  | none => s
  | some h => (schedCancel h s).setCh c { s.ch c with ev := none }

/-! ### Requests of foreign components -/

/-- A foreign component's own event (R101). -/
def ownedBy (owner : Nat) (h : Nat) (e : Event) : Bool := e.seq == h && e.cb == .foreign owner

/-- What a foreign component asks of the scheduler (R101): Add an event of its own, or Cancel one of its own. A handle of
another owner's event is not one it holds (R34): Cancel with it does nothing. Log entry 3. -/
def foreignRequest (owner : Nat) (r : ForeignRequest) (s : State) : State :=
  match r with
  | .add t => schedAdd t (.foreign owner) s
  | .cancel h => if s.queue.any (ownedBy owner h) then schedCancel h s else s

end Sys2Proof.Machine
end

