-- ==== Sys2Proof/Machine/Operands.lean ====
section
/-! DEFINITION. How bus data meets the registers: byte order and placement (spec/20_memory.md R51 to R55, spec/30_encoding.md R74). -/

namespace Sys2Proof.Machine

/-- Bits 7:0 of a half-word. -/
def lowByte (v : Half) : Byte := v.extractLsb' 0 8

/-- Bits 15:8 of a half-word. -/
def highByte (v : Half) : Byte := v.extractLsb' 8 8

/-- `{v[15:8], b}`: a byte written at the lower offset (R53, R127). -/
def withLowByte (v : Half) (b : Byte) : Half := highByte v ++ b

/-- `{b, v[7:0]}`: a byte written at the higher offset (R53, R128). -/
def withHighByte (v : Half) (b : Byte) : Half := b ++ lowByte v

/-- Bits 15:0 of a word: the counter or reload half (R53). -/
def lowHalf (w : Word) : Half := w.extractLsb' 0 16

/-- Bits 31:16 of a word: the control half (R53). -/
def highHalf (w : Word) : Half := w.extractLsb' 16 16

/-- `{hi, lo}`: the word at `4c` (R53, R139). -/
def joinHalves (hi lo : Half) : Word := hi ++ lo

end Sys2Proof.Machine
end

