-- ==== Sys2Proof/Machine/Flags.lean ====
section
/-! DEFINITION. The block has no flags or condition codes (spec/10_state.md R20). This file holds what stands in their place: the fields of the control word (R24, R25), the running states (R29), and the live counter (R30). -/

namespace Sys2Proof.Machine

/-- Bit 2 of `ch[c].ctl`, hard-wired to 0 on channel 0 (R25). -/
def State.cascadeBit (s : State) (c : Chan) : Bool := c != 0 && (s.ch c).cascade

/-- `Internal(c)`: running and not in cascade mode (R29). -/
def State.internal (s : State) (c : Chan) : Bool := (s.ch c).run && !s.cascadeBit c

/-- Running and in cascade mode (R29). -/
def State.cascadeCounting (s : State) (c : Chan) : Bool := (s.ch c).run && s.cascadeBit c

/-- `P(c)` (R28). -/
def State.prescaler (s : State) (c : Chan) : Nat := prescale (s.ch c).sel

/-- The ticks of channel `c`'s prescaled clock since `t_start` (R30). -/
def State.elapsedTicks (s : State) (c : Chan) : Nat := (s.now - (s.ch c).tStart) / s.prescaler c

/-- The prescaler phase: base cycles since the last tick (R38). -/
def State.phase (s : State) (c : Chan) : Nat := (s.now - (s.ch c).tStart) % s.prescaler c

/-- `Counter(c)` (R30), clamped to 0xFFFF (90 C5, log entry 10). -/
def State.counter (s : State) (c : Chan) : Half :=
  if s.internal c then BitVec.ofNat 16 (min 0xFFFF ((s.ch c).base.toNat + s.elapsedTicks c))
  else (s.ch c).base

/-- `CtlValue(c) = zext_16({run, irq, 0b000, cascade, sel})` (R24). -/
def State.ctlValue (s : State) (c : Chan) : Half :=
  0#8 ++ BitVec.ofBool (s.ch c).run ++ BitVec.ofBool (s.ch c).irq ++ 0#3 ++ BitVec.ofBool (s.cascadeBit c) ++
    (s.ch c).sel

/-- The fields `sel`, `cascade`, `irq` and `run` of channel `c` as a control write of `v` stores them; the reserved bits of
`v` are discarded, and bit 2 on channel 0 (R24, R25, R123). -/
def withControl (c : Chan) (v : Half) (x : Channel) : Channel :=
  { x with
    sel := v.extractLsb' 0 2
    cascade := c != 0 && v.getLsbD 2
    irq := v.getLsbD 6
    run := v.getLsbD 7 }

/-- The cycles from a counter value to the overflow: `(0x10000 - v) * P(c)` (R10, R31). -/
def State.cyclesToOverflow (s : State) (c : Chan) (v : Half) : Nat := (counterRange - v.toNat) * s.prescaler c

/-- What the byte at offset `sub` of channel `c` reads as (R51). -/
def State.windowByte (s : State) (c : Chan) (sub : BitVec 2) : Byte :=
  if sub = 0#2 then lowByte (s.counter c)
  else if sub = 1#2 then highByte (s.counter c)
  else if sub = 2#2 then lowByte (s.ctlValue c)
  else 0#8

end Sys2Proof.Machine
end

