-- ==== Sys2Proof/Machine/Overflow.lean ====
section
/-! DEFINITION. Overflow, cascade and the OVF operation: spec/42_overflow_cascade.md, R160 to R168. -/

namespace Sys2Proof.Machine

/-- The outputs of an overflow of channel `c`: IRQ(c) if enabled, then CADENCE(c) if `c` paces audio (R164 to R166). -/
def overflowOutputs (c : Chan) (s : State) : State :=
  let s1 := if (s.ch c).irq then emit .irq c s else s
  if audioCadence c then emit .cadence c s1 else s1

/-- The channels above a channel, nearest first: the fixed cascade wiring (R21, R167). -/
def channelsAbove (c : Chan) : List Chan := [1, 2, 3].drop c.val

/-- A cascade tick into the first of `cs`, its overflow offered to the next (R162 to R164, R168): a channel that is not
cascade-counting ignores the tick; one at 0xFFFF reloads, makes its outputs and ticks the next; any other counts one up. -/
def tickChain : List Chan → State → State
  | [], s => s
  | n :: rest, s =>
    if s.cascadeCounting n then
      if (s.ch n).base = 0xFFFF#16 then
        tickChain rest (overflowOutputs n (s.setCh n { s.ch n with base := (s.ch n).reload, tStart := s.now }))
      else s.setCh n { s.ch n with base := (s.ch n).base + 1#16 }
    else s

/-- CascadeTick(n) (R162). -/
def cascadeTick (n : Chan) (s : State) : State := tickChain (n :: channelsAbove n) s

/-- OverflowCommon(c) (R164): the outputs, then the cascade tick into the next channel. Channel 3 has none (R167). -/
def overflowCommon (c : Chan) (s : State) : State := tickChain (channelsAbove c) (overflowOutputs c s)

/-- OVF(c, t_req) (R160): reload, register the next overflow measured from the requested time (R161), then the common
actions. -/
def deliverOverflow (c : Chan) (tReq : Nat) (s : State) : State :=
  let s1 := s.setCh c { s.ch c with ev := none, base := (s.ch c).reload, tStart := tReq }
  (armOverflow c (tReq + s1.cyclesToOverflow c (s1.ch c).base) s1).andThen (overflowCommon c)

/-- The requested time of the overflow event of channel `c` whose callback the scheduler is invoking, if it is (R77). -/
def State.deliveredOverflow (s : State) (c : Chan) : Option Nat :=
  match s.firing with
  | some e => if e.cb = .ovf c then some e.t else none
  | none => none

/-- OVF (R160). It is accepted only as the callback the scheduler invokes for a due OVF(c) event, and refused from anyone else
(R77, R182). -/
def execOvf (c : Chan) (s : State) : Result :=
  if s.fault.isSome then .next s
  else
    match s.deliveredOverflow c with
    | some tReq => .next { deliverOverflow c tReq s with firing := none }
    | none => .refused (.atInterface .hostOvf)

end Sys2Proof.Machine
end

