-- ==== Sys2Proof/Machine/Reads.lean ====
section
/-! DEFINITION. The read operations of spec/41_register_access.md, R133 to R141. A read returns a value and changes nothing else (R140). -/

namespace Sys2Proof.Machine

/-- RD8_CNT_LO: `Counter(c)[7:0]` (R134). -/
def execRd8CntLo (c : Chan) (s : State) : Result :=
  unlessFaulted s fun s => returnValue (.byte (lowByte (s.counter c))) s

/-- RD8_CNT_HI: `Counter(c)[15:8]` (R135). -/
def execRd8CntHi (c : Chan) (s : State) : Result :=
  unlessFaulted s fun s => returnValue (.byte (highByte (s.counter c))) s

/-- RD8_CTL_LO: `CtlValue(c)[7:0]` (R137). -/
def execRd8CtlLo (c : Chan) (s : State) : Result :=
  unlessFaulted s fun s => returnValue (.byte (lowByte (s.ctlValue c))) s

/-- RD8_CTL_HI: 0x00, whatever was written to the high byte (R138). -/
def execRd8CtlHi (_c : Chan) (s : State) : Result :=
  unlessFaulted s fun s => returnValue (.byte 0#8) s

/-- RD16_CNT: `Counter(c)` (R133). -/
def execRd16Cnt (c : Chan) (s : State) : Result :=
  unlessFaulted s fun s => returnValue (.half (s.counter c)) s

/-- RD16_CTL: `CtlValue(c)` (R136). -/
def execRd16Ctl (c : Chan) (s : State) : Result :=
  unlessFaulted s fun s => returnValue (.half (s.ctlValue c)) s

/-- RD32: `{CtlValue(c), Counter(c)}` (R139). -/
def execRd32 (c : Chan) (s : State) : Result :=
  unlessFaulted s fun s => returnValue (.word (joinHalves (s.ctlValue c) (s.counter c))) s

/-- RD_RELOAD: `ch[c].reload`, through the side port (R141, 90 C3). -/
def execRdReload (c : Chan) (s : State) : Result :=
  unlessFaulted s fun s => returnValue (.half (s.ch c).reload) s

end Sys2Proof.Machine
end

