-- ==== Sys2Proof/Machine/Reset.lean ====
section
/-! DEFINITION. The RESET operation: spec/70_reset_and_hazards.md R201. -/

namespace Sys2Proof.Machine

/-- Cancel channel `c`'s event and zero its registers (R201). -/
def resetChannel (c : Chan) (s : State) : State := (cancelOverflow c s).setCh c Channel.zero

/-- The channels 0 to 3, in order. -/
def resetChannels (s : State) : State := resetChannel 3 (resetChannel 2 (resetChannel 1 (resetChannel 0 s)))

/-- RESET (R201): every channel to its power-on value and its event cancelled; time, registration numbers, foreign events,
fault and output unchanged. -/
def execReset (s : State) : Result := unlessFaulted s resetChannels

end Sys2Proof.Machine
end

