-- ==== Sys2Proof/Machine/Writes.lean ====
section
/-! DEFINITION. The channel procedures and the write operations of spec/41_register_access.md, R120 to R132. -/

namespace Sys2Proof.Machine

/-- Start(c) (R120): count from the reload value, from now on; an overflow event unless in cascade mode. -/
def startChannel (c : Chan) (s : State) : State :=
  let s1 := s.setCh c { s.ch c with base := (s.ch c).reload, tStart := s.now }
  if s1.cascadeBit c then s1
  else armOverflow c (s1.now + s1.cyclesToOverflow c (s1.ch c).base) s1

/-- Stop(c, cur) (R121): cancel the event, hold the counter. -/
def stopChannel (c : Chan) (cur : Half) (s : State) : State :=
  let s1 := cancelOverflow c s
  s1.setCh c { s1.ch c with base := cur }

/-- Rebase(c, cur) (R122): keep the count, begin a new prescaler period, register the overflow anew. -/
def rebaseChannel (c : Chan) (cur : Half) (s : State) : State :=
  let s1 := cancelOverflow c s
  let s2 := s1.setCh c { s1.ch c with base := cur, tStart := s1.now }
  if s2.cascadeBit c then s2
  else armOverflow c (s2.now + s2.cyclesToOverflow c cur) s2

/-- RunningWrite(c, cur, old_sel, old_cascade) (R124): re-base when the selector or the cascade field changed, else nothing. -/
def runningWrite (c : Chan) (cur : Half) (oldSel : BitVec 2) (oldCascade : Bool) (s : State) : State :=
  if (s.ch c).sel ≠ oldSel ∨ s.cascadeBit c ≠ oldCascade then rebaseChannel c cur s else s

/-- WriteControl(c, v) (R123). -/
def writeControl (c : Chan) (v : Half) (s : State) : State :=
  let cur := s.counter c
  let s1 := s.setCh c (withControl c v (s.ch c))
  let s2 :=
    match (s.ch c).run, (s1.ch c).run with
    | false, false => s1
    | false, true => startChannel c s1
    | true, false => stopChannel c cur s1
    | true, true => runningWrite c cur (s.ch c).sel (s.cascadeBit c) s1
  s2.andThen (emit .rate c)

/-- WriteReload(c, v) (R125). -/
def writeReload (c : Chan) (v : Half) (s : State) : State :=
  emit .rate c (s.setCh c { s.ch c with reload := v })

/-- WR8_RELOAD_LO (R127). -/
def execWr8ReloadLo (c : Chan) (b : Byte) (s : State) : Result :=
  unlessFaulted s fun s => writeReload c (withLowByte (s.ch c).reload b) s

/-- WR8_RELOAD_HI (R128). -/
def execWr8ReloadHi (c : Chan) (b : Byte) (s : State) : Result :=
  unlessFaulted s fun s => writeReload c (withHighByte (s.ch c).reload b) s

/-- WR8_CTL_LO: a full control write of the zero-extended byte (R130). -/
def execWr8CtlLo (c : Chan) (b : Byte) (s : State) : Result :=
  unlessFaulted s (writeControl c (b.setWidth 16))

/-- WR8_CTL_HI: no state change and no output (R131). -/
def execWr8CtlHi (_c : Chan) (_b : Byte) (s : State) : Result :=
  unlessFaulted s id

/-- WR16_RELOAD (R126). -/
def execWr16Reload (c : Chan) (v : Half) (s : State) : Result :=
  unlessFaulted s (writeReload c v)

/-- WR16_CTL (R129). -/
def execWr16Ctl (c : Chan) (v : Half) (s : State) : Result :=
  unlessFaulted s (writeControl c v)

/-- WR32: the reload half first, then the control half, in one operation (R55, R132). -/
def execWr32 (c : Chan) (w : Word) (s : State) : Result :=
  unlessFaulted s fun s => writeControl c (highHalf w) (writeReload c (lowHalf w) s)

end Sys2Proof.Machine
end

