-- ==== Sys2Proof/Machine/Advance.lean ====
section
/-! DEFINITION. The scheduler's firing of events and the ADVANCE operation: spec/40_timebase.md, R105 to R111; and what foreign callbacks do (R101, spec/00_scope.md R7, R8). -/

namespace Sys2Proof.Machine

/-! ### Which event fires next -/

/-- `a` fires before `b`: lexicographic order of (t, seq) (R105, R106). -/
def Event.before (a b : Event) : Bool := decide (a.t < b.t) || (a.t == b.t && decide (a.seq < b.seq))

/-- The event with the least (t, seq). -/
def earliest : List Event → Option Event
  | [] => none
  | e :: es =>
    match earliest es with
    | none => some e
    | some m => if m.before e then some m else some e

/-- The due event ADVANCE(T) fires next: the least of those with `t ≤ T` (R105). -/
def State.nextDue (s : State) (T : Nat) : Option Event := earliest (s.queue.filter fun e => e.t ≤ T)

/-! ### Foreign callbacks -/

/-- The meaning of an operation that a foreign callback issues. Register operations and RESET act as they do from the host
(R7 c, R201); an OVF word is refused by its own rule (R77); ADVANCE is the host's alone (R8, log entry 5). -/
def callbackOp (i : Instr) (s : State) : Result :=
  match i with
  | .rd8CntLo c => execRd8CntLo c s
  | .rd8CntHi c => execRd8CntHi c s
  | .rd8CtlLo c => execRd8CtlLo c s
  | .rd8CtlHi c => execRd8CtlHi c s
  | .rd16Cnt c => execRd16Cnt c s
  | .rd16Ctl c => execRd16Ctl c s
  | .rd32 c => execRd32 c s
  | .wr8ReloadLo c b => execWr8ReloadLo c b s
  | .wr8ReloadHi c b => execWr8ReloadHi c b s
  | .wr8CtlLo c b => execWr8CtlLo c b s
  | .wr8CtlHi c b => execWr8CtlHi c b s
  | .wr16Reload c v => execWr16Reload c v s
  | .wr16Ctl c v => execWr16Ctl c v s
  | .wr32 c w => execWr32 c w s
  | .ovf c => execOvf c s
  | .rdReload c => execRdReload c s
  | .advance _ => .refused (.atInterface .nestedAdvance)
  | .reset => execReset s

/-- An operation refused inside a callback changes nothing and leaves the run's refusal mark (R182). -/
def markRefusal (k : RefusalKind) (s : State) : State := { s with refusals := s.refusals ++ [k] }

/-- The state after an operation issued by a callback: a refused operation leaves only its mark (R182), and the callback goes
on. -/
def settle (s : State) : Result → State
  | .next t => t
  | .refused (.atInterface k) => markRefusal k s
  | .refused _ => s
  | .fault _ => s

/-- One action of the callback of a foreign component (R101). -/
def callbackAction (owner : Nat) (a : CallbackAction) (s : State) : State :=
  match a with
  | .op bytes =>
    match decode bytes with
    | .ok i _ => settle s (callbackOp i s)
    | .refuse k => markRefusal k s
  | .request r => foreignRequest owner r s

/-- The actions of a callback, in order, until a fault (R105, R181). -/
def callbackActions (owner : Nat) : List CallbackAction → State → State
  | [], s => s
  | a :: as, s => (callbackAction owner a s).andThen (callbackActions owner as)

/-- A foreign callback runs: what it does is the next entry of HOST_SCHEDULE (R101, log entry 2). -/
def foreignCallback (owner : Nat) (s : State) : State :=
  match s.schedule with
  | [] => s
  | as :: rest => callbackActions owner as { s with schedule := rest }

/-! ### Firing one event -/

/-- The event leaves the queue before its callback runs, and `now` becomes its time (R105, R108). -/
def State.beginFiring (e : Event) (s : State) : State :=
  { s with queue := s.queue.filter fun x => x != e, now := e.t, firing := some e }

/-- Fire one event (R105): this block's overflow event is delivered as OVF(c) with its requested time; another owner's runs
its callback. -/
def fire (e : Event) (s : State) : State :=
  match e.cb with
  | .ovf c => { deliverOverflow c e.t (s.beginFiring e) with firing := none }
  | .foreign owner => { foreignCallback owner (s.beginFiring e) with firing := none }

/-! ### ADVANCE -/

/-- The loop of R105 with at most the given number of events to fire; none if there were more. A fault ends it where it
stands; otherwise it ends with `now = T`. -/
def advanceLoop (T : Nat) : Nat → State → Option State
  | 0, s =>
    match s.nextDue T with
    | none => some { s with now := T }
    | some _ => none
  | fuel + 1, s =>
    match s.nextDue T with
    | none => some { s with now := T }
    | some e => if (fire e s).fault.isSome then some (fire e s) else advanceLoop T fuel (fire e s)

/-- What one pending event adds to the bound: an overflow event at `t` comes again at most once in each cycle of `t` to `T`
(its next time is at least one cycle later, R112); a foreign event fires once. -/
def Event.weight (T : Nat) (e : Event) : Nat :=
  match e.cb with
  | .ovf _ => T + 1 - e.t
  | .foreign _ => 1

/-- How many events ADVANCE(T) can fire at most: ADVANCE always terminates (spec/93_implementation_defined.md, after Part 1).
Every action of a foreign callback adds at most one event. -/
def State.advanceBound (s : State) (T : Nat) : Nat :=
  (s.queue.map (Event.weight T)).sum + (T + 1) * (s.schedule.map List.length).sum

/-- ADVANCE(T) (R105): a target before `now` raises ADVANCE_BACKWARD and changes nothing else (R111); otherwise every due
event fires, in order, and `now` becomes `T`. -/
def execAdvance (T : Nat) (s : State) : Result :=
  if s.fault.isSome then .next s
  else if T < s.now then .next (raiseFault .advanceBackward T s)
  else
    match advanceLoop T (s.advanceBound T) s with
    | some t => .next t
    | none => .fault .advanceUnfinished

end Sys2Proof.Machine
end

