-- ==== Sys2Proof/Machine/Dispatch.lean ====
section
/-! DEFINITION. One arm per operation: exec only dispatches. -/

namespace Sys2Proof.Machine

def exec (i : Instr) (s : State) : Host.Outcome State Fault Refusal :=
  match i with
  | .rd8CntLo c => Sys2Proof.Machine.execRd8CntLo c s
  | .rd8CntHi c => Sys2Proof.Machine.execRd8CntHi c s
  | .rd8CtlLo c => Sys2Proof.Machine.execRd8CtlLo c s
  | .rd8CtlHi c => Sys2Proof.Machine.execRd8CtlHi c s
  | .rd16Cnt c => Sys2Proof.Machine.execRd16Cnt c s
  | .rd16Ctl c => Sys2Proof.Machine.execRd16Ctl c s
  | .rd32 c => Sys2Proof.Machine.execRd32 c s
  | .wr8ReloadLo c b => Sys2Proof.Machine.execWr8ReloadLo c b s
  | .wr8ReloadHi c b => Sys2Proof.Machine.execWr8ReloadHi c b s
  | .wr8CtlLo c b => Sys2Proof.Machine.execWr8CtlLo c b s
  | .wr8CtlHi c b => Sys2Proof.Machine.execWr8CtlHi c b s
  | .wr16Reload c v => Sys2Proof.Machine.execWr16Reload c v s
  | .wr16Ctl c v => Sys2Proof.Machine.execWr16Ctl c v s
  | .wr32 c w => Sys2Proof.Machine.execWr32 c w s
  | .ovf c => Sys2Proof.Machine.execOvf c s
  | .rdReload c => Sys2Proof.Machine.execRdReload c s
  | .advance t => Sys2Proof.Machine.execAdvance t s
  | .reset => Sys2Proof.Machine.execReset s

end Sys2Proof.Machine
end

