-- ==== Sys2Proof/Machine/Fetch.lean ====
section
/-! DEFINITION. Where operations come from: the host's stream (spec/30_encoding.md R70, R73, R78; spec/00_scope.md R8). The block has no program counter (R20). -/

namespace Sys2Proof.Machine

/-- The stream bytes at the head of the input, up to the next item that is no byte. -/
def streamBytes : List HostItem → List Byte
  | .byte b :: rest => b :: streamBytes rest
  | .request _ _ :: _ => []
  | [] => []

/-- What the machine does next. -/
inductive Fetched where
  /-- The host issues nothing. -/
  | idle
  /-- A foreign component asks the scheduler for something; `s` has the item taken from its input. -/
  | request (owner : Nat) (r : ForeignRequest) (s : State)
  /-- An operation; `s` has its bytes taken from its input. -/
  | operation (i : Instr) (s : State)
  /-- A word or operand the interface refuses. -/
  | refuse (k : RefusalKind)

/-- Take the next item or the next whole operation from the input (R70, R73, R78). -/
def State.fetch (s : State) : Fetched :=
  match s.input with
  | [] => .idle
  | .request owner r :: rest => .request owner r { s with input := rest }
  | .byte _ :: _ =>
    match decode (streamBytes s.input) with
    | .ok i rest =>
      .operation i { s with input := s.input.drop ((streamBytes s.input).length - rest.length) }
    | .refuse k => .refuse k

/-- Whether a word is an OVF word, which reaches the block only from the scheduler (R77). -/
def ovfWordChannel (nbits w : Nat) : Option Chan :=
  match decodeTableWord nbits w with
  | some (.ovf c) => some c
  | _ => none

/-- `s` with the bytes put at the head of the host's stream. -/
def State.issue (s : State) (bytes : List Byte) : State := { s with input := bytes.map .byte ++ s.input }

/-- `s` with the scheduler invoking the callback of an overflow event of channel `c` that is due now (R77, R105). -/
def State.delivering (s : State) (c : Chan) : State := { s with firing := some ⟨s.now, s.nextSeq, .ovf c⟩ }

/-- `s` with a word put where the next fetch finds it: at the head of the host's stream; for an OVF word, with the scheduler
delivering it, since from the host it would be refused (log entry 8). -/
def State.placeWord (s : State) (nbits w : Nat) : State :=
  match ovfWordChannel nbits w with
  | some c => (s.delivering c).issue (tableBytes nbits w)
  | none => s.issue (tableBytes nbits w)

end Sys2Proof.Machine
end

