-- ==== Sys2Proof/Machine/Step.lean ====
section
/-! DEFINITION. One step of the machine: one operation of the host's stream, or one request of a foreign component. -/

namespace Sys2Proof.Machine

/-- One step. After a fault nothing takes effect any more (R181), and a word the decoder would refuse is not looked at either
(DESIGN CHOICE, log entry 4); with nothing issued nothing happens (log entry 7). -/
def step (s : State) : Host.Outcome State Fault Refusal :=
  if s.fault.isSome then .next s
  else
    match s.fetch with
    | .idle => .next s
    | .request owner r s' => .next (foreignRequest owner r s')
    | .operation i s' => exec i s'
    | .refuse k => .refused (.atInterface k)

/-- `s` with the operation whose bits are `w` placed where `step` fetches next. -/
def State.withFetchWord (s : State) (nbits w : Nat) : State := s.placeWord nbits w

end Sys2Proof.Machine
end

