-- ==== Sys2Proof/Machine/Assembler.lean ====
section
/-! DEFINITION. The assembler of spec/30_encoding.md: its lines (R79), what each assembles to, its pseudo-instructions and their expansions (R80), and its text form (log entry 12). -/

namespace Sys2Proof.Machine

/-- A line of R79. Operands are the numbers as written, of any size. -/
inductive AsmLine where
  | rd8 (off : Nat)
  | rd16 (off : Nat)
  | rd32 (off : Nat)
  | wr8 (off v : Nat)
  | wr16 (off v : Nat)
  | wr32 (off v : Nat)
  | rdreload (c : Nat)
  | advance (t : Nat)
  | reset
deriving DecidableEq, Repr

/-- The channel of an offset 0 to 15 (R71). -/
def offChan (off : Nat) : Chan := Fin.ofNat 4 (off / 4)

/-- A byte read by `off[1:0]` (R79). -/
def asmRd8 (off : Nat) : Instr :=
  match off % 4 with
  | 0 => .rd8CntLo (offChan off)
  | 1 => .rd8CntHi (offChan off)
  | 2 => .rd8CtlLo (offChan off)
  | _ => .rd8CtlHi (offChan off)

/-- A byte write by `off[1:0]` (R79). -/
def asmWr8 (off : Nat) (b : Byte) : Instr :=
  match off % 4 with
  | 0 => .wr8ReloadLo (offChan off) b
  | 1 => .wr8ReloadHi (offChan off) b
  | 2 => .wr8CtlLo (offChan off) b
  | _ => .wr8CtlHi (offChan off) b

/-- What a line assembles to; none where the assembler refuses it: an operand out of range, a misaligned offset, or a time
that has no encoding (R73, R79). -/
def assemble : AsmLine → Option Instr
  | .rd8 off => if off < 16 then some (asmRd8 off) else none
  | .rd16 off =>
    if off < 16 then
      match off % 4 with
      | 0 => some (.rd16Cnt (offChan off))
      | 2 => some (.rd16Ctl (offChan off))
      | _ => none
    else none
  | .rd32 off => if off < 16 ∧ off % 4 = 0 then some (.rd32 (offChan off)) else none
  | .wr8 off v => if off < 16 ∧ v ≤ 0xFF then some (asmWr8 off (BitVec.ofNat 8 v)) else none
  | .wr16 off v =>
    if off < 16 ∧ v ≤ 0xFFFF then
      match off % 4 with
      | 0 => some (.wr16Reload (offChan off) (BitVec.ofNat 16 v))
      | 2 => some (.wr16Ctl (offChan off) (BitVec.ofNat 16 v))
      | _ => none
    else none
  | .wr32 off v =>
    if off < 16 ∧ v ≤ 0xFFFFFFFF ∧ off % 4 = 0 then some (.wr32 (offChan off) (BitVec.ofNat 32 v)) else none
  | .rdreload c => if c < 4 then some (.rdReload (Fin.ofNat 4 c)) else none
  | .advance t => if t < 2 ^ 64 then some (.advance t) else none
  | .reset => some .reset

/-- The pseudo-instructions of R80. -/
inductive Pseudo where
  | setreload (c v : Nat)
  | setctl (c v : Nat)
  | rdcnt (c : Nat)
  | rdctl (c : Nat)
  | start (c r v : Nat)
  | startw (c r v : Nat)
  | stop (c v : Nat)
  | wait (n : Nat)
deriving DecidableEq, Repr

/-- The expansion of a pseudo-instruction, where `t0` is the time the assembler tracks (R80). -/
def Pseudo.expand (t0 : Nat) : Pseudo → List AsmLine
  | .setreload c v => [.wr16 (4 * c) v]
  | .setctl c v => [.wr16 (4 * c + 2) v]
  | .rdcnt c => [.rd16 (4 * c)]
  | .rdctl c => [.rd16 (4 * c + 2)]
  | .start c r v => [.wr16 (4 * c) r, .wr16 (4 * c + 2) (v ||| 0x80)]
  | .startw c r v => [.wr32 (4 * c) (((v ||| 0x80) <<< 16) ||| r)]
  | .stop c v => [.wr16 (4 * c + 2) (v &&& 0xFF7F)]
  | .wait n => [.advance (t0 + n)]

/-- A line of a program: an operation (R79), a pseudo-instruction (R80), or a line that holds neither (log entry 12). -/
inductive SourceLine where
  | op (l : AsmLine)
  | pseudo (p : Pseudo)
  | blank
deriving DecidableEq, Repr

/-- The lines a source line stands for (R79, R80). -/
def SourceLine.lines (t0 : Nat) : SourceLine → List AsmLine
  | .op l => [l]
  | .pseudo p => p.expand t0
  | .blank => []

/-- The time the assembler tracks after a source line (R80). -/
def SourceLine.track (t0 : Nat) : SourceLine → Nat
  | .op (.advance t) => t
  | .pseudo (.wait n) => t0 + n
  | _ => t0

/-- A program's operations, from the start time `t0`; none if the assembler refuses a line. -/
def assembleProgram (t0 : Nat) : List SourceLine → Option (List Instr)
  | [] => some []
  | l :: ls =>
    match (l.lines t0).mapM assemble, assembleProgram (l.track t0) ls with
    | some is, some js => some (is ++ js)
    | _, _ => none

/-- A program's bytes (R70, R73). -/
def programBytes (is : List Instr) : List Byte := is.flatMap encode

/-! ### Text form: one operation per line, `;` starts a comment, numbers decimal or `0x` hex (R79) -/

/-- The text before the comment. -/
def dropComment (cs : List Char) : List Char := cs.takeWhile fun ch => ch != ';'

/-- The tokens of a line, split at spaces, tabs and commas; `acc` is the token so far, reversed. -/
def tokensFrom (acc : List Char) : List Char → List (List Char)
  | [] => if acc = [] then [] else [acc.reverse]
  | ch :: cs =>
    if ch = ' ' ∨ ch = ',' ∨ ch = '\t' then
      if acc = [] then tokensFrom [] cs else acc.reverse :: tokensFrom [] cs
    else tokensFrom (ch :: acc) cs

/-- A digit's value in a base up to 16. -/
def digitValue (ch : Char) : Option Nat :=
  if '0' ≤ ch ∧ ch ≤ '9' then some (ch.toNat - '0'.toNat)
  else if 'a' ≤ ch ∧ ch ≤ 'f' then some (ch.toNat - 'a'.toNat + 10)
  else if 'A' ≤ ch ∧ ch ≤ 'F' then some (ch.toNat - 'A'.toNat + 10)
  else none

/-- Digits of a base, most significant first, at least one; `afterDigit` says that a digit came just before. R12 allows the
digit separator `_` inside a literal and does not say where; the model takes one between two digits and nowhere else (DESIGN
CHOICE, log entry 12). -/
def digitsValue (base : Nat) (acc : Nat) (afterDigit : Bool) : List Char → Option Nat
  | [] => if afterDigit then some acc else none
  | ch :: cs =>
    if ch = '_' then
      if afterDigit then digitsValue base acc false cs else none
    else
      match digitValue ch with
      | some d => if d < base then digitsValue base (base * acc + d) true cs else none
      | none => none

/-- A number in decimal or `0x` hex (R79). -/
def numberValue : List Char → Option Nat
  | '0' :: 'x' :: cs => digitsValue 16 0 false cs
  | cs => digitsValue 10 0 false cs

/-- A line from its mnemonic and the values of its operands. -/
def lineOf (name : List Char) (args : List Nat) : Option SourceLine :=
  match name, args with
  | ['r', 'd', '8'], [off] => some (.op (.rd8 off))
  | ['r', 'd', '1', '6'], [off] => some (.op (.rd16 off))
  | ['r', 'd', '3', '2'], [off] => some (.op (.rd32 off))
  | ['w', 'r', '8'], [off, v] => some (.op (.wr8 off v))
  | ['w', 'r', '1', '6'], [off, v] => some (.op (.wr16 off v))
  | ['w', 'r', '3', '2'], [off, v] => some (.op (.wr32 off v))
  | ['r', 'd', 'r', 'e', 'l', 'o', 'a', 'd'], [c] => some (.op (.rdreload c))
  | ['a', 'd', 'v', 'a', 'n', 'c', 'e'], [t] => some (.op (.advance t))
  | ['r', 'e', 's', 'e', 't'], [] => some (.op .reset)
  | ['s', 'e', 't', 'r', 'e', 'l', 'o', 'a', 'd'], [c, v] => some (.pseudo (.setreload c v))
  | ['s', 'e', 't', 'c', 't', 'l'], [c, v] => some (.pseudo (.setctl c v))
  | ['r', 'd', 'c', 'n', 't'], [c] => some (.pseudo (.rdcnt c))
  | ['r', 'd', 'c', 't', 'l'], [c] => some (.pseudo (.rdctl c))
  | ['s', 't', 'a', 'r', 't'], [c, r, v] => some (.pseudo (.start c r v))
  | ['s', 't', 'a', 'r', 't', 'w'], [c, r, v] => some (.pseudo (.startw c r v))
  | ['s', 't', 'o', 'p'], [c, v] => some (.pseudo (.stop c v))
  | ['w', 'a', 'i', 't'], [n] => some (.pseudo (.wait n))
  | _, _ => none

/-- A source line from its text; none where it is no line of R79 or R80. OVF has no syntax (R79). R79 has one operation per line
and does not say what a line without one is; the model takes an empty line, or one with only a comment, as a line that
assembles to nothing (DESIGN CHOICE, log entry 12). -/
def parseLine (cs : List Char) : Option SourceLine :=
  match tokensFrom [] (dropComment cs) with
  | [] => some .blank
  | name :: args =>
    match args.mapM numberValue with
    | some vs => lineOf name vs
    | none => none

end Sys2Proof.Machine
end

