-- ==== Sys2Proof/Machine/Bus.lean ====
section
/-! DEFINITION. The bus layer's view: MemRead and MemWrite as operation words (spec/20_memory.md R50, R52; spec/00_scope.md R13). -/

namespace Sys2Proof.Machine

/-- The access sizes n = 1, 2, 4 (R52). -/
inductive AccessSize where
  | byte | half | word
deriving DecidableEq, Repr

/-- n, in bytes (R52). -/
def AccessSize.bytes : AccessSize → Nat
  | .byte => 1
  | .half => 2
  | .word => 4

/-- The `size` field of format B (R52, R71). -/
def AccessSize.code : AccessSize → BitVec 2
  | .byte => 0#2
  | .half => 1#2
  | .word => 2#2

/-- The word of format B for an access: K = 0, W, size, off (R52, R71). -/
def accessWord (write : Bool) (n : AccessSize) (off : BitVec 4) : Byte :=
  0#1 ++ BitVec.ofBool write ++ n.code ++ off

/-- The offset of a bus address in the 16-byte window at TIMER_BASE; none outside it, where the block sees no access
(R50, R52). -/
def windowOffset (addr : Nat) : Option (BitVec 4) :=
  if Config.timerBase ≤ addr ∧ addr < Config.timerBase + 16 then some (BitVec.ofNat 4 (addr - Config.timerBase)) else none

/-- The operation that `MemRead(addr, n)` presents to the block (R52). -/
def memRead (addr : Nat) (n : AccessSize) : Option (List Byte) :=
  (windowOffset addr).map fun off => [accessWord false n off]

/-- The operation that `MemWrite(addr, n, v)` presents to the block: the word, then the n-byte value (R52, R73). -/
def memWrite (addr : Nat) (n : AccessSize) (v : Nat) : Option (List Byte) :=
  (windowOffset addr).map fun off => accessWord true n off :: leBytes n.bytes v

/-- One operation presented to the block as its bytes (R52, R70): executed, or refused before it executes (R182). Whether a word
the decoder refuses is still refused once a fault is recorded the spec does not say; here as in `step` the answer is then the
unchanged state (DESIGN CHOICE, log entry 4). -/
def present (bytes : List Byte) (s : State) : Result :=
  if s.fault.isSome then .next s
  else
    match decode bytes with
    | .ok i _ => exec i s
    | .refuse k => .refused (.atInterface k)

end Sys2Proof.Machine
end

