-- ==== Sys2Proof/Machine/Reference.lean ====
section
/-! DEFINITION. The per-cycle reference model of spec/42_overflow_cascade.md R170, and when the block agrees with it (R171). It is no part of the machine: it is what the lazy counter must be equivalent to. -/

namespace Sys2Proof.Machine

/-- A channel of the reference model: `cnt` and `phase` in place of `base` and `t_start`, no event (R170). -/
structure RefChannel where
  cnt : Half
  phase : Nat
  reload : Half
  sel : BitVec 2
  cascade : Bool
  irq : Bool
  run : Bool
deriving DecidableEq, Repr

/-- The reference model's state (R170). -/
structure RefState where
  chans : Vector RefChannel 4
  now : Nat
  out : List OutEvent
deriving DecidableEq, Repr

/-- A reference channel's reading. -/
def RefState.ch (r : RefState) (c : Chan) : RefChannel := r.chans[c.val]

/-- A reference channel's writing. -/
def RefState.setCh (r : RefState) (c : Chan) (x : RefChannel) : RefState := { r with chans := r.chans.set c.val x }

/-- An output event of the reference model. -/
def refEmit (k : OutKind) (c : Chan) (r : RefState) : RefState := { r with out := r.out ++ [⟨k, c, r.now⟩] }

/-- The outputs of an overflow (R164), in the reference model. -/
def refOverflowOutputs (c : Chan) (r : RefState) : RefState :=
  let r1 := if (r.ch c).irq then refEmit .irq c r else r
  if audioCadence c then refEmit .cadence c r1 else r1

/-- Cascade ticks acting on `cnt` (R162 to R164, R170). -/
def refTickChain : List Chan → RefState → RefState
  | [], r => r
  | n :: rest, r =>
    if (r.ch n).run && (r.ch n).cascade then
      if (r.ch n).cnt = 0xFFFF#16 then
        refTickChain rest (refOverflowOutputs n (r.setCh n { r.ch n with cnt := (r.ch n).reload }))
      else r.setCh n { r.ch n with cnt := (r.ch n).cnt + 1#16 }
    else r

/-- Increment(c) (R170). -/
def refIncrement (c : Chan) (r : RefState) : RefState :=
  if (r.ch c).cnt = 0xFFFF#16 then
    refTickChain (channelsAbove c) (refOverflowOutputs c (r.setCh c { r.ch c with cnt := (r.ch c).reload }))
  else r.setCh c { r.ch c with cnt := (r.ch c).cnt + 1#16 }

/-- One base cycle of one channel's prescaler (R170). -/
def refPrescale (c : Chan) (r : RefState) : RefState :=
  if (r.ch c).phase + 1 = prescale (r.ch c).sel then refIncrement c (r.setCh c { r.ch c with phase := 0 })
  else r.setCh c { r.ch c with phase := (r.ch c).phase + 1 }

/-- CycleStep (R170): `now` moves by one cycle, then the internally clocked channels, listed in the order in which their
pending events would fire. -/
def cycleStep (order : List Chan) (r : RefState) : RefState :=
  order.foldl (fun r c => refPrescale c r) { r with now := r.now + 1 }

/-- A reload write, in the reference model (R125, R170). -/
def refWriteReload (c : Chan) (v : Half) (r : RefState) : RefState :=
  refEmit .rate c (r.setCh c { r.ch c with reload := v })

/-- A control write, in the reference model: a start sets `cnt <- reload` and `phase <- 0`, a stop holds `cnt`, a re-base sets
`phase <- 0` and keeps `cnt` (R123, R124, R170). -/
def refWriteControl (c : Chan) (v : Half) (r : RefState) : RefState :=
  let old := r.ch c
  let new : RefChannel :=
    { old with sel := v.extractLsb' 0 2, cascade := c != 0 && v.getLsbD 2, irq := v.getLsbD 6, run := v.getLsbD 7 }
  let started : RefChannel :=
    match old.run, new.run with
    | false, true => { new with cnt := old.reload, phase := 0 }
    | true, true => if new.sel ≠ old.sel ∨ new.cascade ≠ old.cascade then { new with phase := 0 } else new
    | _, false => new
  refEmit .rate c (r.setCh c started)

/-- RESET, in the reference model (R201). -/
def refReset (r : RefState) : RefState := { r with chans := Vector.replicate 4 ⟨0, 0, 0, 0, false, false, false⟩ }

/-- A register operation or RESET, in the reference model: reads change nothing (R140); OVF and ADVANCE are no operations on
the counters between cycles. -/
def refOp : Instr → RefState → RefState
  | .wr8ReloadLo c b, r => refWriteReload c ((r.ch c).reload.extractLsb' 8 8 ++ b) r
  | .wr8ReloadHi c b, r => refWriteReload c (b ++ (r.ch c).reload.extractLsb' 0 8) r
  | .wr16Reload c v, r => refWriteReload c v r
  | .wr8CtlLo c b, r => refWriteControl c (b.setWidth 16) r
  | .wr16Ctl c v, r => refWriteControl c v r
  | .wr32 c w, r => refWriteControl c (w.extractLsb' 16 16) (refWriteReload c (w.extractLsb' 0 16) r)
  | .reset, r => refReset r
  | .rd8CntLo _, r => r
  | .rd8CntHi _, r => r
  | .rd8CtlLo _, r => r
  | .rd8CtlHi _, r => r
  | .rd16Cnt _, r => r
  | .rd16Ctl _, r => r
  | .rd32 _, r => r
  | .rdReload _, r => r
  | .wr8CtlHi _ _, r => r
  | .ovf _, r => r
  | .advance _, r => r

/-- The block agrees with the reference model (R171): the same counters, registers, time and outputs, and for each internally
clocked channel the same prescaler phase. -/
def Agrees (s : State) (r : RefState) : Prop :=
  s.now = r.now ∧ s.out = r.out ∧
    ∀ c : Chan,
      s.counter c = (r.ch c).cnt ∧ (s.internal c = true → s.phase c = (r.ch c).phase) ∧
        (s.ch c).reload = (r.ch c).reload ∧ (s.ch c).sel = (r.ch c).sel ∧ s.cascadeBit c = (r.ch c).cascade ∧
          (s.ch c).irq = (r.ch c).irq ∧ (s.ch c).run = (r.ch c).run

/-- An event put in its place in a list in firing order. -/
def insertEvent (e : Event) : List Event → List Event
  | [] => [e]
  | x :: xs => if e.before x then e :: x :: xs else x :: insertEvent e xs

/-- The channel of an overflow event. -/
def Event.channel (e : Event) : Option Chan :=
  match e.cb with
  | .ovf c => some c
  | .foreign _ => none

/-- The channels with a pending overflow event, in the order in which the events would fire (R106, R170). -/
def State.firingOrder (s : State) : List Chan := (s.queue.foldr insertEvent []).filterMap Event.channel

end Sys2Proof.Machine
end

