-- ==== Sys2Proof/Safety.lean ====
section
/-! DEFINITION. What counts as a sound state and as a clean run of the block, in the terms the statements use. -/

namespace Sys2Proof.Machine

/-- The time at which channel `c`'s pending overflow is due: `t_start + (0x10000 - base) * P(c)` (R31). -/
def State.overflowTime (s : State) (c : Chan) : Nat := (s.ch c).tStart + s.cyclesToOverflow c (s.ch c).base

/-- The invariant that holds between operations (R25, R31, R32, R34, R35): channel 0 stores no cascade bit; the queue lists its
events with rising registration numbers below the next one, none of them in the past; a channel has a pending event exactly
when it is internally clocked, that event is in the queue at the time R31 gives, and it is the only overflow event of the
channel; an internally clocked channel did not start in the future; no callback is running. -/
structure State.Inv (s : State) : Prop where
  cascade0 : (s.ch 0).cascade = false
  rising : s.queue.Pairwise fun a b => a.seq < b.seq
  registered : ∀ e ∈ s.queue, e.seq < s.nextSeq
  notPast : ∀ e ∈ s.queue, s.now ≤ e.t
  pending : ∀ c, s.internal c = true → ∃ h, (s.ch c).ev = some h ∧ ⟨s.overflowTime c, h, .ovf c⟩ ∈ s.queue
  idle : ∀ c, s.internal c = false → (s.ch c).ev = none
  owned : ∀ e ∈ s.queue, ∀ c, e.cb = .ovf c → (s.ch c).ev = some e.seq
  started : ∀ c, s.internal c = true → (s.ch c).tStart ≤ s.now
  betweenCallbacks : s.firing = none

/-- No event of a foreign component is pending (HOST_SCHEDULE empty, R8). -/
def State.NoForeign (s : State) : Prop := ∀ e ∈ s.queue, ∃ c, e.cb = .ovf c

/-- No channel runs, no overflow is pending and no callback is running: the state power-on and RESET leave (R202). -/
structure State.Quiet (s : State) : Prop where
  stopped : ∀ c, (s.ch c).run = false
  noOverflow : ∀ e ∈ s.queue, ∀ c, e.cb ≠ .ovf c
  betweenCallbacks : s.firing = none

/-- A control write with the run bit set (R24, R123), which is what starts a stopped channel (R202). -/
def setsRun : Instr → Bool
  | .wr8CtlLo _ b => b.getLsbD 7
  | .wr16Ctl _ v => v.getLsbD 7
  | .wr32 _ w => w.getLsbD 23
  | .rd8CntLo _ => false
  | .rd8CntHi _ => false
  | .rd8CtlLo _ => false
  | .rd8CtlHi _ => false
  | .rd16Cnt _ => false
  | .rd16Ctl _ => false
  | .rd32 _ => false
  | .wr8ReloadLo _ _ => false
  | .wr8ReloadHi _ _ => false
  | .wr8CtlHi _ _ => false
  | .wr16Reload _ _ => false
  | .ovf _ => false
  | .rdReload _ => false
  | .advance _ => false
  | .reset => false

/-- No foreign callback still to run issues a control write with the run bit set. -/
def State.CallbacksStartNone (s : State) : Prop :=
  ∀ as ∈ s.schedule, ∀ bytes, .op bytes ∈ as → ∀ i rest, decode bytes = .ok i rest → setsRun i = false

/-- A clean run so far: no fault (R181) and no refused operation (R182). -/
def State.Clean (s : State) : Prop := s.fault = none ∧ s.refusals = []

end Sys2Proof.Machine
end

