-- ==== Sys2Proof/Certificates/Slice0/Obligations.lean ====
section
/-! DEFINITION. The statements for the provers, from the numbered rules of spec/. Where a rule is one of the spec's own decisions (92_eei_decisions.md D<n>), its docstring names the decision. `.next t` is the outcome "the next state is t". -/

open Sys2Proof Sys2Proof.Machine

/-! ### Reset and the whole machine -/

/-- R200 (D18): at power-on every channel's reload, base, control fields and `t_start` are 0 and it has no event, `now = 0`, the
queue is empty, `next_seq = 0`, there is no fault and no output, and every channel is stopped. -/
def Obligations.PowerOnState : Prop :=
  (∀ c : Chan, State.reset.ch c = ⟨0x0000#16, 0x0000#16, 0#2, false, false, false, 0, none⟩) ∧
    State.reset.now = 0 ∧ State.reset.queue = [] ∧ State.reset.nextSeq = 0 ∧ State.reset.fault = none ∧
      State.reset.out = []

/-- The invariant of R31 and R32, with R25, R34 and R35, holds at power-on (R203), and at power-on with anything issued by the
host and any HOST_SCHEDULE: both are open (R8), and that `State.reset` has them empty is the model's choice (log entries 1
and 2). -/
def Obligations.PowerOnMeetsInvariant : Prop :=
  State.reset.Inv ∧
    ∀ (issued : List HostItem) (callbacks : List (List CallbackAction)),
      ({ State.reset with input := issued, schedule := callbacks } : State).Inv

/-- R31, R32, R34, R35: every step keeps the invariant, whatever the host, the foreign callbacks and their contents. -/
def Obligations.StepKeepsInvariant : Prop :=
  ∀ s t : State, s.Inv → step s = .next t → t.Inv

/-- What a step is: with no fault recorded, an operation whose bytes stand at the head of the host's stream is executed on the
state with those bytes taken, and nothing is added to it; bytes that the decoder refuses are refused (R182); a request of a
foreign component goes to the scheduler (R101); with nothing issued nothing happens. The stream and its order are the model's
form of R8 (log entries 1 and 7). -/
def Obligations.StepRunsWhatIsIssued : Prop :=
  ∀ s : State, s.fault = none →
    (s.input = [] → step s = .next s) ∧
    (∀ (b : Byte) (bs : List Byte) (tail : List HostItem),
      s.input = (b :: bs).map HostItem.byte ++ tail → (∀ (x : Byte) (more : List HostItem), tail ≠ .byte x :: more) →
        (∀ (i : Instr) (rest : List Byte), decode (b :: bs) = .ok i rest →
          step s = exec i { s with input := rest.map HostItem.byte ++ tail }) ∧
        (∀ k : RefusalKind, decode (b :: bs) = .refuse k → step s = .refused (.atInterface k))) ∧
    (∀ (owner : Nat) (r : ForeignRequest) (rest : List HostItem), s.input = .request owner r :: rest →
      step s = .next (foreignRequest owner r { s with input := rest }))

/-- R181: a fault is terminal and sticky. Once one is recorded, no operation takes effect, RESET included, and a step changes
nothing; and the operation that raised it stops at that point with what it had done: an ADVANCE whose next callback faults
ends in the state that callback left. That the model answers the unchanged state, and not a stop, is its own form of this (log
entry 4). -/
def Obligations.FaultIsTerminal : Prop :=
  (∀ (s : State) (i : Instr), s.fault ≠ none → exec i s = .next s) ∧
    (∀ s : State, s.fault ≠ none → step s = .next s) ∧
    (∀ (s : State) (T : Nat) (e : Event), s.fault = none → s.now ≤ T → s.nextDue T = some e →
      (fire e s).fault ≠ none → exec (.advance T) s = .next (fire e s))

/-- R100: `now` changes only inside ADVANCE and never decreases. Every other operation leaves it as it is; and no step from a
state that meets the invariant makes it smaller. -/
def Obligations.TimeMovesOnlyInAdvance : Prop :=
  (∀ (i : Instr) (s t : State), (∀ T, i ≠ .advance T) → exec i s = .next t → t.now = s.now) ∧
    (∀ s t : State, s.Inv → step s = .next t → s.now ≤ t.now)

/-- R37, R9, R215: the outputs are appended to and never rewritten, the read values too; what a step adds carries times from
`now` before it to `now` after it, in order. -/
def Obligations.OutputsAreAppendedInOrder : Prop :=
  ∀ s t : State, s.Inv → step s = .next t →
    (∃ l : List OutEvent, t.out = s.out ++ l ∧ (∀ o ∈ l, s.now ≤ o.time ∧ o.time ≤ t.now) ∧
      l.Pairwise fun a b => a.time ≤ b.time) ∧
    (∃ l : List ReadValue, t.reads = s.reads ++ l)

/-! ### Encoding -/

/-- R70 to R75 (D20): decoding the bytes of a well-formed operation, whatever follows them, gives that operation with every
operand, and what follows. -/
def Obligations.DecodeOfEncode : Prop :=
  ∀ (i : Instr) (rest : List Byte), i.wf = true → decode (encode i ++ rest) = .ok i rest

/-- The other direction: what decodes to an operation is exactly that operation's bytes, and the operation is well formed. -/
def Obligations.EncodeOfDecode : Prop :=
  ∀ (bs rest : List Byte) (i : Instr), decode bs = .ok i rest → i.wf = true ∧ encode i ++ rest = bs

/-- Words that R75 and the programs P1, P3, P4, P5 and vectors V15, V16 of 95_test_vectors.md write out decode to the operations
they stand for. -/
def Obligations.SpecWordsDecode : Prop :=
  decode [0x50#8, 0x00#8, 0xFF#8] = .ok (.wr16Reload 0 0xFF00#16) [] ∧
    decode [0x52#8, 0xC1#8, 0x00#8] = .ok (.wr16Ctl 0 0x00C1#16) [] ∧
    decode [0xA0#8, 0x40#8, 0x9C#8, 0#8, 0#8, 0#8, 0#8, 0#8, 0#8] = .ok (.advance 40000) [] ∧
    decode [0x64#8, 0xFF#8, 0xFF#8, 0xC4#8, 0x00#8] = .ok (.wr32 1 0x00C4FFFF#32) [] ∧
    decode [0x48#8, 0xF0#8] = .ok (.wr8ReloadLo 2 0xF0#8) [] ∧
    decode [0x4A#8, 0x82#8] = .ok (.wr8CtlLo 2 0x82#8) [] ∧
    decode [0x45#8, 0xCD#8] = .ok (.wr8ReloadHi 1 0xCD#8) [] ∧
    decode [0x43#8, 0xFF#8] = .ok (.wr8CtlHi 0 0xFF#8) [] ∧
    decode [0x18#8] = .ok (.rd16Cnt 2) [] ∧ decode [0x1E#8] = .ok (.rd16Ctl 3) [] ∧ decode [0x2C#8] = .ok (.rd32 3) [] ∧
    decode [0x04#8] = .ok (.rd8CntLo 1) [] ∧ decode [0x09#8] = .ok (.rd8CntHi 2) [] ∧
    decode [0x02#8] = .ok (.rd8CtlLo 0) [] ∧ decode [0x0F#8] = .ok (.rd8CtlHi 3) [] ∧
    decode [0x92#8] = .ok (.rdReload 2) [] ∧ decode [0x83#8] = .ok (.ovf 3) [] ∧ decode [0xB0#8] = .ok .reset []

/-- R76, R54 (D7, D20): which words are reserved, one clause per item of the rule, and that there are 190 of them and 66
accepted ones; a reserved word at the head of the host's stream is refused (R182), as MISALIGNED in the second and third clause
and as RESERVED_WORD otherwise. The stream as a list in the state is the model's form (log entry 1). -/
def Obligations.ReservedWordsAreRefused : Prop :=
  let badSize (n : Nat) := (0x30 ≤ n ∧ n ≤ 0x3F) ∨ (0x70 ≤ n ∧ n ≤ 0x7F)
  let oddHalf (n : Nat) := n % 2 = 1 ∧ ((0x10 ≤ n ∧ n ≤ 0x1F) ∨ (0x50 ≤ n ∧ n ≤ 0x5F))
  let oddWord (n : Nat) := n % 4 ≠ 0 ∧ ((0x20 ≤ n ∧ n ≤ 0x2F) ∨ (0x60 ≤ n ∧ n ≤ 0x6F))
  let badKind (n : Nat) := 0xC0 ≤ n
  let badZ (n : Nat) := (0x84 ≤ n ∧ n ≤ 0x8F) ∨ (0x94 ≤ n ∧ n ≤ 0x9F)
  let badLow (n : Nat) := (0xA1 ≤ n ∧ n ≤ 0xAF) ∨ (0xB1 ≤ n ∧ n ≤ 0xBF)
  (∀ w : Byte, opOfWord w = none ↔
    badSize w.toNat ∨ oddHalf w.toNat ∨ oddWord w.toNat ∨ badKind w.toNat ∨ badZ w.toNat ∨ badLow w.toNat) ∧
  ((List.range 256).filter fun n => (opOfWord (BitVec.ofNat 8 n)).isNone).length = 190 ∧
  (∀ (s : State) (w : Byte) (more : List HostItem), s.fault = none → s.input = .byte w :: more →
    ((oddHalf w.toNat ∨ oddWord w.toNat) → step s = .refused (.atInterface .misaligned)) ∧
    ((badSize w.toNat ∨ badKind w.toNat ∨ badZ w.toNat ∨ badLow w.toNat) →
      step s = .refused (.atInterface .reservedWord)))

/-- R78: a stream that ends inside an operand is refused as TRUNCATED_OPERAND, at whatever byte it ends. -/
def Obligations.TruncatedOperandIsRefused : Prop :=
  ∀ (i : Instr) (n : Nat), i.wf = true → 0 < n → n < (encode i).length →
    decode ((encode i).take n) = .refuse .truncatedOperand

/-- R52 (D1, D20): the bus layer's accesses to the window are presented as the operation of the same size and offset, by the
assembler's names of R79; a misaligned one is refused (R54); the block sees no access outside the window. -/
def Obligations.BusAccessesAreOperations : Prop :=
  (∀ (off : BitVec 4) (n : AccessSize),
    ∃ bs, memRead (Config.timerBase + off.toNat) n = some bs ∧
      decode bs =
        match assemble (match n with | .byte => .rd8 off.toNat | .half => .rd16 off.toNat | .word => .rd32 off.toNat) with
        | some i => .ok i []
        | none => .refuse .misaligned) ∧
  (∀ (off : BitVec 4) (n : AccessSize) (v : Nat), v < 2 ^ (8 * n.bytes) →
    ∃ bs, memWrite (Config.timerBase + off.toNat) n v = some bs ∧
      decode bs =
        match assemble (match n with | .byte => .wr8 off.toNat v | .half => .wr16 off.toNat v | .word => .wr32 off.toNat v) with
        | some i => .ok i []
        | none => .refuse .misaligned) ∧
  (∀ (addr : Nat) (n : AccessSize) (v : Nat), addr < Config.timerBase ∨ Config.timerBase + 16 ≤ addr →
    memRead addr n = none ∧ memWrite addr n v = none)

/-- R80 (D21): what the pseudo-instructions assemble to, for operands in range; the time `wait` counts from is the one the last
`wait` or `advance` line reached. -/
def Obligations.PseudoInstructionsExpand : Prop :=
  ∀ (c : Chan) (r v : Half) (t0 n : Nat),
    assembleProgram t0 [.pseudo (.setreload c.val v.toNat)] = some [.wr16Reload c v] ∧
    assembleProgram t0 [.pseudo (.setctl c.val v.toNat)] = some [.wr16Ctl c v] ∧
    assembleProgram t0 [.pseudo (.rdcnt c.val)] = some [.rd16Cnt c] ∧
    assembleProgram t0 [.pseudo (.rdctl c.val)] = some [.rd16Ctl c] ∧
    assembleProgram t0 [.pseudo (.start c.val r.toNat v.toNat)] = some [.wr16Reload c r, .wr16Ctl c (v ||| 0x0080#16)] ∧
    assembleProgram t0 [.pseudo (.startw c.val r.toNat v.toNat)] = some [.wr32 c ((v ||| 0x0080#16) ++ r)] ∧
    assembleProgram t0 [.pseudo (.stop c.val v.toNat)] = some [.wr16Ctl c (v &&& 0xFF7F#16)] ∧
    (t0 + n + n < 2 ^ 64 →
      assembleProgram t0 [.pseudo (.wait n), .pseudo (.wait n)] = some [.advance (t0 + n), .advance (t0 + n + n)]) ∧
    (∀ T : Nat, T + n < 2 ^ 64 →
      assembleProgram t0 [.op (.advance T), .pseudo (.wait n)] = some [.advance T, .advance (T + n)])

/-! ### Reads and the visible counter -/

/-- R133 to R139 and R141 (byte order D5, D6; RD_RELOAD D26), with R140: each read has the word R75 gives it, it answers its
value, and nothing else of the state changes. The list of returned values is the model's record of R9 (log entry 6). -/
def Obligations.ReadsReturnTheirValue : Prop :=
  ∀ (s : State) (c : Chan), s.fault = none →
    [opWord (.rd16Cnt c), opWord (.rd8CntLo c), opWord (.rd8CntHi c), opWord (.rd16Ctl c), opWord (.rd8CtlLo c),
        opWord (.rd8CtlHi c), opWord (.rd32 c)] =
      [0x10, 0x00, 0x01, 0x12, 0x02, 0x03, 0x20].map (fun p => BitVec.ofNat 8 (p + 4 * c.val)) ∧
    opWord (.rdReload c) = BitVec.ofNat 8 (0x90 + c.val) ∧
    exec (.rd16Cnt c) s = .next { s with reads := s.reads ++ [.half (s.counter c)] } ∧
    exec (.rd8CntLo c) s = .next { s with reads := s.reads ++ [.byte ((s.counter c).setWidth 8)] } ∧
    exec (.rd8CntHi c) s = .next { s with reads := s.reads ++ [.byte ((s.counter c >>> 8).setWidth 8)] } ∧
    exec (.rd16Ctl c) s = .next { s with reads := s.reads ++ [.half (s.ctlValue c)] } ∧
    exec (.rd8CtlLo c) s = .next { s with reads := s.reads ++ [.byte ((s.ctlValue c).setWidth 8)] } ∧
    exec (.rd8CtlHi c) s = .next { s with reads := s.reads ++ [.byte 0x00#8] } ∧
    exec (.rd32 c) s =
      .next { s with
        reads := s.reads ++ [.word (((s.ctlValue c).setWidth 32 <<< 16) ||| (s.counter c).setWidth 32)] } ∧
    exec (.rdReload c) s = .next { s with reads := s.reads ++ [.half (s.ch c).reload] }

/-- R30 and R28 (D3, D11): the counter of an internally clocked channel is `base` and the whole prescaled ticks since `t_start`,
clamped to 0xFFFF; any other channel's counter is `base`. -/
def Obligations.CounterIsReconstructed : Prop :=
  ∀ (s : State) (c : Chan),
    (((s.ch c).run = true ∧ (c = 0 ∨ (s.ch c).cascade = false)) →
      (s.counter c).toNat =
        min 0xFFFF ((s.ch c).base.toNat + (s.now - (s.ch c).tStart) / [1, 64, 256, 1024].getD (s.ch c).sel.toNat 0)) ∧
    (¬((s.ch c).run = true ∧ (c = 0 ∨ (s.ch c).cascade = false)) → s.counter c = (s.ch c).base)

/-- R32: an internally clocked channel has started, and its reconstructed count stays within 16 bits as long as its overflow is
not due; the clamp acts exactly at the overflow's own time, where the read gives 0xFFFF (90 C5). The premise leaves `firing`
free, so it covers the states inside a foreign callback too, where alone R32 says that the clamp is reached. -/
def Obligations.ClampOnlyAtTheOverflowInstant : Prop :=
  ∀ (s : State) (c : Chan), ({ s with firing := none } : State).Inv → s.internal c = true →
    (s.ch c).tStart ≤ s.now ∧ s.now ≤ s.overflowTime c ∧
    (s.now < s.overflowTime c → (s.ch c).base.toNat + s.elapsedTicks c ≤ 0xFFFF ∧
      (s.counter c).toNat = (s.ch c).base.toNat + s.elapsedTicks c) ∧
    (s.now = s.overflowTime c → (s.ch c).base.toNat + s.elapsedTicks c = 0x10000 ∧ s.counter c = 0xFFFF#16)

/-- R24 and R25 (D2, D4, D23): the control value's bits, the reserved ones 0, bit 2 of channel 0 hard-wired to 0; and what any
control write of `v` makes it, in every state. -/
def Obligations.ControlWordLayout : Prop :=
  (∀ (s : State) (c : Chan),
    (s.ctlValue c).extractLsb' 0 2 = (s.ch c).sel ∧
    (s.ctlValue c).getLsbD 2 = (c != 0 && (s.ch c).cascade) ∧
    (s.ctlValue c).getLsbD 6 = (s.ch c).irq ∧
    (s.ctlValue c).getLsbD 7 = (s.ch c).run ∧
    s.ctlValue c &&& 0xFF38#16 = 0#16) ∧
  (∀ s : State, (s.ctlValue 0).getLsbD 2 = false ∧ ((s.ch 0).run = true → s.internal 0 = true)) ∧
  (∀ (s : State) (c : Chan) (v : Half), s.fault = none →
    ∃ t, exec (.wr16Ctl c v) s = .next t ∧ t.ctlValue c = v &&& (if c = 0 then 0x00C3#16 else 0x00C7#16))

/-- R51, R53 (D1, D5): a byte read gives the window's byte at its offset, and a half-word or word read gives the bytes of its
offsets with the lowest offset least significant. -/
def Obligations.ReadsAreLittleEndian : Prop :=
  ∀ (s : State) (c : Chan), s.fault = none →
    exec (.rd8CntLo c) s = .next { s with reads := s.reads ++ [.byte (s.windowByte c 0#2)] } ∧
    exec (.rd8CntHi c) s = .next { s with reads := s.reads ++ [.byte (s.windowByte c 1#2)] } ∧
    exec (.rd8CtlLo c) s = .next { s with reads := s.reads ++ [.byte (s.windowByte c 2#2)] } ∧
    exec (.rd8CtlHi c) s = .next { s with reads := s.reads ++ [.byte (s.windowByte c 3#2)] } ∧
    exec (.rd16Cnt c) s = .next { s with reads := s.reads ++ [.half (s.windowByte c 1#2 ++ s.windowByte c 0#2)] } ∧
    exec (.rd16Ctl c) s = .next { s with reads := s.reads ++ [.half (s.windowByte c 3#2 ++ s.windowByte c 2#2)] } ∧
    exec (.rd32 c) s =
      .next { s with
        reads := s.reads ++
          [.word (s.windowByte c 3#2 ++ s.windowByte c 2#2 ++ s.windowByte c 1#2 ++ s.windowByte c 0#2)] }

/-! ### Writes -/

/-- R125 to R128 (D8, D15): a reload write stores the value, or one byte of it, and emits RATE(c); nothing else changes: not the
counter, not `t_start`, not the pending event. The words are those of R75. -/
def Obligations.ReloadWritesStoreAndNotify : Prop :=
  ∀ (s : State) (c : Chan), s.fault = none →
    (∀ v : Half, opWord (.wr16Reload c v) = BitVec.ofNat 8 (0x50 + 4 * c.val) ∧
      exec (.wr16Reload c v) s =
        .next { s.setCh c { s.ch c with reload := v } with out := s.out ++ [⟨.rate, c, s.now⟩] }) ∧
    (∀ b : Byte, opWord (.wr8ReloadLo c b) = BitVec.ofNat 8 (0x40 + 4 * c.val) ∧
      exec (.wr8ReloadLo c b) s =
        .next { s.setCh c { s.ch c with reload := ((s.ch c).reload &&& 0xFF00#16) ||| b.setWidth 16 } with
          out := s.out ++ [⟨.rate, c, s.now⟩] }) ∧
    (∀ b : Byte, opWord (.wr8ReloadHi c b) = BitVec.ofNat 8 (0x41 + 4 * c.val) ∧
      exec (.wr8ReloadHi c b) s =
        .next { s.setCh c { s.ch c with reload := ((s.ch c).reload &&& 0x00FF#16) ||| (b.setWidth 16 <<< 8) } with
          out := s.out ++ [⟨.rate, c, s.now⟩] })

/-- R123: a control write that leaves a stopped channel stopped only stores the fields and emits RATE(c). -/
def Obligations.ControlWriteWhileStopped : Prop :=
  ∀ (s : State) (c : Chan) (v : Half), s.fault = none → (s.ch c).run = false → v.getLsbD 7 = false →
    exec (.wr16Ctl c v) s =
      .next { s.setCh c { s.ch c with
                sel := v.extractLsb' 0 2, cascade := decide (c ≠ 0) && v.getLsbD 2, irq := v.getLsbD 6, run := false } with
        out := s.out ++ [⟨.rate, c, s.now⟩] }

/-- R120, with R123 and R210: the 0 to 1 transition of the run bit starts the channel from its reload value at `now`; with
cascade 0 the overflow is registered `(0x10000 - reload) * P` cycles later under the next registration number, and with
cascade 1 nothing is registered. -/
def Obligations.RunTransitionStartsTheChannel : Prop :=
  ∀ (s : State) (c : Chan) (v : Half), s.fault = none → (s.ch c).run = false → v.getLsbD 7 = true →
    ((c = 0 ∨ v.getLsbD 2 = false) →
      exec (.wr16Ctl c v) s =
        .next { s.setCh c { reload := (s.ch c).reload, base := (s.ch c).reload, sel := v.extractLsb' 0 2,
                            cascade := false, irq := v.getLsbD 6, run := true, tStart := s.now,
                            ev := some s.nextSeq } with
          queue := s.queue ++
            [⟨s.now + (0x10000 - (s.ch c).reload.toNat) * [1, 64, 256, 1024].getD (v.toNat % 4) 0, s.nextSeq, .ovf c⟩]
          nextSeq := s.nextSeq + 1
          out := s.out ++ [⟨.rate, c, s.now⟩] }) ∧
    ((c ≠ 0 ∧ v.getLsbD 2 = true) →
      exec (.wr16Ctl c v) s =
        .next { s.setCh c { s.ch c with
                  base := (s.ch c).reload, sel := v.extractLsb' 0 2, cascade := true, irq := v.getLsbD 6, run := true,
                  tStart := s.now } with
          out := s.out ++ [⟨.rate, c, s.now⟩] })

/-- R121, with R123 (D9): the 1 to 0 transition of the run bit cancels the pending overflow event and holds the counter at the
value it had at the write, under the old control fields. -/
def Obligations.RunTransitionStopsTheChannel : Prop :=
  ∀ (s : State) (c : Chan) (v : Half), s.fault = none → (s.ch c).run = true → v.getLsbD 7 = false →
    exec (.wr16Ctl c v) s =
      .next { s.setCh c { s.ch c with
                base := s.counter c, sel := v.extractLsb' 0 2, cascade := decide (c ≠ 0) && v.getLsbD 2,
                irq := v.getLsbD 6, run := false, ev := none } with
        queue := s.queue.filter fun e => decide ((s.ch c).ev ≠ some e.seq)
        out := s.out ++ [⟨.rate, c, s.now⟩] }

/-- R124 (D10): a control write that leaves a running channel running with the same selector and cascade bit changes only the
interrupt enable; it is no restart (90 C4). -/
def Obligations.RunningWriteKeepsCounting : Prop :=
  ∀ (s : State) (c : Chan) (v : Half), s.fault = none → (s.ch c).run = true → v.getLsbD 7 = true →
    v.extractLsb' 0 2 = (s.ch c).sel → (decide (c ≠ 0) && v.getLsbD 2) = s.cascadeBit c →
      exec (.wr16Ctl c v) s =
        .next { s.setCh c { s.ch c with cascade := s.cascadeBit c, irq := v.getLsbD 6 } with
          out := s.out ++ [⟨.rate, c, s.now⟩] }

/-- R122, with R124 and R205 (D10): a control write that changes the selector or the cascade bit of a running channel keeps the
count, drops the partial prescaler period, cancels the pending event and, unless in cascade mode, registers the overflow anew
under the new prescaler. -/
def Obligations.RunningWriteRebases : Prop :=
  ∀ (s : State) (c : Chan) (v : Half), s.fault = none → (s.ch c).run = true → v.getLsbD 7 = true →
    (v.extractLsb' 0 2 ≠ (s.ch c).sel ∨ (decide (c ≠ 0) && v.getLsbD 2) ≠ s.cascadeBit c) →
      ((c = 0 ∨ v.getLsbD 2 = false) →
        exec (.wr16Ctl c v) s =
          .next { s.setCh c { reload := (s.ch c).reload, base := s.counter c, sel := v.extractLsb' 0 2,
                              cascade := false, irq := v.getLsbD 6, run := true, tStart := s.now,
                              ev := some s.nextSeq } with
            queue := (s.queue.filter fun e => decide ((s.ch c).ev ≠ some e.seq)) ++
              [⟨s.now + (0x10000 - (s.counter c).toNat) * [1, 64, 256, 1024].getD (v.toNat % 4) 0, s.nextSeq, .ovf c⟩]
            nextSeq := s.nextSeq + 1
            out := s.out ++ [⟨.rate, c, s.now⟩] }) ∧
      ((c ≠ 0 ∧ v.getLsbD 2 = true) →
        exec (.wr16Ctl c v) s =
          .next { s.setCh c { reload := (s.ch c).reload, base := s.counter c, sel := v.extractLsb' 0 2,
                              cascade := true, irq := v.getLsbD 6, run := true, tStart := s.now, ev := none } with
            queue := s.queue.filter fun e => decide ((s.ch c).ev ≠ some e.seq)
            out := s.out ++ [⟨.rate, c, s.now⟩] })

/-- R130, R131 (D8): a byte write at 4c+2 is the control write of the zero-extended byte, and one at 4c+3 has no effect at all. -/
def Obligations.ControlByteWrites : Prop :=
  ∀ (s : State) (c : Chan) (b : Byte), s.fault = none →
    opWord (.wr8CtlLo c b) = BitVec.ofNat 8 (0x42 + 4 * c.val) ∧ opWord (.wr8CtlHi c b) = BitVec.ofNat 8 (0x43 + 4 * c.val) ∧
    (∃ t, exec (.wr8CtlLo c b) s = .next t ∧ exec (.wr16Ctl c (b.setWidth 16)) s = .next t) ∧
    exec (.wr8CtlHi c b) s = .next s

/-- R132, with R55 (D6): WR32 is the reload write of its low half and then, on the state that leaves, the control write of its
high half, in one operation. -/
def Obligations.WordWriteIsReloadThenControl : Prop :=
  ∀ (s : State) (c : Chan) (w : Word), s.fault = none →
    opWord (.wr32 c w) = BitVec.ofNat 8 (0x60 + 4 * c.val) ∧
    ∃ t u, exec (.wr16Reload c (w.setWidth 16)) s = .next t ∧
      exec (.wr16Ctl c ((w >>> 16).setWidth 16)) t = .next u ∧ exec (.wr32 c w) s = .next u

/-- R57: writing the same control value twice is writing it once, but for the second RATE(c). -/
def Obligations.RepeatedControlWrite : Prop :=
  ∀ (s : State) (c : Chan) (v : Half), s.fault = none →
    ∃ t, exec (.wr16Ctl c v) s = .next t ∧
      exec (.wr16Ctl c v) t = .next { t with out := t.out ++ [⟨.rate, c, t.now⟩] }

/-- R142: the reload register reads back through RD_RELOAD, whatever the channel does. -/
def Obligations.ReloadReadsBack : Prop :=
  ∀ (s : State) (c : Chan) (v : Half), s.fault = none →
    ∃ t, exec (.wr16Reload c v) s = .next t ∧
      exec (.rdReload c) t = .next { t with reads := s.reads ++ [.half v] }

/-- R143: right after a control write that starts a stopped channel, the counter reads as the reload value. -/
def Obligations.CounterReadsReloadAfterStart : Prop :=
  ∀ (s : State) (c : Chan) (v : Half), s.fault = none → (s.ch c).run = false → v.getLsbD 7 = true →
    ∃ t, exec (.wr16Ctl c v) s = .next t ∧
      exec (.rd16Cnt c) t = .next { t with reads := s.reads ++ [.half (s.ch c).reload] }

/-! ### Overflow and cascade -/

/-- R160, with R161 and R108: OVF(c), delivered by the scheduler at the event's time, reloads the counter, registers the next
overflow one period after the requested time under the next registration number, and then does the common overflow actions.
`firing`, by which the model knows that the scheduler is invoking this callback, is its own field (log entry 8). -/
def Obligations.DeliveredOverflowReloadsAndRearms : Prop :=
  ∀ (s : State) (c : Chan) (e : Event), s.fault = none → s.firing = some e → e.cb = .ovf c → e.t = s.now →
    opWord (.ovf c) = BitVec.ofNat 8 (0x80 + c.val) ∧
    exec (.ovf c) s =
      .next { overflowCommon c
                { s.setCh c { s.ch c with base := (s.ch c).reload, tStart := e.t, ev := some s.nextSeq } with
                  queue := s.queue ++
                    [⟨e.t + (0x10000 - (s.ch c).reload.toNat) * [1, 64, 256, 1024].getD (s.ch c).sel.toNat 0, s.nextSeq,
                      .ovf c⟩]
                  nextSeq := s.nextSeq + 1 } with
        firing := none }

/-- R77 (D35): an OVF word that is not the scheduler's callback for an overflow event of that channel is refused, HOST_OVF.
Whether it is that callback the model reads from `firing`, a field of its own (log entry 8). -/
def Obligations.HostOverflowIsRefused : Prop :=
  ∀ (s : State) (c : Chan), s.fault = none → (∀ e, s.firing = some e → e.cb ≠ .ovf c) →
    exec (.ovf c) s = .refused (.atInterface .hostOvf)

/-- R164, R165, R166, R167 (D13, D14, D16): the common overflow actions emit IRQ(c) if enabled, then CADENCE(c) for channels 0
and 1, then tick the next channel; channel 3 has none. -/
def Obligations.OverflowActionsInOrder : Prop :=
  ∀ (s : State) (c : Chan),
    let outs := (if (s.ch c).irq then [⟨.irq, c, s.now⟩] else []) ++ (if c.val < 2 then [⟨.cadence, c, s.now⟩] else [])
    (∀ h : c.val < 3, overflowCommon c s = cascadeTick ⟨c.val + 1, by omega⟩ { s with out := s.out ++ outs }) ∧
    (c = 3 → overflowCommon c s = { s with out := s.out ++ outs })

/-- R162, R163 (D22, D34): a cascade tick counts one up a running channel in cascade mode, or at 0xFFFF reloads it and does the
common overflow actions with no event registered; a stopped channel and one on its own clock ignore it. -/
def Obligations.CascadeTickCountsOrOverflows : Prop :=
  ∀ (s : State) (n : Chan), n ≠ 0 →
    (¬((s.ch n).run = true ∧ (s.ch n).cascade = true) → cascadeTick n s = s) ∧
    ((s.ch n).run = true → (s.ch n).cascade = true → (s.ch n).base ≠ 0xFFFF#16 →
      cascadeTick n s = s.setCh n { s.ch n with base := BitVec.ofNat 16 ((s.ch n).base.toNat + 1) }) ∧
    ((s.ch n).run = true → (s.ch n).cascade = true → (s.ch n).base = 0xFFFF#16 →
      cascadeTick n s = overflowCommon n (s.setCh n { s.ch n with base := (s.ch n).reload, tStart := s.now }))

/-- R168: one overflow causes at most one overflow of each channel above it. A channel above `c` is left as it was, or, if it is
cascade-counting, has counted one up or has been reloaded once, from 0xFFFF, at this `now`; and it is touched only if every
channel between was cascade-counting at 0xFFFF and so overflowed. What is emitted is at one `now`, in increasing channel order
from `c` on, each kind at most once per channel, and never RATE; the queue and the channels up to `c` are untouched. -/
def Obligations.ChainsRunUpwardsOnce : Prop :=
  ∀ (s : State) (c : Chan),
    (∀ d : Chan, c < d →
      (overflowCommon c s).ch d = s.ch d ∨
        (s.cascadeCounting d = true ∧ (s.ch d).base ≠ 0xFFFF#16 ∧
          (overflowCommon c s).ch d = { s.ch d with base := BitVec.ofNat 16 ((s.ch d).base.toNat + 1) }) ∨
        (s.cascadeCounting d = true ∧ (s.ch d).base = 0xFFFF#16 ∧
          (overflowCommon c s).ch d = { s.ch d with base := (s.ch d).reload, tStart := s.now })) ∧
    (∀ d b : Chan, c < b → b < d → (overflowCommon c s).ch d ≠ s.ch d →
      s.cascadeCounting b = true ∧ (s.ch b).base = 0xFFFF#16) ∧
    (∃ l : List OutEvent, (overflowCommon c s).out = s.out ++ l ∧ (l.Pairwise fun a b => a.ch ≤ b.ch) ∧ l.Nodup ∧
      ∀ o ∈ l, o.time = s.now ∧ c ≤ o.ch ∧ o.kind ≠ .rate) ∧
    (∀ d : Chan, d ≤ c → (overflowCommon c s).ch d = s.ch d) ∧
    (overflowCommon c s).queue = s.queue ∧ (overflowCommon c s).nextSeq = s.nextSeq ∧ (overflowCommon c s).now = s.now

/-- R173: after `m` overflows of the channel below, a cascade-counting channel started with reload `r` has overflowed
`floor(m / L)` times and counts `r + (m mod L)`, where `L = 0x10000 - r`; its selector has no part in it. -/
def Obligations.CascadeCount : Prop :=
  ∀ (s : State) (n : Chan) (m : Nat), n ≠ 0 → (s.ch n).run = true → (s.ch n).cascade = true →
    (s.ch n).base = (s.ch n).reload →
      let r := (s.ch n).reload.toNat
      let L := 0x10000 - r
      let t := (cascadeTick n)^[m] s
      (t.counter n).toNat = r + m % L ∧
      ((t.out.filter fun o => o.kind == .irq && o.ch == n).length =
        (s.out.filter fun o => o.kind == .irq && o.ch == n).length + if (s.ch n).irq then m / L else 0)

/-- R169: RATE(c) is emitted by reload and control writes and by nothing else. Any other operation adds none, ADVANCE with no
foreign callback left to run included. -/
def Obligations.RateOnlyFromWrites : Prop :=
  ∀ (i : Instr) (s t : State), s.schedule = [] →
    (match i with
      | .wr8ReloadLo _ _ | .wr8ReloadHi _ _ | .wr16Reload _ _ | .wr8CtlLo _ _ | .wr16Ctl _ _ | .wr32 _ _ => False
      | _ => True) →
    exec i s = .next t → (t.out.filter fun o => o.kind == .rate) = s.out.filter fun o => o.kind == .rate

/-- The frame of OVF and of ADVANCE with no foreign callback left to run (R65, R140, R160 to R164): no channel's reload or
control fields change, no foreign event is added, no read value, refusal, input or schedule changes; and a delivered OVF(c)
leaves the channels below `c`, and the channels above it that are not cascade-counting, as they were. -/
def Obligations.OverflowFrame : Prop :=
  (∀ (i : Instr) (s t : State), s.schedule = [] → (∃ c, i = .ovf c) ∨ (∃ T, i = .advance T) → exec i s = .next t →
    (∀ d : Chan, (t.ch d).reload = (s.ch d).reload ∧ (t.ch d).sel = (s.ch d).sel ∧ (t.ch d).cascade = (s.ch d).cascade ∧
      (t.ch d).irq = (s.ch d).irq ∧ (t.ch d).run = (s.ch d).run) ∧
    (∀ e ∈ t.queue, (∀ c, e.cb ≠ .ovf c) → e ∈ s.queue) ∧
    t.reads = s.reads ∧ t.refusals = s.refusals ∧ t.input = s.input ∧ t.schedule = s.schedule) ∧
  (∀ (s t : State) (c d : Chan), exec (.ovf c) s = .next t → (d < c ∨ (c < d ∧ s.cascadeCounting d = false)) →
    t.ch d = s.ch d)

/-! ### The scheduler -/

/-- R103 (with R180): an Add, here of a foreign component, registers the event under the next registration number, or, with a
time before `now`, raises SCHED_PAST with that time and `now` recorded and changes nothing else. The request as an item at the
head of the input is the model's form (log entry 1). -/
def Obligations.AddRegistersOrFaults : Prop :=
  ∀ (s : State) (owner : Nat) (t : Nat) (rest : List HostItem), s.fault = none →
    s.input = .request owner (.add t) :: rest →
      (s.now ≤ t → step s =
        .next { s with
          input := rest, queue := s.queue ++ [⟨t, s.nextSeq, .foreign owner⟩], nextSeq := s.nextSeq + 1 }) ∧
      (t < s.now → step s = .next { s with input := rest, fault := some ⟨.schedPast, t, s.now⟩ })

/-- R104: a Cancel takes the event with that handle from the queue, does nothing where there is none, and changes nothing else.
That a foreign component cancels its own events only is R101's; the model lets any other handle do nothing (log entry 3). The
request as an item at the head of the input is the model's form (log entry 1). -/
def Obligations.CancelRemovesOwnEvent : Prop :=
  ∀ (s : State) (owner h : Nat) (rest : List HostItem), s.fault = none →
    s.input = .request owner (.cancel h) :: rest →
      ((∃ e ∈ s.queue, e.seq = h ∧ e.cb = .foreign owner) →
        step s = .next { s with input := rest, queue := s.queue.filter fun e => decide (e.seq ≠ h) }) ∧
      ((¬∃ e ∈ s.queue, e.seq = h ∧ e.cb = .foreign owner) → step s = .next { s with input := rest })

/-- R105, R106, R108, R111: ADVANCE(T). A target before `now` raises ADVANCE_BACKWARD and changes nothing else. With nothing due,
only `now` moves, to T. Otherwise the due event with the least (t, seq) leaves the queue, `now` becomes its time, its callback
runs (for this block's event, OVF(c); for another owner's, the next entry of the schedule), and ADVANCE(T) goes on from there,
unless a fault was raised. That the schedule is data of the state and `firing` holds the event are the model's choices (log
entries 2 and 8). -/
def Obligations.AdvanceFollowsTheLoop : Prop :=
  ∀ (s : State) (T : Nat), s.fault = none →
    opWord (.advance T) = 0xA0#8 ∧
    (T < s.now → exec (.advance T) s = .next { s with fault := some ⟨.advanceBackward, T, s.now⟩ }) ∧
    (s.now ≤ T → (∀ e ∈ s.queue, T < e.t) → exec (.advance T) s = .next { s with now := T }) ∧
    (∀ e ∈ s.queue, s.now ≤ T → e.t ≤ T →
      (∀ x ∈ s.queue, x ≠ e → x.t ≤ T → e.t < x.t ∨ (e.t = x.t ∧ e.seq < x.seq)) →
        let begun := { s with queue := s.queue.filter fun x => decide (x ≠ e), now := e.t, firing := some e }
        (∀ c, e.cb = .ovf c →
          ∃ t, exec (.ovf c) begun = .next t ∧ t.fault = none ∧ exec (.advance T) s = exec (.advance T) t) ∧
        (∀ owner, e.cb = .foreign owner →
          let t := { foreignCallback owner begun with firing := none }
          (t.fault = none → exec (.advance T) s = exec (.advance T) t) ∧
          (t.fault ≠ none → exec (.advance T) s = .next t)))

/-- R109: from every state, ADVANCE to a target not before `now` answers a next state, whatever the foreign callbacks do; if no
fault was raised, `now = T` and no event with a time up to T is left. It always terminates (93, after Part 1; the schedule is
finite data, log entry 2). -/
def Obligations.AdvanceReachesItsTarget : Prop :=
  ∀ (s : State) (T : Nat), s.fault = none → s.now ≤ T →
    ∃ t, exec (.advance T) s = .next t ∧ (t.fault = none → t.now = T ∧ ∀ e ∈ t.queue, T < e.t)

/-- R214: how the host splits time changes nothing: ADVANCE(T1) and then ADVANCE(T2) is ADVANCE(T2), in every state. -/
def Obligations.AdvanceSplits : Prop :=
  ∀ (s t : State) (T1 T2 : Nat), s.now ≤ T1 → T1 ≤ T2 → exec (.advance T1) s = .next t →
    exec (.advance T2) t = exec (.advance T2) s

/-- R112, R183: this block never raises SCHED_PAST itself: register operations and RESET raise no fault, and an ADVANCE to a
target not before `now` raises none when no foreign callback is left to run. -/
def Obligations.BlockNeverSchedulesInThePast : Prop :=
  (∀ (i : Instr) (s t : State), s.fault = none → (∀ c, i ≠ .ovf c) → (∀ T, i ≠ .advance T) → exec i s = .next t →
    t.fault = none) ∧
  (∀ (s t : State) (T : Nat), s.fault = none → s.schedule = [] → s.now ≤ T → exec (.advance T) s = .next t →
    t.fault = none)

/-- R161, R172: an internally clocked channel with a pending overflow at `t0`, and no foreign event pending. Up to `t0` the
counter follows the elapsed ticks, one cycle before `t0` it reads 0xFFFF, and at `t0` and every whole period
`(0x10000 - reload) * P` later the channel has just overflowed and reads its reload value: no drift. -/
def Obligations.OverflowTimesAreExact : Prop :=
  ∀ (s : State) (c : Chan), s.Inv → s.fault = none → s.NoForeign → s.internal c = true →
    let t0 := s.overflowTime c
    let period := (0x10000 - (s.ch c).reload.toNat) * s.prescaler c
    (∀ T, s.now ≤ T → T < t0 →
      ∃ t, exec (.advance T) s = .next t ∧
        (t.counter c).toNat = (s.ch c).base.toNat + (T - (s.ch c).tStart) / s.prescaler c ∧
        (T + 1 = t0 → t.counter c = 0xFFFF#16)) ∧
    (∀ m : Nat, ∃ t, exec (.advance (t0 + m * period)) s = .next t ∧
      t.counter c = (s.ch c).reload ∧ (t.ch c).tStart = t0 + m * period)

/-- R170, R171: one base cycle of the block, with no foreign event due, is one CycleStep of the per-cycle reference model: the
counters, prescaler phases, registers, time and outputs agree before and after. -/
def Obligations.CycleMatchesReference : Prop :=
  ∀ (s : State) (r : RefState), s.Inv → s.fault = none → (∀ e ∈ s.queue, s.now < e.t) →
    (∀ e ∈ s.queue, e.t ≤ s.now + 1 → ∃ c, e.cb = .ovf c) → Agrees s r →
      ∃ t, exec (.advance (s.now + 1)) s = .next t ∧ Agrees t (cycleStep s.firingOrder r) ∧
        ∀ e ∈ t.queue, t.now < e.t

/-- R170, R171: between cycles, every register operation and RESET acts on the block as it does on the per-cycle reference
model. -/
def Obligations.OperationsMatchReference : Prop :=
  ∀ (s : State) (r : RefState) (i : Instr), s.Inv → s.fault = none → (∀ e ∈ s.queue, s.now < e.t) →
    (∀ c, i ≠ .ovf c) → (∀ T, i ≠ .advance T) → Agrees s r →
      ∃ t, exec i s = .next t ∧ Agrees t (refOp i r)

/-! ### RESET and refusals -/

/-- R201 (D18): RESET zeroes every channel and cancels its event; `now`, `next_seq`, foreign events, fault, outputs and everything
else are unchanged. -/
def Obligations.ResetZeroesTheChannels : Prop :=
  ∀ s : State, s.fault = none →
    opWord .reset = 0xB0#8 ∧
    exec .reset s =
      .next { s with
        chans := Vector.replicate 4 ⟨0x0000#16, 0x0000#16, 0#2, false, false, false, 0, none⟩
        queue := s.queue.filter fun e => decide (∀ c : Chan, (s.ch c).ev ≠ some e.seq) }

/-- R202: after power-on, and after RESET from a state that meets the invariant, every channel is stopped with its interrupt off
and no event of the block is pending. From such a state no operation starts a channel or emits anything but the RATE of a write
(R125), until a control write with the run bit set is issued, by the host or by a foreign callback; and ADVANCE emits nothing at
all while no foreign callback is left to run. -/
def Obligations.QuietUntilAChannelIsStarted : Prop :=
  (State.reset.Quiet ∧ ∀ c : Chan, (State.reset.ch c).irq = false) ∧
  (∀ s : State, s.Inv → s.fault = none →
    ∃ t, exec .reset s = .next t ∧ t.Quiet ∧ (∀ c : Chan, (t.ch c).irq = false) ∧
      (t.schedule = [] → ∀ T, t.now ≤ T → ∃ u, exec (.advance T) t = .next u ∧ u.out = t.out)) ∧
  (∀ (s t : State) (i : Instr), s.Quiet → s.CallbacksStartNone → setsRun i = false → exec i s = .next t →
    t.Quiet ∧ t.CallbacksStartNone ∧ ∃ l : List OutEvent, t.out = s.out ++ l ∧ ∀ o ∈ l, o.kind = .rate)

/-- R182, inside a foreign callback: an operation that is refused changes nothing and leaves the run's refusal mark, and the
callback goes on with its next action. Refused are bytes the decoder refuses; OVF, which is not the scheduler's callback while
another owner's event is firing (R77); and ADVANCE, which only the host may issue (R8). The mark as a list in the state, the
kind of the refused ADVANCE (log entry 5) and `firing` (log entry 8) are the model's form. -/
def Obligations.CallbackRefusalLeavesItsMark : Prop :=
  ∀ (s : State) (owner : Nat) (bytes : List Byte) (k : RefusalKind), s.fault = none →
    (decode bytes = .refuse k ∨
      (k = .hostOvf ∧ (∃ e, s.firing = some e ∧ e.cb = .foreign owner) ∧ ∃ c rest, decode bytes = .ok (.ovf c) rest) ∨
      (k = .nestedAdvance ∧ ∃ T rest, decode bytes = .ok (.advance T) rest)) →
    callbackAction owner (.op bytes) s = { s with refusals := s.refusals ++ [k] } ∧
      ∀ more : List CallbackAction,
        callbackActions owner (.op bytes :: more) s =
          callbackActions owner more { s with refusals := s.refusals ++ [k] }

/-- R101, R7 c: an operation that a foreign callback issues, other than OVF and ADVANCE, acts exactly as it does from the host. -/
def Obligations.CallbackOperationsAreOperations : Prop :=
  ∀ (s t : State) (owner : Nat) (i : Instr), i.wf = true → (∀ c, i ≠ .ovf c) → (∀ T, i ≠ .advance T) →
    exec i s = .next t → callbackAction owner (.op (encode i)) s = t

/-- R7 c, R101, R103, R105, R181: what a foreign callback does when its event fires. It takes the next entry of HOST_SCHEDULE and
does the actions in it, in order, until one raises a fault; with no entry left it does nothing (log entry 2). An Add registers an
event of its owner or raises SCHED_PAST; a Cancel takes away an event of its owner's, and any other handle does nothing (log
entry 3). The operations it issues are those of `CallbackOperationsAreOperations`. -/
def Obligations.ForeignCallbackDoesItsActions : Prop :=
  ∀ (s : State) (owner : Nat), s.fault = none →
    (s.schedule = [] → foreignCallback owner s = s) ∧
    (∀ actions rest, s.schedule = actions :: rest →
      foreignCallback owner s = callbackActions owner actions { s with schedule := rest }) ∧
    callbackActions owner [] s = s ∧
    (∀ (a : CallbackAction) (more : List CallbackAction),
      ((callbackAction owner a s).fault = none →
        callbackActions owner (a :: more) s = callbackActions owner more (callbackAction owner a s)) ∧
      ((callbackAction owner a s).fault ≠ none → callbackActions owner (a :: more) s = callbackAction owner a s)) ∧
    (∀ t : Nat,
      (s.now ≤ t → callbackAction owner (.request (.add t)) s =
        { s with queue := s.queue ++ [⟨t, s.nextSeq, .foreign owner⟩], nextSeq := s.nextSeq + 1 }) ∧
      (t < s.now → callbackAction owner (.request (.add t)) s = { s with fault := some ⟨.schedPast, t, s.now⟩ })) ∧
    (∀ h : Nat,
      ((∃ e ∈ s.queue, e.seq = h ∧ e.cb = .foreign owner) →
        callbackAction owner (.request (.cancel h)) s = { s with queue := s.queue.filter fun e => decide (e.seq ≠ h) }) ∧
      ((¬∃ e ∈ s.queue, e.seq = h ∧ e.cb = .foreign owner) → callbackAction owner (.request (.cancel h)) s = s))
end

