-- ==== Sys2Proof/Laws/State.lean ====
section
/-! SUPPORT. What each field of the state is after each named update; one lemma per field and update, true by rfl, so that no proof unfolds a record update. -/

namespace Sys2Proof.Machine

/-! ### Reading and writing a channel -/

/-- A state that differs from `s` in other fields only has the same channels. -/
@[simp] theorem State.ch_mk (s : State) (n q k f o r m g i h) (c : Chan) :
    (State.mk s.chans n q k f o r m g i h).ch c = s.ch c := rfl

@[simp] theorem State.ch_setCh_same (s : State) (c : Chan) (x : Channel) : (s.setCh c x).ch c = x := by
  simp [State.ch, State.setCh]

theorem State.ch_setCh_ne (s : State) {c d : Chan} (x : Channel) (h : d ≠ c) : (s.setCh c x).ch d = s.ch d := by
  have : c.val ≠ d.val := fun e => h (Fin.ext e.symm)
  simp [State.ch, State.setCh, this]

theorem State.ch_setCh (s : State) (c d : Chan) (x : Channel) :
    (s.setCh c x).ch d = if d = c then x else s.ch d := by
  split
  · next h => rw [h, State.ch_setCh_same]
  · next h => exact s.ch_setCh_ne x h

@[simp] theorem State.setCh_setCh (s : State) (c : Chan) (x y : Channel) :
    (s.setCh c x).setCh c y = s.setCh c y := by
  simp [State.setCh]

@[simp] theorem State.setCh_ch (s : State) (c : Chan) : s.setCh c (s.ch c) = s := by
  simp [State.setCh, State.ch]

/-- States are equal when their channels and their other fields are. -/
theorem State.ext_ch {s t : State} (hc : ∀ c, s.ch c = t.ch c) (hn : s.now = t.now) (hq : s.queue = t.queue)
    (hk : s.nextSeq = t.nextSeq) (hf : s.fault = t.fault) (ho : s.out = t.out) (hr : s.reads = t.reads)
    (hm : s.refusals = t.refusals) (hg : s.firing = t.firing) (hi : s.input = t.input)
    (hs : s.schedule = t.schedule) : s = t := by
  have hv : s.chans = t.chans := by
    apply Vector.ext
    intro i hi4
    exact hc ⟨i, hi4⟩
  cases s
  cases t
  simp_all

/-! ### setCh -/

@[simp] theorem State.setCh_now (s : State) (c x) : (s.setCh c x).now = s.now := rfl
@[simp] theorem State.setCh_queue (s : State) (c x) : (s.setCh c x).queue = s.queue := rfl
@[simp] theorem State.setCh_nextSeq (s : State) (c x) : (s.setCh c x).nextSeq = s.nextSeq := rfl
@[simp] theorem State.setCh_fault (s : State) (c x) : (s.setCh c x).fault = s.fault := rfl
@[simp] theorem State.setCh_out (s : State) (c x) : (s.setCh c x).out = s.out := rfl
@[simp] theorem State.setCh_reads (s : State) (c x) : (s.setCh c x).reads = s.reads := rfl
@[simp] theorem State.setCh_refusals (s : State) (c x) : (s.setCh c x).refusals = s.refusals := rfl
@[simp] theorem State.setCh_firing (s : State) (c x) : (s.setCh c x).firing = s.firing := rfl
@[simp] theorem State.setCh_input (s : State) (c x) : (s.setCh c x).input = s.input := rfl
@[simp] theorem State.setCh_schedule (s : State) (c x) : (s.setCh c x).schedule = s.schedule := rfl

/-! ### emit -/

@[simp] theorem emit_ch (k c) (s : State) (d : Chan) : (emit k c s).ch d = s.ch d := rfl
@[simp] theorem emit_now (k c) (s : State) : (emit k c s).now = s.now := rfl
@[simp] theorem emit_queue (k c) (s : State) : (emit k c s).queue = s.queue := rfl
@[simp] theorem emit_nextSeq (k c) (s : State) : (emit k c s).nextSeq = s.nextSeq := rfl
@[simp] theorem emit_fault (k c) (s : State) : (emit k c s).fault = s.fault := rfl
@[simp] theorem emit_out (k c) (s : State) : (emit k c s).out = s.out ++ [⟨k, c, s.now⟩] := rfl
@[simp] theorem emit_reads (k c) (s : State) : (emit k c s).reads = s.reads := rfl
@[simp] theorem emit_refusals (k c) (s : State) : (emit k c s).refusals = s.refusals := rfl
@[simp] theorem emit_firing (k c) (s : State) : (emit k c s).firing = s.firing := rfl
@[simp] theorem emit_input (k c) (s : State) : (emit k c s).input = s.input := rfl
@[simp] theorem emit_schedule (k c) (s : State) : (emit k c s).schedule = s.schedule := rfl

/-! ### returnValue -/

@[simp] theorem returnValue_ch (v) (s : State) (d : Chan) : (returnValue v s).ch d = s.ch d := rfl
@[simp] theorem returnValue_now (v) (s : State) : (returnValue v s).now = s.now := rfl
@[simp] theorem returnValue_queue (v) (s : State) : (returnValue v s).queue = s.queue := rfl
@[simp] theorem returnValue_nextSeq (v) (s : State) : (returnValue v s).nextSeq = s.nextSeq := rfl
@[simp] theorem returnValue_fault (v) (s : State) : (returnValue v s).fault = s.fault := rfl
@[simp] theorem returnValue_out (v) (s : State) : (returnValue v s).out = s.out := rfl
@[simp] theorem returnValue_reads (v) (s : State) : (returnValue v s).reads = s.reads ++ [v] := rfl
@[simp] theorem returnValue_refusals (v) (s : State) : (returnValue v s).refusals = s.refusals := rfl
@[simp] theorem returnValue_firing (v) (s : State) : (returnValue v s).firing = s.firing := rfl
@[simp] theorem returnValue_input (v) (s : State) : (returnValue v s).input = s.input := rfl
@[simp] theorem returnValue_schedule (v) (s : State) : (returnValue v s).schedule = s.schedule := rfl

/-! ### raiseFault -/

@[simp] theorem raiseFault_ch (k t) (s : State) (d : Chan) : (raiseFault k t s).ch d = s.ch d := rfl
@[simp] theorem raiseFault_now (k t) (s : State) : (raiseFault k t s).now = s.now := rfl
@[simp] theorem raiseFault_queue (k t) (s : State) : (raiseFault k t s).queue = s.queue := rfl
@[simp] theorem raiseFault_nextSeq (k t) (s : State) : (raiseFault k t s).nextSeq = s.nextSeq := rfl
@[simp] theorem raiseFault_fault (k t) (s : State) : (raiseFault k t s).fault = some ⟨k, t, s.now⟩ := rfl
@[simp] theorem raiseFault_out (k t) (s : State) : (raiseFault k t s).out = s.out := rfl
@[simp] theorem raiseFault_reads (k t) (s : State) : (raiseFault k t s).reads = s.reads := rfl
@[simp] theorem raiseFault_refusals (k t) (s : State) : (raiseFault k t s).refusals = s.refusals := rfl
@[simp] theorem raiseFault_firing (k t) (s : State) : (raiseFault k t s).firing = s.firing := rfl
@[simp] theorem raiseFault_input (k t) (s : State) : (raiseFault k t s).input = s.input := rfl
@[simp] theorem raiseFault_schedule (k t) (s : State) : (raiseFault k t s).schedule = s.schedule := rfl

/-! ### schedCancel -/

@[simp] theorem schedCancel_ch (h) (s : State) (d : Chan) : (schedCancel h s).ch d = s.ch d := rfl
@[simp] theorem schedCancel_now (h) (s : State) : (schedCancel h s).now = s.now := rfl
@[simp] theorem schedCancel_queue (h) (s : State) :
    (schedCancel h s).queue = s.queue.filter fun e => e.seq != h := rfl
@[simp] theorem schedCancel_nextSeq (h) (s : State) : (schedCancel h s).nextSeq = s.nextSeq := rfl
@[simp] theorem schedCancel_fault (h) (s : State) : (schedCancel h s).fault = s.fault := rfl
@[simp] theorem schedCancel_out (h) (s : State) : (schedCancel h s).out = s.out := rfl
@[simp] theorem schedCancel_reads (h) (s : State) : (schedCancel h s).reads = s.reads := rfl
@[simp] theorem schedCancel_refusals (h) (s : State) : (schedCancel h s).refusals = s.refusals := rfl
@[simp] theorem schedCancel_firing (h) (s : State) : (schedCancel h s).firing = s.firing := rfl
@[simp] theorem schedCancel_input (h) (s : State) : (schedCancel h s).input = s.input := rfl
@[simp] theorem schedCancel_schedule (h) (s : State) : (schedCancel h s).schedule = s.schedule := rfl

/-! ### State.reset -/

@[simp] theorem State.reset_ch (c : Chan) : State.reset.ch c = Channel.zero := by
  simp [State.reset, State.ch]
@[simp] theorem State.reset_now : State.reset.now = 0 := rfl
@[simp] theorem State.reset_queue : State.reset.queue = [] := rfl
@[simp] theorem State.reset_nextSeq : State.reset.nextSeq = 0 := rfl
@[simp] theorem State.reset_fault : State.reset.fault = none := rfl
@[simp] theorem State.reset_out : State.reset.out = [] := rfl
@[simp] theorem State.reset_reads : State.reset.reads = [] := rfl
@[simp] theorem State.reset_refusals : State.reset.refusals = [] := rfl
@[simp] theorem State.reset_firing : State.reset.firing = none := rfl
@[simp] theorem State.reset_input : State.reset.input = [] := rfl
@[simp] theorem State.reset_schedule : State.reset.schedule = [] := rfl

end Sys2Proof.Machine
end

