-- ==== Sys2Proof/Laws/Ops.lean ====
section
/-! SUPPORT. What each shared operation of the machine can do, said once: sequencing after a fault (R181), the scheduler's Add and Cancel (R103, R104), the control fields and the counter (R24, R25, R29, R30). -/

namespace Sys2Proof.Machine

/-! ### Sequencing -/

theorem State.andThen_of_none {s : State} (h : s.fault = none) (f : State → State) : s.andThen f = f s := by
  simp [State.andThen, h]

theorem State.andThen_of_some {s : State} (h : s.fault ≠ none) (f : State → State) : s.andThen f = s := by
  simp [State.andThen, Option.isSome_iff_ne_none.2 h]

theorem unlessFaulted_of_none {s : State} (h : s.fault = none) (f : State → State) :
    unlessFaulted s f = .next (f s) := by
  simp [unlessFaulted, State.andThen_of_none h]

theorem unlessFaulted_of_some {s : State} (h : s.fault ≠ none) (f : State → State) :
    unlessFaulted s f = .next s := by
  simp [unlessFaulted, State.andThen_of_some h]

/-- A meaning under `unlessFaulted` always answers a next state. -/
theorem unlessFaulted_eq_next {s t : State} {f : State → State} :
    unlessFaulted s f = .next t ↔ (s.fault = none ∧ t = f s) ∨ (s.fault ≠ none ∧ t = s) := by
  by_cases h : s.fault = none
  · simp [unlessFaulted_of_none h, h, eq_comm]
  · simp [unlessFaulted_of_some h, h, eq_comm]

/-! ### Parameters -/

theorem prescale_pos (sel : BitVec 2) : 0 < prescale sel := by
  unfold prescale
  split <;> [skip; split <;> [skip; split]] <;> decide

theorem prescale_eq_table (sel : BitVec 2) : prescale sel = [1, 64, 256, 1024].getD sel.toNat 0 := by
  revert sel
  decide

theorem State.cyclesToOverflow_pos (s : State) (c : Chan) (v : Half) : 0 < s.cyclesToOverflow c v := by
  have hv : v.toNat < 65536 := v.isLt
  exact Nat.mul_pos (by unfold counterRange; omega) (prescale_pos _)

/-! ### The scheduler -/

theorem schedAdd_of_le {s : State} {t : Nat} (h : s.now ≤ t) (cb : Callback) :
    schedAdd t cb s = { s with queue := s.queue ++ [⟨t, s.nextSeq, cb⟩], nextSeq := s.nextSeq + 1 } := by
  simp [schedAdd, Nat.not_lt.2 h]

theorem schedAdd_of_lt {s : State} {t : Nat} (h : t < s.now) (cb : Callback) :
    schedAdd t cb s = raiseFault .schedPast t s := by
  simp [schedAdd, h]

/-- Registering a channel's overflow at a time not in the past (R112: this block's every Add): the event is queued under the
next number, and the channel holds that number. -/
theorem armOverflow_of_le {s : State} {t : Nat} (hf : s.fault = none) (h : s.now ≤ t) (c : Chan) :
    armOverflow c t s =
      { s.setCh c { s.ch c with ev := some s.nextSeq } with
        queue := s.queue ++ [⟨t, s.nextSeq, .ovf c⟩], nextSeq := s.nextSeq + 1 } := by
  simp [armOverflow, schedAdd_of_le h, State.andThen, hf, State.setCh, State.ch]

/-- What is left of a channel's event after it is cancelled (R104, R121). -/
theorem cancelOverflow_eq (c : Chan) (s : State) :
    cancelOverflow c s =
      { s.setCh c { s.ch c with ev := none } with
        queue := s.queue.filter fun e => decide ((s.ch c).ev ≠ some e.seq) } := by
  unfold cancelOverflow
  cases h : (s.ch c).ev with
  | none =>
    have hx : ({ s.ch c with ev := none } : Channel) = s.ch c := by rw [← h]
    simp [hx]
  | some k =>
    have hp : (fun e : Event => e.seq != k) = fun e => decide (some k ≠ some e.seq) := by
      funext e
      by_cases hk : e.seq = k
      · simp [hk]
      · simp [hk, Ne.symm hk]
    simp only [schedCancel, State.setCh, hp]

/-! ### Control fields -/

@[simp] theorem State.cascadeBit_zero (s : State) : s.cascadeBit 0 = false := rfl

theorem State.cascadeBit_of_ne {c : Chan} (h : c ≠ 0) (s : State) : s.cascadeBit c = (s.ch c).cascade := by
  simp [State.cascadeBit, h]

theorem State.cascadeBit_congr {s t : State} {c : Chan} (h : (s.ch c).cascade = (t.ch c).cascade) :
    s.cascadeBit c = t.cascadeBit c := by
  simp [State.cascadeBit, h]

theorem State.internal_eq_true {s : State} {c : Chan} :
    s.internal c = true ↔ (s.ch c).run = true ∧ (c = 0 ∨ (s.ch c).cascade = false) := by
  by_cases hc : c = 0 <;> simp [State.internal, State.cascadeBit, hc]

/-- The counter depends on its own channel and on the time only. -/
theorem State.counter_congr {s t : State} {c : Chan} (h : s.ch c = t.ch c) (hn : s.now = t.now) :
    s.counter c = t.counter c := by
  simp [State.counter, State.internal, State.cascadeBit, State.elapsedTicks, State.prescaler, h, hn]

/-- A channel that is not internally clocked shows its base (R30). -/
theorem State.counter_of_not_internal {s : State} {c : Chan} (h : s.internal c = false) :
    s.counter c = (s.ch c).base := by
  simp [State.counter, h]

/-- The reconstructed count (R30). -/
theorem State.counter_of_internal {s : State} {c : Chan} (h : s.internal c = true) :
    (s.counter c).toNat = min 0xFFFF ((s.ch c).base.toNat + s.elapsedTicks c) := by
  simp [State.counter, h]

end Sys2Proof.Machine
end

