-- ==== Sys2Proof/Laws/Procedures.lean ====
section
/-! SUPPORT. What the channel procedures (R120 to R125) and the overflow procedures (R160 to R164) do, each said once as one equation or one frame. -/

namespace Sys2Proof.Machine

/-! ### Start, Stop, Rebase -/

/-- Start in cascade mode (R120): the base and the time, and no event. -/
theorem startChannel_of_cascade {s : State} {c : Chan} (h : s.cascadeBit c = true) :
    startChannel c s = s.setCh c { s.ch c with base := (s.ch c).reload, tStart := s.now } := by
  have h1 : (s.setCh c { s.ch c with base := (s.ch c).reload, tStart := s.now }).cascadeBit c = true := by
    rw [← h]
    exact State.cascadeBit_congr (by simp)
  simp [startChannel, h1]

/-- Start on the channel's own clock (R120): the overflow is registered one full period after `now`. -/
theorem startChannel_of_internal {s : State} {c : Chan} (hf : s.fault = none) (h : s.cascadeBit c = false) :
    startChannel c s =
      { s.setCh c { s.ch c with base := (s.ch c).reload, tStart := s.now, ev := some s.nextSeq } with
        queue := s.queue ++ [⟨s.now + s.cyclesToOverflow c (s.ch c).reload, s.nextSeq, .ovf c⟩]
        nextSeq := s.nextSeq + 1 } := by
  have h1 : (s.setCh c { s.ch c with base := (s.ch c).reload, tStart := s.now }).cascadeBit c = false := by
    rw [← h]
    exact State.cascadeBit_congr (by simp)
  simp only [startChannel, h1, Bool.false_eq_true, if_false]
  rw [armOverflow_of_le (by simpa using hf) (by simp)]
  simp [State.cyclesToOverflow, State.prescaler]

/-- Stop (R121). -/
theorem stopChannel_eq (c : Chan) (cur : Half) (s : State) :
    stopChannel c cur s =
      { s.setCh c { s.ch c with base := cur, ev := none } with
        queue := s.queue.filter fun e => decide ((s.ch c).ev ≠ some e.seq) } := by
  simp [stopChannel, cancelOverflow_eq, State.setCh, State.ch]

/-- Rebase into cascade mode (R122): no event is registered. -/
theorem rebaseChannel_of_cascade {s : State} {c : Chan} (cur : Half) (h : s.cascadeBit c = true) :
    rebaseChannel c cur s =
      { s.setCh c { s.ch c with base := cur, tStart := s.now, ev := none } with
        queue := s.queue.filter fun e => decide ((s.ch c).ev ≠ some e.seq) } := by
  have h1 : ((cancelOverflow c s).setCh c
      { (cancelOverflow c s).ch c with base := cur, tStart := (cancelOverflow c s).now }).cascadeBit c = true := by
    rw [← h]
    exact State.cascadeBit_congr (by simp [cancelOverflow_eq, State.setCh, State.ch])
  simp only [rebaseChannel, h1, if_true]
  simp [cancelOverflow_eq, State.setCh, State.ch]

/-- Rebase on the channel's own clock (R122): the overflow is registered anew under the new prescaler. -/
theorem rebaseChannel_of_internal {s : State} {c : Chan} (cur : Half) (hf : s.fault = none)
    (h : s.cascadeBit c = false) :
    rebaseChannel c cur s =
      { s.setCh c { s.ch c with base := cur, tStart := s.now, ev := some s.nextSeq } with
        queue := (s.queue.filter fun e => decide ((s.ch c).ev ≠ some e.seq)) ++
          [⟨s.now + s.cyclesToOverflow c cur, s.nextSeq, .ovf c⟩]
        nextSeq := s.nextSeq + 1 } := by
  have h1 : ((cancelOverflow c s).setCh c
      { (cancelOverflow c s).ch c with base := cur, tStart := (cancelOverflow c s).now }).cascadeBit c = false := by
    rw [← h]
    exact State.cascadeBit_congr (by simp [cancelOverflow_eq, State.setCh, State.ch])
  simp only [rebaseChannel, h1, Bool.false_eq_true, if_false]
  rw [armOverflow_of_le (by simpa [cancelOverflow_eq] using hf) (by simp)]
  simp [cancelOverflow_eq, State.setCh, State.ch, State.cyclesToOverflow, State.prescaler]

/-! ### Overflow and cascade -/

/-- The outputs of an overflow (R164 to R166). -/
theorem overflowOutputs_eq (c : Chan) (s : State) :
    overflowOutputs c s =
      { s with
        out := s.out ++ (if (s.ch c).irq then [⟨.irq, c, s.now⟩] else []) ++
          (if audioCadence c then [⟨.cadence, c, s.now⟩] else []) } := by
  unfold overflowOutputs
  cases (s.ch c).irq <;> cases audioCadence c <;> simp [emit]

/-- What an overflow's chain leaves as it was: everything but channel counters, start times and the output. -/
structure SameButCounts (s t : State) : Prop where
  now : t.now = s.now
  queue : t.queue = s.queue
  nextSeq : t.nextSeq = s.nextSeq
  fault : t.fault = s.fault
  reads : t.reads = s.reads
  refusals : t.refusals = s.refusals
  firing : t.firing = s.firing
  input : t.input = s.input
  schedule : t.schedule = s.schedule
  reload : ∀ d, (t.ch d).reload = (s.ch d).reload
  sel : ∀ d, (t.ch d).sel = (s.ch d).sel
  cascade : ∀ d, (t.ch d).cascade = (s.ch d).cascade
  irq : ∀ d, (t.ch d).irq = (s.ch d).irq
  run : ∀ d, (t.ch d).run = (s.ch d).run
  ev : ∀ d, (t.ch d).ev = (s.ch d).ev

theorem SameButCounts.refl (s : State) : SameButCounts s s := by
  constructor <;> simp

theorem SameButCounts.trans {s t u : State} (h : SameButCounts s t) (k : SameButCounts t u) : SameButCounts s u := by
  constructor
  · rw [k.now, h.now]
  · rw [k.queue, h.queue]
  · rw [k.nextSeq, h.nextSeq]
  · rw [k.fault, h.fault]
  · rw [k.reads, h.reads]
  · rw [k.refusals, h.refusals]
  · rw [k.firing, h.firing]
  · rw [k.input, h.input]
  · rw [k.schedule, h.schedule]
  · intro d; rw [k.reload, h.reload]
  · intro d; rw [k.sel, h.sel]
  · intro d; rw [k.cascade, h.cascade]
  · intro d; rw [k.irq, h.irq]
  · intro d; rw [k.run, h.run]
  · intro d; rw [k.ev, h.ev]

theorem overflowOutputs_same (c : Chan) (s : State) : SameButCounts s (overflowOutputs c s) := by
  rw [overflowOutputs_eq]
  constructor <;> simp

/-- Setting a channel's counter and start time. -/
theorem setCount_same (n : Chan) (v : Half) (t : Nat) (s : State) :
    SameButCounts s (s.setCh n { s.ch n with base := v, tStart := t }) := by
  constructor <;> first | rfl | (intro d; by_cases h : d = n <;> simp [State.ch_setCh, h])

theorem tickChain_same (cs : List Chan) (s : State) : SameButCounts s (tickChain cs s) := by
  induction cs generalizing s with
  | nil => exact .refl s
  | cons n rest ih =>
    unfold tickChain
    split
    · split
      · exact ((setCount_same n _ _ s).trans (overflowOutputs_same n _)).trans (ih _)
      · exact setCount_same n _ _ s
    · exact .refl s

theorem overflowCommon_same (c : Chan) (s : State) : SameButCounts s (overflowCommon c s) :=
  (overflowOutputs_same c s).trans (tickChain_same _ _)

theorem cascadeTick_same (n : Chan) (s : State) : SameButCounts s (cascadeTick n s) := tickChain_same _ _

/-- A channel outside the chain is not touched. -/
theorem tickChain_ch_of_not_mem (cs : List Chan) (s : State) {d : Chan} (h : d ∉ cs) :
    (tickChain cs s).ch d = s.ch d := by
  induction cs generalizing s with
  | nil => rfl
  | cons n rest ih =>
    have hn : d ≠ n := fun e => h (e ▸ List.mem_cons_self)
    have hr : d ∉ rest := fun m => h (List.mem_cons_of_mem _ m)
    unfold tickChain
    split
    · split
      · rw [ih _ hr, overflowOutputs_eq, State.ch_mk, State.ch_setCh_ne _ _ hn]
      · exact State.ch_setCh_ne _ _ hn
    · rfl

/-- OVF(c) at a time whose next overflow is not in the past (R160): reload, re-registration, common actions. -/
theorem deliverOverflow_of_le {s : State} {c : Chan} {tReq : Nat} (hf : s.fault = none)
    (h : s.now ≤ tReq + s.cyclesToOverflow c (s.ch c).reload) :
    deliverOverflow c tReq s =
      overflowCommon c
        { s.setCh c { s.ch c with base := (s.ch c).reload, tStart := tReq, ev := some s.nextSeq } with
          queue := s.queue ++ [⟨tReq + s.cyclesToOverflow c (s.ch c).reload, s.nextSeq, .ovf c⟩]
          nextSeq := s.nextSeq + 1 } := by
  simp only [deliverOverflow]
  rw [armOverflow_of_le (by simpa using hf) (by simpa [State.cyclesToOverflow, State.prescaler] using h)]
  rw [State.andThen_of_none (by simpa using hf)]
  simp [State.cyclesToOverflow, State.prescaler]

end Sys2Proof.Machine
end

