-- ==== Sys2Proof/Laws/Advance.lean ====
section
/-! SUPPORT. The scheduler's choice of the next event (R105, R106), and why ADVANCE always terminates: firing an event lowers the bound that limits its loop. -/

namespace Sys2Proof.Machine

/-! ### The earliest event -/

theorem earliest_eq_none {q : List Event} : earliest q = none ↔ q = [] := by
  cases q with
  | nil => simp [earliest]
  | cons e es =>
    simp only [earliest, reduceCtorEq, iff_false]
    split
    · simp
    · split <;> simp

theorem earliest_mem {q : List Event} {e : Event} (h : earliest q = some e) : e ∈ q := by
  induction q generalizing e with
  | nil => simp [earliest] at h
  | cons x xs ih =>
    simp only [earliest] at h
    split at h
    · simp_all
    · next m hm =>
      split at h
      · cases h
        exact List.mem_cons_of_mem _ (ih hm)
      · simp_all

theorem Event.before_iff {a b : Event} : a.before b = true ↔ a.t < b.t ∨ (a.t = b.t ∧ a.seq < b.seq) := by
  simp [Event.before]

/-- No event of the list fires before the earliest one. -/
theorem earliest_least {q : List Event} {e x : Event} (h : earliest q = some e) (hx : x ∈ q) :
    x.before e = false := by
  induction q generalizing e with
  | nil => simp at hx
  | cons y ys ih =>
    simp only [earliest] at h
    split at h
    · next hn =>
      rw [earliest_eq_none] at hn
      subst hn
      simp at hx h
      subst hx h
      simp [Event.before]
    · next m hm =>
      rcases List.mem_cons.1 hx with rfl | hx
      · split at h
        · next hb =>
          cases h
          rw [Event.before_iff] at hb
          apply Bool.eq_false_iff.2
          rw [Ne, Event.before_iff]
          omega
        · cases h
          simp [Event.before]
      · have hmx := ih hm hx
        split at h
        · cases h
          exact hmx
        · next hb =>
          cases h
          rw [Event.before_iff] at hb
          rw [Bool.eq_false_iff, Ne, Event.before_iff] at hmx
          apply Bool.eq_false_iff.2
          rw [Ne, Event.before_iff]
          omega

theorem State.nextDue_eq_none {s : State} {T : Nat} : s.nextDue T = none ↔ ∀ e ∈ s.queue, T < e.t := by
  simp [State.nextDue, earliest_eq_none, List.filter_eq_nil_iff]

theorem State.nextDue_mem {s : State} {T : Nat} {e : Event} (h : s.nextDue T = some e) :
    e ∈ s.queue ∧ e.t ≤ T := by
  simpa using earliest_mem h

theorem State.nextDue_least {s : State} {T : Nat} {e x : Event} (h : s.nextDue T = some e) (hx : x ∈ s.queue)
    (ht : x.t ≤ T) : x.before e = false :=
  earliest_least h (by simp [hx, ht])

/-! ### The bound -/

/-- The part of the bound that the pending events make. -/
def queueWeight (T : Nat) (q : List Event) : Nat := (q.map (Event.weight T)).sum

/-- The part of the bound that the foreign callbacks still to run make. -/
def scheduleWeight (T : Nat) (as : List (List CallbackAction)) : Nat := (T + 1) * (as.map List.length).sum

theorem State.advanceBound_eq (s : State) (T : Nat) :
    s.advanceBound T = queueWeight T s.queue + scheduleWeight T s.schedule := rfl

theorem Event.weight_le (T : Nat) (e : Event) : e.weight T ≤ T + 1 := by
  unfold Event.weight
  split <;> omega

@[simp] theorem queueWeight_nil (T : Nat) : queueWeight T [] = 0 := rfl

@[simp] theorem queueWeight_cons (T : Nat) (e : Event) (q : List Event) :
    queueWeight T (e :: q) = e.weight T + queueWeight T q := by
  simp [queueWeight]

@[simp] theorem queueWeight_append (T : Nat) (p q : List Event) :
    queueWeight T (p ++ q) = queueWeight T p + queueWeight T q := by
  simp [queueWeight]

theorem queueWeight_filter_le (T : Nat) (p : Event → Bool) (q : List Event) :
    queueWeight T (q.filter p) ≤ queueWeight T q := by
  induction q with
  | nil => simp
  | cons e q ih =>
    rw [List.filter_cons]
    split
    · simp [ih]
    · simp only [queueWeight_cons]
      omega

theorem queueWeight_remove {T : Nat} {e : Event} {q : List Event} (h : e ∈ q) :
    queueWeight T (q.filter fun x => x != e) + e.weight T ≤ queueWeight T q := by
  induction q with
  | nil => simp at h
  | cons x q ih =>
    by_cases hx : x = e
    · subst hx
      have := queueWeight_filter_le T (fun y => y != x) q
      simp only [bne_self_eq_false, Bool.false_eq_true, not_false_eq_true, List.filter_cons_of_neg, queueWeight_cons]
      omega
    · have hm : e ∈ q := by
        rcases List.mem_cons.1 h with h | h
        · exact absurd h.symm hx
        · exact h
      have := ih hm
      rw [List.filter_cons_of_pos (by simpa using hx)]
      simp only [queueWeight_cons]
      omega

/-- An operation that registers at most one event, and leaves the schedule alone. -/
structure AddsAtMostOne (T : Nat) (s t : State) : Prop where
  queue : queueWeight T t.queue ≤ queueWeight T s.queue + (T + 1)
  schedule : t.schedule = s.schedule

/-- An operation that registers no event, and leaves the schedule alone. -/
structure AddsNone (T : Nat) (s t : State) : Prop where
  queue : queueWeight T t.queue ≤ queueWeight T s.queue
  schedule : t.schedule = s.schedule

theorem AddsNone.refl (T : Nat) (s : State) : AddsNone T s s := ⟨Nat.le_refl _, rfl⟩

theorem AddsNone.trans {T : Nat} {s t u : State} (h : AddsNone T s t) (k : AddsNone T t u) : AddsNone T s u :=
  ⟨Nat.le_trans k.queue h.queue, k.schedule.trans h.schedule⟩

theorem AddsNone.toOne {T : Nat} {s t : State} (h : AddsNone T s t) : AddsAtMostOne T s t :=
  ⟨Nat.le_trans h.queue (Nat.le_add_right _ _), h.schedule⟩

theorem AddsNone.transOne {T : Nat} {s t u : State} (h : AddsNone T s t) (k : AddsAtMostOne T t u) :
    AddsAtMostOne T s u :=
  ⟨Nat.le_trans k.queue (Nat.add_le_add_right h.queue _), k.schedule.trans h.schedule⟩

theorem AddsAtMostOne.transNone {T : Nat} {s t u : State} (h : AddsAtMostOne T s t) (k : AddsNone T t u) :
    AddsAtMostOne T s u :=
  ⟨Nat.le_trans k.queue h.queue, k.schedule.trans h.schedule⟩

theorem AddsAtMostOne.refl (T : Nat) (s : State) : AddsAtMostOne T s s := (AddsNone.refl T s).toOne

theorem setCh_addsNone (T : Nat) (s : State) (c : Chan) (x : Channel) : AddsNone T s (s.setCh c x) :=
  ⟨Nat.le_refl _, rfl⟩

theorem emit_addsNone (T : Nat) (k : OutKind) (c : Chan) (s : State) : AddsNone T s (emit k c s) :=
  ⟨Nat.le_refl _, rfl⟩

theorem schedAdd_addsOne (T t : Nat) (cb : Callback) (s : State) : AddsAtMostOne T s (schedAdd t cb s) := by
  unfold schedAdd
  split
  · exact ⟨Nat.le_add_right _ _, rfl⟩
  · refine ⟨?_, rfl⟩
    have := Event.weight_le T ⟨t, s.nextSeq, cb⟩
    simp only [queueWeight_append, queueWeight_cons, queueWeight_nil]
    omega

theorem schedCancel_addsNone (T : Nat) (h : Nat) (s : State) : AddsNone T s (schedCancel h s) :=
  ⟨queueWeight_filter_le _ _ _, rfl⟩

theorem cancelOverflow_addsNone (T : Nat) (c : Chan) (s : State) : AddsNone T s (cancelOverflow c s) := by
  unfold cancelOverflow
  split
  · exact .refl T s
  · exact (schedCancel_addsNone T _ s).trans (setCh_addsNone T _ _ _)

theorem andThen_addsOne {T : Nat} {s t : State} {f : State → State} (h : AddsAtMostOne T s t)
    (hf : ∀ u, AddsNone T u (f u)) : AddsAtMostOne T s (t.andThen f) := by
  unfold State.andThen
  split
  · exact h
  · exact h.transNone (hf t)

theorem armOverflow_addsOne (T : Nat) (c : Chan) (t : Nat) (s : State) : AddsAtMostOne T s (armOverflow c t s) :=
  andThen_addsOne (schedAdd_addsOne T t _ s) fun u => setCh_addsNone T u c _

theorem startChannel_addsOne (T : Nat) (c : Chan) (s : State) : AddsAtMostOne T s (startChannel c s) := by
  unfold startChannel
  dsimp only
  split
  · exact (setCh_addsNone T s c _).toOne
  · exact (setCh_addsNone T s c _).transOne (armOverflow_addsOne T c _ _)

theorem stopChannel_addsNone (T : Nat) (c : Chan) (cur : Half) (s : State) : AddsNone T s (stopChannel c cur s) :=
  (cancelOverflow_addsNone T c s).trans (setCh_addsNone T _ _ _)

theorem rebaseChannel_addsOne (T : Nat) (c : Chan) (cur : Half) (s : State) :
    AddsAtMostOne T s (rebaseChannel c cur s) := by
  unfold rebaseChannel
  dsimp only
  split
  · exact ((cancelOverflow_addsNone T c s).trans (setCh_addsNone T _ _ _)).toOne
  · exact ((cancelOverflow_addsNone T c s).trans (setCh_addsNone T _ _ _)).transOne (armOverflow_addsOne T c _ _)

theorem writeControl_addsOne (T : Nat) (c : Chan) (v : Half) (s : State) : AddsAtMostOne T s (writeControl c v s) := by
  unfold writeControl
  dsimp only
  refine andThen_addsOne ?_ fun u => emit_addsNone T .rate c u
  split
  · exact (setCh_addsNone T s c _).toOne
  · exact (setCh_addsNone T s c _).transOne (startChannel_addsOne T c _)
  · exact ((setCh_addsNone T s c _).trans (stopChannel_addsNone T c _ _)).toOne
  · refine (setCh_addsNone T s c (withControl c v (s.ch c))).transOne ?_
    unfold runningWrite
    split
    · exact rebaseChannel_addsOne T c _ _
    · exact .refl T _

theorem writeReload_addsNone (T : Nat) (c : Chan) (v : Half) (s : State) : AddsNone T s (writeReload c v s) :=
  (setCh_addsNone T s c _).trans (emit_addsNone T _ _ _)

theorem resetChannels_addsNone (T : Nat) (s : State) : AddsNone T s (resetChannels s) := by
  have h : ∀ c u, AddsNone T u (resetChannel c u) := fun c u =>
    (cancelOverflow_addsNone T c u).trans (setCh_addsNone T _ _ _)
  exact (((h 0 s).trans (h 1 _)).trans (h 2 _)).trans (h 3 _)

/-- What settling a meaning under `unlessFaulted` can add. -/
theorem settle_unlessFaulted_addsOne {T : Nat} {s : State} {f : State → State} (hf : AddsAtMostOne T s (f s)) :
    AddsAtMostOne T s (settle s (unlessFaulted s f)) := by
  simp only [settle, unlessFaulted, State.andThen]
  split
  · exact .refl T s
  · exact hf

theorem callbackOp_addsOne (T : Nat) (owner : Nat) (i : Instr) (s : State) (hg : ∀ e, s.firing = some e → e.cb = .foreign owner) :
    AddsAtMostOne T s (settle s (callbackOp i s)) := by
  have hread : ∀ v : State → ReadValue, AddsAtMostOne T s (settle s (unlessFaulted s fun u => returnValue (v u) u)) :=
    fun v => settle_unlessFaulted_addsOne (AddsNone.toOne ⟨Nat.le_refl _, rfl⟩)
  cases i with
  | rd8CntLo c => exact hread fun u => .byte (lowByte (u.counter c))
  | rd8CntHi c => exact hread fun u => .byte (highByte (u.counter c))
  | rd8CtlLo c => exact hread fun u => .byte (lowByte (u.ctlValue c))
  | rd8CtlHi c => exact hread fun _ => .byte 0#8
  | rd16Cnt c => exact hread fun u => .half (u.counter c)
  | rd16Ctl c => exact hread fun u => .half (u.ctlValue c)
  | rd32 c => exact hread fun u => .word (joinHalves (u.ctlValue c) (u.counter c))
  | rdReload c => exact hread fun u => .half (u.ch c).reload
  | wr8ReloadLo c b => exact settle_unlessFaulted_addsOne (writeReload_addsNone T c _ s).toOne
  | wr8ReloadHi c b => exact settle_unlessFaulted_addsOne (writeReload_addsNone T c _ s).toOne
  | wr16Reload c v => exact settle_unlessFaulted_addsOne (writeReload_addsNone T c v s).toOne
  | wr8CtlLo c b => exact settle_unlessFaulted_addsOne (writeControl_addsOne T c _ s)
  | wr8CtlHi c b => exact settle_unlessFaulted_addsOne (AddsAtMostOne.refl T s)
  | wr16Ctl c v => exact settle_unlessFaulted_addsOne (writeControl_addsOne T c v s)
  | wr32 c w =>
    exact settle_unlessFaulted_addsOne ((writeReload_addsNone T c _ s).transOne (writeControl_addsOne T c _ _))
  | reset => exact settle_unlessFaulted_addsOne (resetChannels_addsNone T s).toOne
  | advance t => exact ⟨Nat.le_add_right _ _, rfl⟩
  | ovf c =>
    have hd : s.deliveredOverflow c = none := by
      unfold State.deliveredOverflow
      split
      · next e he => simp [hg e he]
      · rfl
    simp only [callbackOp, execOvf, hd]
    split
    · exact .refl T s
    · exact ⟨Nat.le_add_right _ _, rfl⟩

/-- A meaning a callback may use leaves the running callback as it is. -/
theorem callbackOp_firing (owner : Nat) (i : Instr) (s : State) (hg : ∀ e, s.firing = some e → e.cb = .foreign owner) :
    (settle s (callbackOp i s)).firing = s.firing := by
  have hu : ∀ f : State → State, (∀ u, (f u).firing = u.firing) → (settle s (unlessFaulted s f)).firing = s.firing := by
    intro f hf
    simp only [settle, unlessFaulted, State.andThen]
    split
    · rfl
    · exact hf s
  have harm : ∀ c t u, (armOverflow c t u).firing = u.firing := by
    intro c t u
    simp only [armOverflow, State.andThen, schedAdd]
    repeat' split
    all_goals rfl
  have hcan : ∀ c u, (cancelOverflow c u).firing = u.firing := by
    intro c u
    simp [cancelOverflow_eq]
  have hwc : ∀ c v u, (writeControl c v u).firing = u.firing := by
    intro c v u
    simp only [writeControl, State.andThen, startChannel, stopChannel, runningWrite, rebaseChannel]
    repeat' split
    all_goals simp [harm, hcan]
  cases i with
  | advance t => rfl
  | ovf c =>
    have hd : s.deliveredOverflow c = none := by
      unfold State.deliveredOverflow
      split
      · next e he => simp [hg e he]
      · rfl
    simp only [callbackOp, execOvf, hd]
    split <;> rfl
  | wr8CtlLo c b => exact hu _ fun u => hwc c _ u
  | wr16Ctl c v => exact hu _ fun u => hwc c v u
  | wr32 c w => exact hu _ fun u => by rw [hwc]; rfl
  | reset => exact hu _ fun u => by simp [resetChannels, resetChannel, hcan]
  | rd8CntLo c => exact hu _ fun u => rfl
  | rd8CntHi c => exact hu _ fun u => rfl
  | rd8CtlLo c => exact hu _ fun u => rfl
  | rd8CtlHi c => exact hu _ fun u => rfl
  | rd16Cnt c => exact hu _ fun u => rfl
  | rd16Ctl c => exact hu _ fun u => rfl
  | rd32 c => exact hu _ fun u => rfl
  | rdReload c => exact hu _ fun u => rfl
  | wr8ReloadLo c b => exact hu _ fun u => rfl
  | wr8ReloadHi c b => exact hu _ fun u => rfl
  | wr16Reload c v => exact hu _ fun u => rfl
  | wr8CtlHi c b => exact hu _ fun u => rfl

theorem foreignRequest_addsOne (T : Nat) (owner : Nat) (r : ForeignRequest) (s : State) :
    AddsAtMostOne T s (foreignRequest owner r s) := by
  cases r with
  | add t => exact schedAdd_addsOne T t _ s
  | cancel h =>
    unfold foreignRequest
    dsimp only
    split
    · exact (schedCancel_addsNone T h s).toOne
    · exact .refl T s

theorem callbackAction_addsOne (T : Nat) (owner : Nat) (a : CallbackAction) (s : State)
    (hg : ∀ e, s.firing = some e → e.cb = .foreign owner) :
    AddsAtMostOne T s (callbackAction owner a s) := by
  cases a with
  | op bytes =>
    unfold callbackAction
    dsimp only
    split
    · exact callbackOp_addsOne T owner _ s hg
    · exact ⟨Nat.le_add_right _ _, rfl⟩
  | request r => exact foreignRequest_addsOne T owner r s

theorem callbackAction_firing (owner : Nat) (a : CallbackAction) (s : State)
    (hg : ∀ e, s.firing = some e → e.cb = .foreign owner) :
    (callbackAction owner a s).firing = s.firing := by
  cases a with
  | op bytes =>
    unfold callbackAction
    dsimp only
    split
    · exact callbackOp_firing owner _ s hg
    · rfl
  | request r =>
    cases r with
    | add t =>
      simp only [callbackAction, foreignRequest, schedAdd]
      split <;> rfl
    | cancel h =>
      simp only [callbackAction, foreignRequest]
      split <;> rfl

/-- A callback's actions register at most one event each. -/
theorem callbackActions_weight (T : Nat) (owner : Nat) (as : List CallbackAction) (s : State)
    (hg : ∀ e, s.firing = some e → e.cb = .foreign owner) :
    queueWeight T (callbackActions owner as s).queue ≤ queueWeight T s.queue + (T + 1) * as.length ∧
      (callbackActions owner as s).schedule = s.schedule := by
  induction as generalizing s with
  | nil => simp [callbackActions]
  | cons a as ih =>
    have h1 := callbackAction_addsOne T owner a s hg
    simp only [callbackActions, State.andThen, List.length_cons]
    split
    · refine ⟨Nat.le_trans h1.queue ?_, h1.schedule⟩
      rw [Nat.mul_succ]
      omega
    · have h2 := ih (callbackAction owner a s) (by rw [callbackAction_firing owner a s hg]; exact hg)
      refine ⟨?_, h2.2.trans h1.schedule⟩
      have := h1.queue
      have := h2.1
      rw [Nat.mul_succ]
      omega

/-- What delivering an overflow does to the queue: one event at least one cycle after the requested time, or, if that were in
the past, none. -/
theorem deliverOverflow_weight (T : Nat) (c : Chan) (tReq : Nat) (s : State) :
    queueWeight T (deliverOverflow c tReq s).queue ≤ queueWeight T s.queue + (T - tReq) ∧
      (deliverOverflow c tReq s).schedule = s.schedule := by
  let s1 := s.setCh c { s.ch c with ev := none, base := (s.ch c).reload, tStart := tReq }
  have hpos := s1.cyclesToOverflow_pos c (s1.ch c).base
  have harm : queueWeight T (armOverflow c (tReq + s1.cyclesToOverflow c (s1.ch c).base) s1).queue ≤
      queueWeight T s.queue + (T - tReq) ∧
      (armOverflow c (tReq + s1.cyclesToOverflow c (s1.ch c).base) s1).schedule = s.schedule := by
    simp only [armOverflow, State.andThen, schedAdd]
    have hw : Event.weight T ⟨tReq + s1.cyclesToOverflow c (s1.ch c).base, s1.nextSeq, .ovf c⟩ ≤ T - tReq := by
      simp only [Event.weight]
      omega
    have hq : s1.queue = s.queue := rfl
    split
    · simp only [raiseFault_fault, Option.isSome_some, if_true, raiseFault_queue, hq]
      exact ⟨Nat.le_add_right _ _, rfl⟩
    · split
      · exact ⟨by simp only [queueWeight_append, queueWeight_cons, queueWeight_nil, hq]; omega, rfl⟩
      · exact ⟨by simp only [State.setCh_queue, queueWeight_append, queueWeight_cons, queueWeight_nil, hq]; omega, rfl⟩
  simp only [deliverOverflow, State.andThen]
  split
  · exact harm
  · have hs := overflowCommon_same c (armOverflow c (tReq + s1.cyclesToOverflow c (s1.ch c).base) s1)
    rw [hs.queue, hs.schedule]
    exact harm

/-- Firing a due event lowers the bound. -/
theorem fire_lowers_bound {s : State} {T : Nat} {e : Event} (h : s.nextDue T = some e) :
    (fire e s).advanceBound T < s.advanceBound T := by
  obtain ⟨hm, ht⟩ := State.nextDue_mem h
  have hrem := queueWeight_remove (T := T) hm
  rw [State.advanceBound_eq, State.advanceBound_eq]
  unfold fire
  split
  · next c hc =>
    have hd := deliverOverflow_weight T c e.t (s.beginFiring e)
    have hw : e.weight T = T + 1 - e.t := by simp [Event.weight, hc]
    simp only [hd.2]
    have hq : queueWeight T (s.beginFiring e).queue + e.weight T ≤ queueWeight T s.queue := hrem
    have hsch : (s.beginFiring e).schedule = s.schedule := rfl
    have := hd.1
    rw [hsch]
    omega
  · next owner hc =>
    have hw : e.weight T = 1 := by simp [Event.weight, hc]
    have hq : queueWeight T (s.beginFiring e).queue + e.weight T ≤ queueWeight T s.queue := hrem
    unfold foreignCallback
    split
    · next hn =>
      have hsch : (s.beginFiring e).schedule = s.schedule := rfl
      simp only [hsch]
      omega
    · next as rest hn =>
      have hg : ∀ x, ({ s.beginFiring e with schedule := rest } : State).firing = some x → x.cb = .foreign owner := by
        intro x hx
        cases hx
        exact hc
      have ha := callbackActions_weight T owner as { s.beginFiring e with schedule := rest } hg
      have hsch : s.schedule = as :: rest := hn
      have h1 := ha.1
      have h2 := ha.2
      simp only [h2]
      simp only [scheduleWeight, hsch, List.map_cons, List.sum_cons, Nat.mul_add]
      simp only at h1
      omega

/-- The loop with at least the bound's number of events to fire ends: ADVANCE never answers a fault of the model
(spec/93_implementation_defined.md, after Part 1). -/
theorem advanceLoop_ends (T : Nat) (fuel : Nat) (s : State) (h : s.advanceBound T ≤ fuel) :
    ∃ t, advanceLoop T fuel s = some t := by
  induction fuel generalizing s with
  | zero =>
    unfold advanceLoop
    split
    · exact ⟨_, rfl⟩
    · next e he =>
      have := fire_lowers_bound he
      omega
  | succ n ih =>
    unfold advanceLoop
    split
    · exact ⟨_, rfl⟩
    · next e he =>
      split
      · exact ⟨_, rfl⟩
      · have := fire_lowers_bound he
        exact ih _ (by omega)

end Sys2Proof.Machine
end

