-- ==== Sys2Proof/Laws/PerInstr.lean ====
section
/-! SUPPORT. Statements about every operation as syntax, one lemma per constructor: the operation word is the one row of the opcode map that R75 gives it, and the operation has the length R73 gives it. -/

namespace Sys2Proof.Laws

/-- The mnemonic of an operation, as R75 names it. -/
def opOf : Instr → Op
  | .rd8CntLo _ => .rd8CntLo
  | .rd8CntHi _ => .rd8CntHi
  | .rd8CtlLo _ => .rd8CtlLo
  | .rd8CtlHi _ => .rd8CtlHi
  | .rd16Cnt _ => .rd16Cnt
  | .rd16Ctl _ => .rd16Ctl
  | .rd32 _ => .rd32
  | .wr8ReloadLo _ _ => .wr8ReloadLo
  | .wr8ReloadHi _ _ => .wr8ReloadHi
  | .wr8CtlLo _ _ => .wr8CtlLo
  | .wr8CtlHi _ _ => .wr8CtlHi
  | .wr16Reload _ _ => .wr16Reload
  | .wr16Ctl _ _ => .wr16Ctl
  | .wr32 _ _ => .wr32
  | .ovf _ => .ovf
  | .rdReload _ => .rdReload
  | .advance _ => .advance
  | .reset => .reset

/-- The operation's word names the operation (R75), and its bytes are the word and as many operand bytes as R73 says. -/
def WordAndLength.Statement (i : Instr) : Prop :=
  opOfWord (opWord i) = some (opOf i) ∧ (encode i).length = 1 + (opOf i).operandBytes

theorem WordAndLength.rd8CntLo (c : Chan) : WordAndLength.Statement (.rd8CntLo c) := by
  unfold WordAndLength.Statement; revert c; decide

theorem WordAndLength.rd8CntHi (c : Chan) : WordAndLength.Statement (.rd8CntHi c) := by
  unfold WordAndLength.Statement; revert c; decide

theorem WordAndLength.rd8CtlLo (c : Chan) : WordAndLength.Statement (.rd8CtlLo c) := by
  unfold WordAndLength.Statement; revert c; decide

theorem WordAndLength.rd8CtlHi (c : Chan) : WordAndLength.Statement (.rd8CtlHi c) := by
  unfold WordAndLength.Statement; revert c; decide

theorem WordAndLength.rd16Cnt (c : Chan) : WordAndLength.Statement (.rd16Cnt c) := by
  unfold WordAndLength.Statement; revert c; decide

theorem WordAndLength.rd16Ctl (c : Chan) : WordAndLength.Statement (.rd16Ctl c) := by
  unfold WordAndLength.Statement; revert c; decide

theorem WordAndLength.rd32 (c : Chan) : WordAndLength.Statement (.rd32 c) := by
  unfold WordAndLength.Statement; revert c; decide

theorem WordAndLength.wr8ReloadLo (c : Chan) (b : Byte) : WordAndLength.Statement (.wr8ReloadLo c b) :=
  ⟨show opOfWord (busOpcode 0x40#8 c) = some .wr8ReloadLo by revert c; decide, rfl⟩

theorem WordAndLength.wr8ReloadHi (c : Chan) (b : Byte) : WordAndLength.Statement (.wr8ReloadHi c b) :=
  ⟨show opOfWord (busOpcode 0x41#8 c) = some .wr8ReloadHi by revert c; decide, rfl⟩

theorem WordAndLength.wr8CtlLo (c : Chan) (b : Byte) : WordAndLength.Statement (.wr8CtlLo c b) :=
  ⟨show opOfWord (busOpcode 0x42#8 c) = some .wr8CtlLo by revert c; decide, rfl⟩

theorem WordAndLength.wr8CtlHi (c : Chan) (b : Byte) : WordAndLength.Statement (.wr8CtlHi c b) :=
  ⟨show opOfWord (busOpcode 0x43#8 c) = some .wr8CtlHi by revert c; decide, rfl⟩

theorem WordAndLength.wr16Reload (c : Chan) (v : Half) : WordAndLength.Statement (.wr16Reload c v) :=
  ⟨show opOfWord (busOpcode 0x50#8 c) = some .wr16Reload by revert c; decide, rfl⟩

theorem WordAndLength.wr16Ctl (c : Chan) (v : Half) : WordAndLength.Statement (.wr16Ctl c v) :=
  ⟨show opOfWord (busOpcode 0x52#8 c) = some .wr16Ctl by revert c; decide, rfl⟩

theorem WordAndLength.wr32 (c : Chan) (w : Word) : WordAndLength.Statement (.wr32 c w) :=
  ⟨show opOfWord (busOpcode 0x60#8 c) = some .wr32 by revert c; decide, rfl⟩

theorem WordAndLength.ovf (c : Chan) : WordAndLength.Statement (.ovf c) := by
  unfold WordAndLength.Statement; revert c; decide

theorem WordAndLength.rdReload (c : Chan) : WordAndLength.Statement (.rdReload c) := by
  unfold WordAndLength.Statement; revert c; decide

theorem WordAndLength.advance (t : Nat) : WordAndLength.Statement (.advance t) :=
  ⟨show opOfWord 0xA0#8 = some .advance by decide, rfl⟩

theorem WordAndLength.reset : WordAndLength.Statement .reset := by
  unfold WordAndLength.Statement; decide

end Sys2Proof.Laws
end

