-- ==== Sys2Proof/Tests/Slice0.lean ====
section
/-! SUPPORT. The model's own tests: the WellFormed smoke, decoding of words written out from spec/30_encoding.md, one-step tests whose expected results are spec/95_test_vectors.md's or a rule's worked example, and for each statement with hypotheses a witness that meets them. -/

namespace Sys2Proof.Tests

open Sys2Proof Sys2Proof.Machine

/-! ### Well-formedness (R73) -/

theorem test_wf_refuses_target_2_64 : (Instr.advance (2 ^ 64)).wf = false := by decide

theorem test_wf_accepts_largest_target : (Instr.advance (2 ^ 64 - 1)).wf = true := by decide

/-! ### Decoding: words written out bit by bit from R71, R72 and R75 -/

theorem test_decode_rd8_cnt_lo : decode [0b00000100#8] = .ok (.rd8CntLo 1) [] := by decide
theorem test_decode_rd8_cnt_hi : decode [0b00001001#8] = .ok (.rd8CntHi 2) [] := by decide
theorem test_decode_rd8_ctl_lo : decode [0b00001110#8] = .ok (.rd8CtlLo 3) [] := by decide
theorem test_decode_rd8_ctl_hi : decode [0b00000011#8] = .ok (.rd8CtlHi 0) [] := by decide
theorem test_decode_rd16_cnt : decode [0b00011000#8] = .ok (.rd16Cnt 2) [] := by decide
theorem test_decode_rd16_ctl : decode [0b00010110#8] = .ok (.rd16Ctl 1) [] := by decide
theorem test_decode_rd32 : decode [0b00101100#8, 0x55#8] = .ok (.rd32 3) [0x55#8] := by decide
theorem test_decode_wr8_reload_lo : decode [0b01001000#8, 0xF0#8] = .ok (.wr8ReloadLo 2 0xF0#8) [] := by decide
theorem test_decode_wr8_reload_hi : decode [0b01000101#8, 0xCD#8] = .ok (.wr8ReloadHi 1 0xCD#8) [] := by decide
theorem test_decode_wr8_ctl_lo : decode [0b01001010#8, 0x82#8] = .ok (.wr8CtlLo 2 0x82#8) [] := by decide
theorem test_decode_wr8_ctl_hi : decode [0b01000011#8, 0xFF#8] = .ok (.wr8CtlHi 0 0xFF#8) [] := by decide
theorem test_decode_wr16_reload : decode [0b01010100#8, 0x34#8, 0x12#8] = .ok (.wr16Reload 1 0x1234#16) [] := by decide
theorem test_decode_wr16_ctl : decode [0b01010010#8, 0xC1#8, 0x00#8] = .ok (.wr16Ctl 0 0x00C1#16) [] := by decide
theorem test_decode_wr32 :
    decode [0b01101000#8, 0x00#8, 0x01#8, 0x82#8, 0x00#8, 0xA0#8] = .ok (.wr32 2 0x00820100#32) [0xA0#8] := by decide
theorem test_decode_ovf : decode [0b10000011#8] = .ok (.ovf 3) [] := by decide
theorem test_decode_rd_reload : decode [0b10010001#8] = .ok (.rdReload 1) [] := by decide
theorem test_decode_advance :
    decode [0b10100000#8, 0x05#8, 0x00#8, 0x03#8, 0#8, 0#8, 0#8, 0#8, 0x80#8] =
      .ok (.advance 0x8000000000030005) [] := by decide
theorem test_decode_reset : decode [0b10110000#8] = .ok .reset [] := by decide

/-- V60, V61: misaligned accesses. -/
theorem test_decode_misaligned :
    decode [0x11#8] = .refuse .misaligned ∧ decode [0x21#8] = .refuse .misaligned ∧
      decode [0x66#8, 0#8, 0#8, 0#8, 0#8] = .refuse .misaligned := by decide

/-- V62, V64, V65: reserved words. -/
theorem test_decode_reserved :
    [0x30#8, 0x7F#8, 0x84#8, 0xA1#8, 0xB3#8, 0xC0#8, 0xFF#8].map (fun w => decode [w, 0#8]) =
      List.replicate 7 (.refuse .reservedWord) := by decide

/-- V66: an operand cut short. -/
theorem test_decode_truncated : decode [0x50#8, 0x12#8] = .refuse .truncatedOperand := by decide

/-- V67: 66 accepted words; and no two rows of the opcode map share a word (R75). -/
theorem test_accepted_words :
    ((List.range 256).filter fun n => (opOfWord (BitVec.ofNat 8 n)).isSome).length = 66 := by decide +kernel
theorem test_rows_do_not_overlap :
    opcodeRows.Pairwise fun a b => (a.pattern ^^^ b.pattern) &&& (a.mask &&& b.mask) ≠ 0#8 := by decide

/-- `wr16 0x4, 0x1234 ; x` as text (R79). -/
theorem test_parse_line :
    parseLine ['w', 'r', '1', '6', ' ', '0', 'x', '4', ',', ' ', '0', 'x', '1', '2', '3', '4', ' ', ';', ' ', 'x'] =
      some (.op (.wr16 4 0x1234)) := by decide

/-- R12's `0x0400_0100`; and no number without a digit. -/
theorem test_digit_separator :
    numberValue ['0', 'x', '0', '4', '0', '0', '_', '0', '1', '0', '0'] = some 0x04000100 ∧
      numberValue ['_'] = none ∧ numberValue ['0', 'x', '_'] = none := by decide

/-! ### Small states -/

/-- The state after an operation, where it answers a next state. -/
def after (s : State) (i : Instr) : State :=
  match exec i s with
  | .next t => t
  | _ => s

/-- Channel `c` stopped with a reload value. -/
def stopped (c : Chan) (r : Half) : State := State.reset.setCh c { Channel.zero with reload := r }

/-- Channel 0 with reload 0xFFF0 started at 0 with P = 1 (V30): its overflow is pending at 16. -/
def running : State :=
  { State.reset.setCh 0 { Channel.zero with reload := 0xFFF0#16, base := 0xFFF0#16, run := true, ev := some 0 } with
    queue := [⟨16, 0, .ovf 0⟩], nextSeq := 1 }

/-- Channel 1 running in cascade mode with the given base, its interrupt on. -/
def cascading (base reload : Half) : State :=
  State.reset.setCh 1 { Channel.zero with reload := reload, base := base, cascade := true, irq := true, run := true }

/-- V10: channel 0 started at 10 with reload 0xFF00 and P = 64, its interrupt on. -/
def startedAt10 : State :=
  { State.reset.setCh 0
      { reload := 0xFF00#16, base := 0xFF00#16, sel := 1#2, cascade := false, irq := true, run := true, tStart := 10,
        ev := some 0 } with
    now := 10, queue := [⟨16394, 0, .ovf 0⟩], nextSeq := 1 }

/-! ### One step of each operation -/

/-- V1. -/
theorem test_wr16_reload :
    ((after State.reset (.wr16Reload 1 0x1234#16)).ch 1).reload = 0x1234#16 ∧
      (after State.reset (.wr16Reload 1 0x1234#16)).out = [⟨.rate, 1, 0⟩] := by decide

/-- V2. -/
theorem test_wr8_reload_lo : ((after (stopped 1 0x1234#16) (.wr8ReloadLo 1 0xAB#8)).ch 1).reload = 0x12AB#16 := by decide
theorem test_wr8_reload_hi : ((after (stopped 1 0x12AB#16) (.wr8ReloadHi 1 0xCD#8)).ch 1).reload = 0xCDAB#16 := by decide

/-- V10. -/
theorem test_wr16_ctl_starts :
    after { stopped 0 0xFF00#16 with now := 10 } (.wr16Ctl 0 0x00C1#16) =
      { startedAt10 with out := [⟨.rate, 0, 10⟩] } := by decide

/-- V13: bit 2 is discarded on channel 0, bits 5:3 and 15:8 everywhere. -/
theorem test_wr16_ctl_reserved_bits :
    (after State.reset (.wr16Ctl 0 0xFFFF#16)).ctlValue 0 = 0x00C3#16 ∧
      (after State.reset (.wr16Ctl 0 0xFFFF#16)).queue = [⟨67108864, 0, .ovf 0⟩] := by decide

/-- V15. -/
theorem test_wr8_ctl_lo :
    (after State.reset (.wr8CtlLo 0 0x84#8)).ctlValue 0 = 0x0080#16 ∧
      (after State.reset (.wr8CtlLo 0 0x84#8)).queue = [⟨65536, 0, .ovf 0⟩] := by decide

/-- V16. -/
theorem test_wr8_ctl_hi : after running (.wr8CtlHi 0 0xFF#8) = running := by decide

/-- V23. -/
theorem test_wr32 :
    (after State.reset (.wr32 1 0x00838000#32)).queue = [⟨33554432, 0, .ovf 1⟩] ∧
      (after State.reset (.wr32 1 0x00838000#32)).out = [⟨.rate, 1, 0⟩, ⟨.rate, 1, 0⟩] := by decide

/-- V26. -/
theorem test_rd16_cnt : (after { startedAt10 with now := 393 } (.rd16Cnt 0)).reads = [.half 0xFF05#16] := by decide
theorem test_rd8_cnt_lo : (after { startedAt10 with now := 393 } (.rd8CntLo 0)).reads = [.byte 0x05#8] := by decide
theorem test_rd8_cnt_hi : (after { startedAt10 with now := 393 } (.rd8CntHi 0)).reads = [.byte 0xFF#8] := by decide
theorem test_rd16_ctl : (after startedAt10 (.rd16Ctl 0)).reads = [.half 0x00C1#16] := by decide
theorem test_rd8_ctl_lo : (after startedAt10 (.rd8CtlLo 0)).reads = [.byte 0xC1#8] := by decide
theorem test_rd8_ctl_hi : (after startedAt10 (.rd8CtlHi 0)).reads = [.byte 0x00#8] := by decide
theorem test_rd32 : (after { startedAt10 with now := 393 } (.rd32 0)).reads = [.word 0x00C1FF05#32] := by decide

/-- R141's example. -/
theorem test_rd_reload : (after (stopped 1 0xCDAB#16) (.rdReload 1)).reads = [.half 0xCDAB#16] := by decide

/-- V30: one cycle before the overflow, and at it. -/
theorem test_advance_before_overflow : (after running (.advance 15)).counter 0 = 0xFFFF#16 := by decide
theorem test_advance_to_overflow :
    (after running (.advance 16)).counter 0 = 0xFFF0#16 ∧
      (after running (.advance 16)).queue = [⟨32, 1, .ovf 0⟩] ∧
      (after running (.advance 16)).out = [⟨.cadence, 0, 16⟩] := by decide

/-- R160's worked example, delivered by the scheduler at 16; V63: refused from the host. -/
theorem test_ovf_delivered :
    (after { running with now := 16, queue := [], firing := some ⟨16, 0, .ovf 0⟩ } (.ovf 0)).queue =
      [⟨32, 1, .ovf 0⟩] := by decide
theorem test_ovf_from_host : exec (.ovf 0) running = .refused (.atInterface .hostOvf) := rfl

/-- R201's worked example, on channel 0. -/
theorem test_reset :
    after { running with now := 7 } .reset = { State.reset with now := 7, nextSeq := 1 } := by decide

/-- V29: a foreign callback ordered before the overflow at the same time reads the clamped count. -/
theorem test_clamp_window :
    (after { running with
        queue := [⟨16, 0, .foreign 1⟩, ⟨16, 1, .ovf 0⟩], nextSeq := 2, schedule := [[.op [0x10#8]]] }
      (.advance 16)).reads = [.half 0xFFFF#16] := by decide

/-- V44: a foreign callback's Add in the past. -/
theorem test_foreign_add_in_the_past :
    (after { State.reset with queue := [⟨20, 0, .foreign 1⟩], nextSeq := 1, schedule := [[.request (.add 5)]] }
      (.advance 30)).fault = some ⟨.schedPast, 5, 20⟩ := by decide

/-- V43. -/
theorem test_advance_backward :
    (after { State.reset with now := 50 } (.advance 10)).fault = some ⟨.advanceBackward, 10, 50⟩ := by decide

/-- V33's second overflow, as a cascade tick at 0xFFFF. -/
theorem test_cascade_overflow :
    ((cascadeTick 1 (cascading 0xFFFF#16 0xFFFE#16)).ch 1).base = 0xFFFE#16 ∧
      (cascadeTick 1 (cascading 0xFFFF#16 0xFFFE#16)).out = [⟨.irq, 1, 0⟩, ⟨.cadence, 1, 0⟩] := by decide

/-- The opcode table's numbering: `rd16 0x8` is the byte 0x18, and it runs as the first operation after power-on. -/
theorem test_table_word : decodeTableWord 8 0x18 = some (.rd16Cnt 2) := by decide
theorem test_fetch_word :
    step (State.reset.withFetchWord 8 0x18) =
      exec (.rd16Cnt 2) { State.reset with input := List.replicate 8 (.byte 0#8) } := by rfl
theorem test_fetch_ovf_word : ∃ t, step (State.reset.withFetchWord 8 0x81) = .next t := ⟨_, rfl⟩

/-! ### Witnesses: concrete states and operands that meet the statements' hypotheses -/

theorem running_inv : running.Inv where
  cascade0 := by decide
  rising := by decide
  registered := by decide
  notPast := by decide
  pending := by
    intro c
    fin_cases c
    · exact fun _ => ⟨0, by decide, by decide⟩
    · exact fun h => absurd h (by decide)
    · exact fun h => absurd h (by decide)
    · exact fun h => absurd h (by decide)
  idle := by decide
  owned := by decide
  started := by decide
  betweenCallbacks := rfl

theorem running_noForeign : running.NoForeign := by
  intro e he
  refine ⟨0, ?_⟩
  have : e = ⟨16, 0, .ovf 0⟩ := by simpa [running] using he
  rw [this]

/-- The invariant and a next state: channel 0 running, one operation issued. -/
theorem issued_inv (l : List HostItem) : ({ running with input := l } : State).Inv :=
  ⟨running_inv.1, running_inv.2, running_inv.3, running_inv.4, running_inv.5, running_inv.6, running_inv.7,
    running_inv.8, running_inv.9⟩

theorem witness_StepKeepsInvariant :
    ({ running with input := [.byte 0x10#8] } : State).Inv ∧
      ∃ t, step { running with input := [.byte 0x10#8] } = .next t :=
  ⟨issued_inv _, _, rfl⟩

/-- For TimeMovesOnlyInAdvance and OutputsAreAppendedInOrder: a step that fires an overflow. -/
theorem witness_StepAdvances :
    ({ running with input := (encode (.advance 20)).map .byte } : State).Inv ∧
      ∃ t, step { running with input := (encode (.advance 20)).map .byte } = .next t :=
  ⟨issued_inv _, _, rfl⟩

theorem witness_TimeMovesOnlyInAdvance :
    (∀ T, Instr.rd16Cnt 0 ≠ .advance T) ∧ ∃ t, exec (.rd16Cnt 0) running = .next t :=
  ⟨by intro T; exact Instr.noConfusion, _, rfl⟩

/-- Nothing issued, an operation, a refused word, a request of a foreign component. -/
theorem witness_StepRunsWhatIsIssued :
    State.reset.fault = none ∧ State.reset.input = [] ∧
      decode [0x10#8, 0xB0#8] = .ok (.rd16Cnt 0) [0xB0#8] ∧ decode [0x11#8] = .refuse .misaligned ∧
      ([HostItem.request 1 (.add 3)] : List HostItem).head? = some (.request 1 (.add 3)) ∧
      (∀ x more, ([.request 1 (.add 3)] : List HostItem) ≠ .byte x :: more) :=
  ⟨rfl, rfl, by decide, by decide, rfl, by intro x more h; cases h⟩

/-- A recorded fault; and an ADVANCE whose next callback faults. -/
theorem witness_FaultIsTerminal :
    (raiseFault .schedPast 3 State.reset).fault ≠ none ∧
      (let s := { State.reset with queue := [⟨20, 0, .foreign 1⟩], nextSeq := 1, schedule := [[.request (.add 5)]] }
       s.fault = none ∧ s.now ≤ 30 ∧ s.nextDue 30 = some ⟨20, 0, .foreign 1⟩ ∧
         (fire ⟨20, 0, .foreign 1⟩ s).fault ≠ none) := by decide

theorem witness_DecodeOfEncode : (Instr.advance (2 ^ 64 - 1)).wf = true ∧ (Instr.wr32 3 0xFFFFFFFF#32).wf = true := by
  decide

theorem witness_EncodeOfDecode : decode [0x60#8, 1#8, 2#8, 3#8, 4#8, 5#8] = .ok (.wr32 0 0x04030201#32) [5#8] := by decide

/-- The first and last word of each item of R76 at the head of the stream. -/
theorem witness_ReservedWordsAreRefused :
    ([0x11, 0x1F, 0x51, 0x5F, 0x21, 0x2F, 0x61, 0x6F].all fun n => decode [BitVec.ofNat 8 n] == .refuse .misaligned) ∧
      ([0x30, 0x3F, 0x70, 0x7F, 0xC0, 0xFF, 0x84, 0x8F, 0x94, 0x9F, 0xA1, 0xAF, 0xB1, 0xBF].all fun n =>
        decode [BitVec.ofNat 8 n] == .refuse .reservedWord) := by decide

theorem witness_TruncatedOperandIsRefused :
    (Instr.advance 7).wf = true ∧ 0 < 8 ∧ 8 < (encode (.advance 7)).length := by decide

theorem witness_BusAccessesAreOperations :
    (0xFFFF : Nat) < 2 ^ (8 * AccessSize.half.bytes) ∧ (Config.timerBase + 16 < Config.timerBase ∨
      Config.timerBase + 16 ≤ Config.timerBase + 16) := ⟨by decide, .inr (Nat.le_refl _)⟩

theorem witness_PseudoInstructionsExpand : (0 : Nat) + 5 + 5 < 2 ^ 64 ∧ (2 ^ 64 - 6) + 5 < 2 ^ 64 := by decide

/-- For the statements whose only hypothesis is that no fault is recorded (reads, reload writes, byte and word writes,
RESET). -/
theorem witness_NoFault : running.fault = none ∧ State.reset.fault = none := by decide

/-- For ControlWordLayout: channel 0 running, and no fault. -/
theorem witness_ControlWordLayout : (running.ch 0).run = true ∧ running.fault = none := by decide

/-- For CounterReadsReloadAfterStart: a stopped channel and a control write with bit 7 set. -/
theorem witness_CounterReadsReloadAfterStart :
    (stopped 2 0xF000#16).fault = none ∧ ((stopped 2 0xF000#16).ch 2).run = false ∧
      (0x0087#16 : Half).getLsbD 7 = true := by decide

/-- The last channel with a next one, and the one without. -/
theorem witness_OverflowActionsInOrder : (2 : Chan).val < 3 ∧ (3 : Chan) = 3 := by decide

/-- An overflow of channel 0 that reloads channel 1 and so counts channel 2: a channel up to 0, the ones above it, and a changed
one above a channel between. -/
theorem witness_ChainsRunUpwardsOnce :
    let s := (cascading 0xFFFF#16 0#16).setCh 2 { Channel.zero with base := 7, cascade := true, run := true }
    (0 : Chan) ≤ 0 ∧ (0 : Chan) < 1 ∧ (1 : Chan) < 2 ∧ (overflowCommon 0 s).ch 2 ≠ s.ch 2 := by decide

/-- For AdvanceReachesItsTarget: the target at `now` itself, and the time of the overflow. -/
theorem witness_AdvanceReachesItsTarget : running.fault = none ∧ running.now ≤ running.now ∧ running.now ≤ 16 := by decide

/-- An internally clocked channel, a stopped one, and a cascade-counting one. -/
theorem witness_CounterIsReconstructed :
    ((running.ch 0).run = true ∧ ((0 : Chan) = 0 ∨ (running.ch 0).cascade = false)) ∧
      ¬((running.ch 1).run = true ∧ ((1 : Chan) = 0 ∨ (running.ch 1).cascade = false)) ∧
      ¬(((cascading 0 0).ch 1).run = true ∧ ((1 : Chan) = 0 ∨ ((cascading 0 0).ch 1).cascade = false)) := by decide

/-- Channel 0 running, inside the callback of another owner's event at `t`. -/
def insideCallback (t : Nat) : State := { running with now := t, nextSeq := 2, firing := some ⟨t, 1, .foreign 1⟩ }

/-- Inside a callback one cycle before the overflow, and inside one at the overflow's own time. -/
theorem witness_ClampOnlyAtTheOverflowInstant :
    ({ insideCallback 15 with firing := none } : State).Inv ∧ (insideCallback 15).internal 0 = true ∧
      (insideCallback 15).now < (insideCallback 15).overflowTime 0 ∧
      ({ insideCallback 16 with firing := none } : State).Inv ∧ (insideCallback 16).internal 0 = true ∧
      (insideCallback 16).now = (insideCallback 16).overflowTime 0 :=
  ⟨⟨running_inv.1, running_inv.2, by decide, by decide, running_inv.5, running_inv.6, running_inv.7, by decide, rfl⟩,
    by decide, by decide,
    ⟨running_inv.1, running_inv.2, by decide, by decide, running_inv.5, running_inv.6, running_inv.7, by decide, rfl⟩,
    by decide, by decide⟩

theorem witness_ControlWriteWhileStopped :
    (State.reset.ch 1).run = false ∧ (0xFF3F#16).getLsbD 7 = false := by decide

/-- Channel 0 with bit 2 set, channel 1 without and with it. -/
theorem witness_RunTransitionStartsTheChannel :
    State.reset.fault = none ∧ (State.reset.ch 0).run = false ∧ (State.reset.ch 1).run = false ∧
      (0x0084#16).getLsbD 7 = true ∧ ((0 : Chan) = 0 ∨ (0x0084#16).getLsbD 2 = false) ∧
      (0x0080#16).getLsbD 7 = true ∧ ((1 : Chan) = 0 ∨ (0x0080#16).getLsbD 2 = false) ∧
      ((1 : Chan) ≠ 0 ∧ (0x0084#16).getLsbD 2 = true) := by decide

theorem witness_RunTransitionStopsTheChannel :
    running.fault = none ∧ (running.ch 0).run = true ∧ (0x0002#16).getLsbD 7 = false := by decide

theorem witness_RunningWriteKeepsCounting :
    running.fault = none ∧ (running.ch 0).run = true ∧ (0x00C0#16).getLsbD 7 = true ∧
      (0x00C0#16).extractLsb' 0 2 = (running.ch 0).sel ∧
      (decide ((0 : Chan) ≠ 0) && (0x00C0#16).getLsbD 2) = running.cascadeBit 0 := by decide

/-- A new selector on channel 0; channel 1 leaving cascade mode, and changing its selector within it. -/
theorem witness_RunningWriteRebases :
    (running.ch 0).run = true ∧ (0x0083#16).getLsbD 7 = true ∧ (0x0083#16).extractLsb' 0 2 ≠ (running.ch 0).sel ∧
      ((cascading 5 0).ch 1).run = true ∧
      (decide ((1 : Chan) ≠ 0) && (0x0080#16).getLsbD 2) ≠ (cascading 5 0).cascadeBit 1 ∧
      ((1 : Chan) = 0 ∨ (0x0080#16).getLsbD 2 = false) ∧
      (0x0085#16).extractLsb' 0 2 ≠ ((cascading 5 0).ch 1).sel ∧ ((1 : Chan) ≠ 0 ∧ (0x0085#16).getLsbD 2 = true) := by
  decide

theorem witness_DeliveredOverflowReloadsAndRearms :
    let s := { running with now := 16, queue := [], firing := some ⟨16, 0, .ovf 0⟩ }
    let e : Event := ⟨16, 0, .ovf 0⟩
    s.fault = none ∧ s.firing = some e ∧ e.cb = .ovf 0 ∧ e.t = s.now := by decide

/-- From the host, and while a foreign callback runs. -/
theorem witness_HostOverflowIsRefused :
    (∀ e, running.firing = some e → e.cb ≠ .ovf 0) ∧
      (∀ e, ({ running with firing := some ⟨3, 0, .foreign 1⟩ } : State).firing = some e → e.cb ≠ .ovf 0) :=
  ⟨(fun e h => by cases h), (fun e h => by cases h; decide)⟩

/-- A stopped channel, one below 0xFFFF, one at 0xFFFF. -/
theorem witness_CascadeTickCountsOrOverflows :
    (1 : Chan) ≠ 0 ∧ ¬((State.reset.ch 1).run = true ∧ (State.reset.ch 1).cascade = true) ∧
      ((cascading 5 0).ch 1).run = true ∧ ((cascading 5 0).ch 1).cascade = true ∧
      ((cascading 5 0).ch 1).base ≠ 0xFFFF#16 ∧ ((cascading 0xFFFF#16 0).ch 1).base = 0xFFFF#16 := by decide

theorem witness_CascadeCount :
    let s := cascading 0xFFFE#16 0xFFFE#16
    (s.ch 1).run = true ∧ (s.ch 1).cascade = true ∧ (s.ch 1).base = (s.ch 1).reload := by decide

/-- A read, a RESET, and an ADVANCE that fires an overflow. -/
theorem witness_RateOnlyFromWrites :
    running.schedule = [] ∧ (∃ t, exec .reset running = .next t) ∧ ∃ t, exec (.advance 16) running = .next t :=
  ⟨rfl, ⟨_, rfl⟩, _, rfl⟩

/-- ADVANCE; a delivered OVF(1) with channel 0 below it and channel 2 above it not cascade-counting. -/
theorem witness_OverflowFrame :
    (∃ t, exec (.advance 16) running = .next t) ∧
      (let s := { running with firing := some ⟨0, 0, .ovf 1⟩ }
       (∃ t, exec (.ovf 1) s = .next t) ∧ (0 : Chan) < 1 ∧ (1 : Chan) < 2 ∧ s.cascadeCounting 2 = false) :=
  ⟨⟨_, rfl⟩, ⟨_, rfl⟩, by decide, by decide, by decide⟩

/-- At `now`, which is not in the past, and one cycle before it, which is. -/
theorem witness_AddRegistersOrFaults :
    let s (t : Nat) := { State.reset with now := 5, input := [.request 1 (.add t)] }
    (s 5).fault = none ∧ (s 5).input = [.request 1 (.add 5)] ∧ (s 5).now ≤ 5 ∧
      (s 4).fault = none ∧ (s 4).input = [.request 1 (.add 4)] ∧ 4 < (s 4).now := by decide

/-- An event of its own, and one of another owner. -/
theorem witness_CancelRemovesOwnEvent :
    (let s := { State.reset with queue := [⟨9, 0, .foreign 1⟩], nextSeq := 1, input := [.request 1 (.cancel 0)] }
     ∃ e ∈ s.queue, e.seq = 0 ∧ e.cb = .foreign 1) ∧
      ¬∃ e ∈ running.queue, e.seq = 0 ∧ e.cb = .foreign 1 := by decide

/-- A backward target; nothing due; the block's own event due exactly at the target, with another owner's event at the same
time registered later; another owner's event first. -/
theorem witness_AdvanceFollowsTheLoop :
    (3 < ({ running with now := 5 } : State).now) ∧ (∀ e ∈ running.queue, 15 < e.t) ∧
      (let s := { running with queue := [⟨16, 0, .ovf 0⟩, ⟨16, 1, .foreign 1⟩], nextSeq := 2 }
       (⟨16, 0, .ovf 0⟩ : Event) ∈ s.queue ∧ s.now ≤ 16 ∧
         ∀ x ∈ s.queue, x ≠ ⟨16, 0, .ovf 0⟩ → x.t ≤ 16 → 16 < x.t ∨ (16 = x.t ∧ 0 < x.seq)) ∧
      (let s := { running with queue := [⟨16, 0, .foreign 1⟩, ⟨16, 1, .ovf 0⟩], nextSeq := 2 }
       (⟨16, 0, .foreign 1⟩ : Event) ∈ s.queue ∧
         ∀ x ∈ s.queue, x ≠ ⟨16, 0, .foreign 1⟩ → x.t ≤ 16 → 16 < x.t ∨ (16 = x.t ∧ 0 < x.seq)) := by decide

/-- For AdvanceReachesItsTarget and AdvanceSplits: a first target at which the overflow fires. -/
theorem witness_AdvanceSplits :
    running.fault = none ∧ running.now ≤ 16 ∧ 16 ≤ 40 ∧ ∃ t, exec (.advance 16) running = .next t :=
  ⟨rfl, by decide, by decide, _, rfl⟩

theorem witness_BlockNeverSchedulesInThePast :
    (∀ c, Instr.wr16Ctl 0 0x0080#16 ≠ .ovf c) ∧ (∀ T, Instr.wr16Ctl 0 0x0080#16 ≠ .advance T) ∧
      (∃ t, exec (.wr16Ctl 0 0x0080#16) State.reset = .next t) ∧ running.schedule = [] ∧ running.now ≤ 16 :=
  ⟨by intro c; exact Instr.noConfusion, by intro T; exact Instr.noConfusion, ⟨_, rfl⟩, rfl, by decide⟩

theorem witness_OverflowTimesAreExact :
    running.Inv ∧ running.fault = none ∧ running.NoForeign ∧ running.internal 0 = true ∧
      running.now ≤ 15 ∧ 15 < running.overflowTime 0 ∧ 15 + 1 = running.overflowTime 0 :=
  ⟨running_inv, rfl, running_noForeign, by decide, by decide, by decide, by decide⟩

/-- The reference model's state beside `running`, and at 15, one cycle before the overflow. -/
def runningRef (now : Nat) (cnt : Half) : RefState :=
  { chans := (Vector.replicate 4 ⟨0, 0, 0, 0, false, false, false⟩).set 0 ⟨cnt, 0, 0xFFF0#16, 0, false, false, true⟩
    now := now
    out := [] }

theorem running15_inv : ({ running with now := 15 } : State).Inv :=
  ⟨running_inv.1, running_inv.2, running_inv.3, by decide, running_inv.5, running_inv.6, running_inv.7, by decide,
    running_inv.9⟩

theorem witness_CycleMatchesReference :
    ({ running with now := 15 } : State).Inv ∧ (∀ e ∈ running.queue, 15 < e.t) ∧
      (∀ e ∈ running.queue, e.t ≤ 16 → ∃ c, e.cb = .ovf c) ∧
      Agrees { running with now := 15 } (runningRef 15 0xFFFF#16) :=
  ⟨running15_inv, by decide, fun e he _ => running_noForeign e he, rfl, rfl, by decide⟩

theorem witness_OperationsMatchReference :
    running.Inv ∧ running.fault = none ∧ (∀ e ∈ running.queue, running.now < e.t) ∧
      (∀ c, Instr.wr16Ctl 0 0x0083#16 ≠ .ovf c) ∧ (∀ T, Instr.wr16Ctl 0 0x0083#16 ≠ .advance T) ∧
      Agrees running (runningRef 0 0xFFF0#16) :=
  ⟨running_inv, rfl, by decide, by intro c; exact Instr.noConfusion, by intro T; exact Instr.noConfusion, rfl, rfl,
    by decide⟩

/-- RESET of a running block; and a quiet block whose foreign callback, due at the target, makes a reload write. -/
theorem witness_QuietUntilAChannelIsStarted :
    (running.Inv ∧ running.fault = none ∧ (∃ t, exec .reset running = .next t ∧ t.schedule = [] ∧ t.now ≤ 100)) ∧
      (let s := { State.reset with
          queue := [⟨20, 0, .foreign 1⟩], nextSeq := 1, schedule := [[.op [0x40#8, 7#8]]] }
       s.Quiet ∧ s.CallbacksStartNone ∧ setsRun (.advance 20) = false ∧
         ∃ t, exec (.advance 20) s = .next t ∧ t.out = [⟨.rate, 0, 20⟩]) := by
  refine ⟨⟨running_inv, rfl, _, rfl, rfl, by decide⟩, ⟨by decide, by decide, rfl⟩, ?_, rfl, _, rfl, by decide⟩
  intro as has bytes hb i rest hd
  obtain rfl : as = [.op [0x40#8, 7#8]] := by simpa using has
  obtain rfl : bytes = [0x40#8, 7#8] := by simpa using hb
  obtain rfl : Instr.wr8ReloadLo 0 7#8 = i := by
    have h : decode [0x40#8, 7#8] = .ok (.wr8ReloadLo 0 7#8) [] := by decide
    rw [h] at hd
    injection hd
  rfl

/-- A misaligned word, OVF and ADVANCE inside a callback whose event was registered before. -/
theorem witness_CallbackRefusalLeavesItsMark :
    (insideCallback 16).fault = none ∧ (insideCallback 16).firing = some ⟨16, 1, .foreign 1⟩ ∧
      decode [0x11#8] = .refuse .misaligned ∧ decode [0x80#8] = .ok (.ovf 0) [] ∧
      decode [0xA0#8, 20#8, 0#8, 0#8, 0#8, 0#8, 0#8, 0#8, 0#8] = .ok (.advance 20) [] := by decide

/-- An empty schedule and one with an entry; an action that faults and one that does not; Add at `now` and before it; Cancel of an
event of its own and of the block's. -/
theorem witness_ForeignCallbackDoesItsActions :
    let s := { insideCallback 16 with queue := [⟨16, 0, .ovf 0⟩, ⟨30, 1, .foreign 1⟩] }
    s.fault = none ∧ s.schedule = [] ∧
      ({ s with schedule := [[.op [0x10#8]]] } : State).schedule = [.op [0x10#8]] :: [] ∧
      (callbackAction 1 (.op [0x10#8]) s).fault = none ∧ (callbackAction 1 (.request (.add 15)) s).fault ≠ none ∧
      s.now ≤ 16 ∧ 15 < s.now ∧
      (∃ e ∈ s.queue, e.seq = 1 ∧ e.cb = .foreign 1) ∧ ¬∃ e ∈ s.queue, e.seq = 0 ∧ e.cb = .foreign 1 := by decide

theorem witness_CallbackOperationsAreOperations :
    (Instr.wr32 0 0x0080FFFD#32).wf = true ∧ (∀ c, Instr.wr32 0 0x0080FFFD#32 ≠ .ovf c) ∧
      (∀ T, Instr.wr32 0 0x0080FFFD#32 ≠ .advance T) ∧ ∃ t, exec (.wr32 0 0x0080FFFD#32) State.reset = .next t :=
  ⟨by decide, by intro c; exact Instr.noConfusion, by intro T; exact Instr.noConfusion, _, rfl⟩

end Sys2Proof.Tests
end

/-! # Proofs of the family 00_scope: the encoding's round trip, what a step takes from the host's stream, and foreign callbacks -/

/-! ### The encoding (R70 to R75): decoding what was encoded -/

namespace Sys2Proof

open Sys2Proof.Laws

/-- The `n` little-endian bytes of a value hold it modulo `256 ^ n` (R53, R73). -/
theorem leValue_leBytes (n v : Nat) : leValue (leBytes n v) = v % 256 ^ n := by
  induction n generalizing v with
  | zero => simp [leBytes, leValue, Nat.mod_one]
  | succ n ih =>
    rw [leBytes, leValue, ih, BitVec.toNat_ofNat, Nat.pow_succ' (m := 256), Nat.mod_mul]

/-- The channel bits of a bus word are read back from it, whatever stands in the other bits (R71). -/
theorem busChannel_busOpcode {p : Byte} (hp : p.toNat / 4 % 4 = 0) (c : Chan) : busChannel (busOpcode p c) = c := by
  have hc : 4 * c.val % 2 ^ 8 = 4 * c.val := Nat.mod_eq_of_lt (by have := c.isLt; omega)
  have hor : (p.toNat ||| 4 * c.val) / 4 % 4 = (p.toNat / 4 % 4) ||| (4 * c.val / 4 % 4) := by
    rw [Nat.or_div_two_pow (n := 2), Nat.or_mod_two_pow (n := 2)]
  apply Fin.ext
  simp only [busChannel, busOpcode, Fin.ofNat, BitVec.toNat_or, BitVec.toNat_ofNat, hc, hor, hp]
  simp

/-- The channel bits of an OVF word are read back from it (R72). -/
theorem internalChannel_ovf (c : Chan) : internalChannel (internalOpcode 0x80#8 c) = c := by
  revert c; decide

/-- The channel bits of an RD_RELOAD word are read back from it (R72). -/
theorem internalChannel_rdReload (c : Chan) : internalChannel (internalOpcode 0x90#8 c) = c := by
  revert c; decide

/-- Every operation's word names it, and its bytes are as many as R73 says. -/
theorem wordAndLength (i : Instr) : WordAndLength.Statement i := by
  cases i with
  | rd8CntLo c => exact WordAndLength.rd8CntLo c
  | rd8CntHi c => exact WordAndLength.rd8CntHi c
  | rd8CtlLo c => exact WordAndLength.rd8CtlLo c
  | rd8CtlHi c => exact WordAndLength.rd8CtlHi c
  | rd16Cnt c => exact WordAndLength.rd16Cnt c
  | rd16Ctl c => exact WordAndLength.rd16Ctl c
  | rd32 c => exact WordAndLength.rd32 c
  | wr8ReloadLo c b => exact WordAndLength.wr8ReloadLo c b
  | wr8ReloadHi c b => exact WordAndLength.wr8ReloadHi c b
  | wr8CtlLo c b => exact WordAndLength.wr8CtlLo c b
  | wr8CtlHi c b => exact WordAndLength.wr8CtlHi c b
  | wr16Reload c v => exact WordAndLength.wr16Reload c v
  | wr16Ctl c v => exact WordAndLength.wr16Ctl c v
  | wr32 c w => exact WordAndLength.wr32 c w
  | ovf c => exact WordAndLength.ovf c
  | rdReload c => exact WordAndLength.rdReload c
  | advance t => exact WordAndLength.advance t
  | reset => exact WordAndLength.reset

/-- Word and operand of a well-formed operation give the operation back (R74). -/
theorem build_opWord_operandBytes {i : Instr} (h : i.wf = true) :
    (opOf i).build (opWord i) (leValue (operandBytes i)) = i := by
  cases i with
  | ovf c => exact congrArg Instr.ovf (internalChannel_ovf c)
  | rdReload c => exact congrArg Instr.rdReload (internalChannel_rdReload c)
  | advance t =>
    have ht : t < 256 ^ 8 := of_decide_eq_true h
    exact congrArg Instr.advance ((leValue_leBytes 8 t).trans (Nat.mod_eq_of_lt ht))
  | reset => rfl
  | wr16Reload c v | wr16Ctl c v | wr32 c v =>
    simp [opOf, Op.build, opWord, operandBytes, busChannel_busOpcode, leValue_leBytes, Nat.mod_eq_of_lt v.isLt]
  | wr8ReloadLo c b | wr8ReloadHi c b | wr8CtlLo c b | wr8CtlHi c b =>
    simp [opOf, Op.build, opWord, operandBytes, busChannel_busOpcode, leValue]
  | rd8CntLo c | rd8CntHi c | rd8CtlLo c | rd8CtlHi c | rd16Cnt c | rd16Ctl c | rd32 c =>
    simp [opOf, Op.build, opWord, busChannel_busOpcode]

/-- Decoding a well-formed operation's bytes, whatever follows them (R70, R73). -/
theorem decode_encode_append {i : Instr} (h : i.wf = true) (rest : List Byte) :
    decode (encode i ++ rest) = .ok i rest := by
  obtain ⟨hword, hlen⟩ := wordAndLength i
  have hbytes : (operandBytes i).length = (opOf i).operandBytes := by
    rw [encode, List.length_cons] at hlen
    omega
  simp [encode, decode, hword, ← hbytes, build_opWord_operandBytes h]

/-- What the decoder leaves is the end of what it was given (R73). -/
theorem decode_rest_suffix {bs rest : List Byte} {i : Instr} (h : decode bs = .ok i rest) : rest <:+ bs := by
  cases bs with
  | nil => simp [decode] at h
  | cons w bs =>
    simp only [decode] at h
    split at h
    · cases h
    · split at h
      · cases h
      · cases h
        exact (List.drop_suffix _ bs).trans (List.suffix_cons w bs)

end Sys2Proof

/-! ### What a step takes from the host's stream (R8, R70) -/

namespace Sys2Proof.Machine

/-- The stream's bytes end where an item that is no byte stands. -/
theorem streamBytes_map_append (bs : List Byte) {tail : List HostItem} (ht : ∀ x more, tail ≠ .byte x :: more) :
    streamBytes (bs.map .byte ++ tail) = bs := by
  induction bs with
  | nil =>
    match tail with
    | [] => rfl
    | .request _ _ :: _ => rfl
    | .byte x :: more => exact absurd rfl (ht x more)
  | cons b bs ih => simpa [streamBytes] using ih

/-- Taking the bytes of the stream that the decoder used leaves the others and what follows them. -/
theorem drop_map_append_of_suffix {bs rest : List Byte} (h : rest <:+ bs) (tail : List HostItem) :
    (bs.map HostItem.byte ++ tail).drop (bs.length - rest.length) = rest.map .byte ++ tail := by
  obtain ⟨taken, rfl⟩ := h
  simp

section
variable {s : State} {b : Byte} {bs : List Byte} {tail : List HostItem}

/-- Bytes that decode are taken from the head of the stream (R70, R73). -/
theorem State.fetch_of_decode_ok (hs : s.input = (b :: bs).map .byte ++ tail)
    (ht : ∀ x more, tail ≠ .byte x :: more) {i : Instr} {rest : List Byte} (hd : decode (b :: bs) = .ok i rest) :
    s.fetch = .operation i { s with input := rest.map .byte ++ tail } := by
  have hb : streamBytes s.input = b :: bs := hs ▸ streamBytes_map_append _ ht
  have hdrop := drop_map_append_of_suffix (decode_rest_suffix hd) tail
  rw [← hs] at hdrop
  simp only [State.fetch, hb, hd, hdrop]
  simp [hs]

/-- Bytes that the decoder refuses are refused by the fetch (R78, R182). -/
theorem State.fetch_of_decode_refuse (hs : s.input = (b :: bs).map .byte ++ tail)
    (ht : ∀ x more, tail ≠ .byte x :: more) {k : RefusalKind} (hd : decode (b :: bs) = .refuse k) :
    s.fetch = .refuse k := by
  have hb : streamBytes s.input = b :: bs := hs ▸ streamBytes_map_append _ ht
  simp only [State.fetch, hb, hd]
  simp [hs]

end

/-- Settles O4: in each clause the fetch is known from the input, and the step runs what was fetched. -/
theorem stepRunsWhatIsIssued : Obligations.StepRunsWhatIsIssued := by
  intro s hf
  refine ⟨fun hs => ?_, fun b bs tail hs ht => ⟨fun i rest hd => ?_, fun k hd => ?_⟩, fun owner r rest hs => ?_⟩
  · simp [step, hf, State.fetch, hs]
  · simp [step, hf, State.fetch_of_decode_ok hs ht hd]
  · simp [step, hf, State.fetch_of_decode_refuse hs ht hd]
  · simp [step, hf, State.fetch, hs]

/-! ### What a foreign callback does (R7 c, R101) -/

/-- ADVANCE is the only operation that means something else in a callback than from the host (R8, log entry 5). -/
theorem callbackOp_eq_exec {i : Instr} (h : ∀ T, i ≠ .advance T) (s : State) : callbackOp i s = exec i s := by
  cases i with
  | advance T => exact absurd rfl (h T)
  | _ => rfl

/-- Bytes that decode are settled as the operation they name, whatever follows them. -/
theorem callbackAction_of_decode_ok {bytes rest : List Byte} {i : Instr} (h : decode bytes = .ok i rest)
    (owner : Nat) (s : State) : callbackAction owner (.op bytes) s = settle s (callbackOp i s) := by
  simp [callbackAction, h]

/-- Settles O51: the bytes decode to the operation, and its meaning in a callback is `exec`'s. -/
theorem callbackOperationsAreOperations : Obligations.CallbackOperationsAreOperations := by
  intro s t owner i hwf _ hadv hexec
  have hdec : decode (encode i) = .ok i [] := by simpa using decode_encode_append hwf []
  rw [callbackAction_of_decode_ok hdec, callbackOp_eq_exec hadv, hexec]
  rfl

theorem callbackAction_request (owner : Nat) (r : ForeignRequest) (s : State) :
    callbackAction owner (.request r) s = foreignRequest owner r s := rfl

theorem foreignRequest_add (owner t : Nat) (s : State) :
    foreignRequest owner (.add t) s = schedAdd t (.foreign owner) s := rfl

/-- The guard of a foreign Cancel: some pending event has that handle and that owner (R34, R101). -/
theorem any_ownedBy_iff {q : List Event} {owner h : Nat} :
    q.any (ownedBy owner h) = true ↔ ∃ e ∈ q, e.seq = h ∧ e.cb = .foreign owner := by
  simp [ownedBy]

/-- Cancel of an event of the owner's own (R104). -/
theorem foreignRequest_cancel_of_owned {s : State} {owner h : Nat}
    (hown : ∃ e ∈ s.queue, e.seq = h ∧ e.cb = .foreign owner) :
    foreignRequest owner (.cancel h) s = schedCancel h s :=
  if_pos (any_ownedBy_iff.2 hown)

/-- Cancel with any other handle (log entry 3). -/
theorem foreignRequest_cancel_of_not_owned {s : State} {owner h : Nat}
    (hown : ¬∃ e ∈ s.queue, e.seq = h ∧ e.cb = .foreign owner) :
    foreignRequest owner (.cancel h) s = s :=
  if_neg (mt any_ownedBy_iff.1 hown)

/-- Settles O52: one clause after another, from what the callback's parts and the scheduler's Add and Cancel do. -/
theorem foreignCallbackDoesItsActions : Obligations.ForeignCallbackDoesItsActions := by
  intro s owner _
  refine ⟨fun hs => ?_, fun actions rest hs => ?_, rfl, fun a more => ⟨fun hf => ?_, fun hf => ?_⟩,
    fun t => ⟨fun ht => ?_, fun ht => ?_⟩, fun h => ⟨fun hown => ?_, fun hown => ?_⟩⟩
  · simp [foreignCallback, hs]
  · simp [foreignCallback, hs]
  · exact State.andThen_of_none hf _
  · exact State.andThen_of_some hf _
  · rw [callbackAction_request, foreignRequest_add, schedAdd_of_le ht]
  · rw [callbackAction_request, foreignRequest_add, schedAdd_of_lt ht, raiseFault]
  · rw [callbackAction_request, foreignRequest_cancel_of_owned hown]
    simp [schedCancel, bne, beq_eq_decide]
  · rw [callbackAction_request, foreignRequest_cancel_of_not_owned hown]

end Sys2Proof.Machine

/-! # Proofs of the family 10_state: the invariant, the outputs' order, the live counter and the control word -/

/-! ### What the derived reads of a channel depend on -/

namespace Sys2Proof.Machine

/-- States with the same channels have the same derived reads, whatever stands in their other fields. -/
@[simp] theorem State.internal_mk (s : State) (n q k f o r m g i h) (c : Chan) :
    (State.mk s.chans n q k f o r m g i h).internal c = s.internal c := rfl

@[simp] theorem State.overflowTime_mk (s : State) (n q k f o r m g i h) (c : Chan) :
    (State.mk s.chans n q k f o r m g i h).overflowTime c = s.overflowTime c := rfl

@[simp] theorem State.ctlValue_mk (s : State) (n q k f o r m g i h) (c : Chan) :
    (State.mk s.chans n q k f o r m g i h).ctlValue c = s.ctlValue c := rfl

theorem State.internal_congr {s t : State} {c : Chan} (h : s.ch c = t.ch c) : s.internal c = t.internal c := by
  simp [State.internal, State.cascadeBit, h]

theorem State.internal_of_stopped {s : State} {c : Chan} (h : (s.ch c).run = false) : s.internal c = false := by
  simp [State.internal, h]

theorem State.overflowTime_congr {s t : State} {c : Chan} (h : s.ch c = t.ch c) :
    s.overflowTime c = t.overflowTime c := by
  simp [State.overflowTime, State.cyclesToOverflow, State.prescaler, h]

theorem State.ctlValue_congr {s t : State} {c : Chan} (hsel : (s.ch c).sel = (t.ch c).sel)
    (hcas : (s.ch c).cascade = (t.ch c).cascade) (hirq : (s.ch c).irq = (t.ch c).irq)
    (hrun : (s.ch c).run = (t.ch c).run) : s.ctlValue c = t.ctlValue c := by
  simp [State.ctlValue, State.cascadeBit, hsel, hcas, hirq, hrun]

/-! ### The invariant, clause by clause of the queue and of each channel -/

/-- The queue's form (R34, R35) and that no event is past. -/
structure State.QueueOk (s : State) : Prop where
  rising : s.queue.Pairwise fun a b => a.seq < b.seq
  registered : ∀ e ∈ s.queue, e.seq < s.nextSeq
  notPast : ∀ e ∈ s.queue, s.now ≤ e.t

/-- What the invariant says of channel `c` (R25, R31, R32). -/
structure State.ChanOk (s : State) (c : Chan) : Prop where
  cascade0 : c = 0 → (s.ch c).cascade = false
  pending : s.internal c = true → ∃ h, (s.ch c).ev = some h ∧ ⟨s.overflowTime c, h, .ovf c⟩ ∈ s.queue
  idle : s.internal c = false → (s.ch c).ev = none
  owned : ∀ e ∈ s.queue, e.cb = .ovf c → (s.ch c).ev = some e.seq
  started : s.internal c = true → (s.ch c).tStart ≤ s.now

/-- The invariant without its last clause: what holds inside a callback too. -/
structure State.Sound (s : State) : Prop where
  queue : s.QueueOk
  chan : ∀ c, s.ChanOk c

/-- The model's invariant is these clauses and that no callback is running. -/
theorem State.inv_iff {s : State} : s.Inv ↔ s.Sound ∧ s.firing = none where
  mp h := ⟨⟨⟨h.rising, h.registered, h.notPast⟩, fun c =>
    ⟨fun hc => hc ▸ h.cascade0, h.pending c, h.idle c, fun e he => h.owned e he c, h.started c⟩⟩, h.betweenCallbacks⟩
  mpr | ⟨⟨hq, hc⟩, hg⟩ => ⟨(hc 0).cascade0 rfl, hq.rising, hq.registered, hq.notPast, fun c => (hc c).pending,
    fun c => (hc c).idle, fun e he c => (hc c).owned e he, fun c => (hc c).started, hg⟩

section
variable {s t : State} {c : Chan} {p : Event → Bool}

/-! ### The queue's clauses -/

theorem State.QueueOk.congr (h : s.QueueOk) (hq : t.queue = s.queue) (hk : t.nextSeq = s.nextSeq)
    (hn : t.now = s.now) : t.QueueOk where
  rising := hq ▸ h.rising
  registered := by simpa only [hq, hk] using h.registered
  notPast := by simpa only [hq, hn] using h.notPast

/-- Events may leave the queue. -/
theorem State.QueueOk.filter (h : s.QueueOk) (hq : t.queue = s.queue.filter p) (hk : t.nextSeq = s.nextSeq)
    (hn : t.now = s.now) : t.QueueOk where
  rising := hq ▸ h.rising.filter p
  registered e he := hk ▸ h.registered e (List.mem_of_mem_filter (hq ▸ he))
  notPast e he := hn ▸ h.notPast e (List.mem_of_mem_filter (hq ▸ he))

/-- An event registered at a time not in the past may join it (R103). -/
theorem State.QueueOk.append (h : s.QueueOk) {due : Nat} {cb : Callback} (hdue : s.now ≤ due)
    (hq : t.queue = s.queue ++ [⟨due, s.nextSeq, cb⟩]) (hk : t.nextSeq = s.nextSeq + 1) (hn : t.now = s.now) :
    t.QueueOk where
  rising := hq ▸ List.pairwise_append.2 ⟨h.rising, List.pairwise_singleton _ _, by simpa using h.registered⟩
  registered := by
    rw [hq, hk]
    exact List.forall_mem_append.2 ⟨fun e he => Nat.lt_succ_of_lt (h.registered e he), by simp⟩
  notPast := by
    rw [hq, hn]
    exact List.forall_mem_append.2 ⟨h.notPast, by simpa using hdue⟩

/-- A handle names one event (R34, R35). -/
theorem State.QueueOk.event_eq (h : s.QueueOk) {a b : Event} (ha : a ∈ s.queue) (hb : b ∈ s.queue)
    (hab : a.seq = b.seq) : a = b := by
  have hnd : (s.queue.map Event.seq).Nodup := List.pairwise_map.2 (h.rising.imp fun hlt => Nat.ne_of_lt hlt)
  exact List.inj_on_of_nodup_map hnd ha hb hab

/-! ### A channel's clauses -/

/-- A channel's clauses read its event, whether it is internally clocked, and, if so, its start and the time of its overflow; in
the queue they read its own events only. -/
theorem State.ChanOk.congr (h : s.ChanOk c) (h0 : c = 0 → (t.ch c).cascade = false)
    (hint : t.internal c = s.internal c) (hev : (t.ch c).ev = (s.ch c).ev)
    (htime : s.internal c = true → (t.ch c).tStart = (s.ch c).tStart ∧ t.overflowTime c = s.overflowTime c)
    (hn : s.now ≤ t.now) (hq : ∀ e, e.cb = .ovf c → (e ∈ t.queue ↔ e ∈ s.queue)) : t.ChanOk c where
  cascade0 := h0
  pending hi := by
    rw [hint] at hi
    obtain ⟨k, hk, hm⟩ := h.pending hi
    exact ⟨k, hev.trans hk, (hq _ rfl).2 ((htime hi).2 ▸ hm)⟩
  idle hi := hev.trans (h.idle (hint.symm.trans hi))
  owned e he hcb := hev.trans (h.owned e ((hq e hcb).1 he) hcb)
  started hi := by
    rw [hint] at hi
    exact (htime hi).1 ▸ Nat.le_trans (h.started hi) hn

/-- A channel that is not written keeps its clauses while its events stay as they are. -/
theorem State.ChanOk.of_ch_eq (h : s.ChanOk c) (hc : t.ch c = s.ch c) (hn : s.now ≤ t.now)
    (hq : ∀ e, e.cb = .ovf c → (e ∈ t.queue ↔ e ∈ s.queue)) : t.ChanOk c :=
  h.congr (hc ▸ h.cascade0) (State.internal_congr hc) (by rw [hc])
    (fun _ => ⟨by rw [hc], State.overflowTime_congr hc⟩) hn hq

/-- Only an internally clocked channel holds a handle (R31). -/
theorem State.ChanOk.internal_of_ev (h : s.ChanOk c) {k : Nat} (hk : (s.ch c).ev = some k) : s.internal c = true := by
  by_contra hi
  simp [h.idle (Bool.not_eq_true _ ▸ hi)] at hk

/-- The handle a channel holds is that of its pending overflow (R31). -/
theorem State.ChanOk.pending_of_ev (h : s.ChanOk c) {k : Nat} (hk : (s.ch c).ev = some k) :
    ⟨s.overflowTime c, k, .ovf c⟩ ∈ s.queue := by
  obtain ⟨k', hk', hm⟩ := h.pending (h.internal_of_ev hk)
  rwa [Option.some.inj (hk.symm.trans hk')]

/-! ### Changes that keep the invariant -/

/-- The fields that no clause reads: what is emitted, read, refused, fired, issued and scheduled. -/
theorem State.Sound.of_same (h : s.Sound) (hc : t.chans = s.chans) (hn : t.now = s.now) (hq : t.queue = s.queue)
    (hk : t.nextSeq = s.nextSeq) : t.Sound where
  queue := h.queue.congr hq hk hn
  chan c := (h.chan c).of_ch_eq (by simp only [State.ch, hc]) hn.ge fun _ _ => by rw [hq]

/-- Time may pass while no event is left behind (R105). -/
theorem State.Sound.setNow (h : s.Sound) {n : Nat} (hn : s.now ≤ n) (hdue : ∀ e ∈ s.queue, n ≤ e.t) :
    ({ s with now := n } : State).Sound where
  queue := ⟨h.queue.rising, h.queue.registered, hdue⟩
  chan c := (h.chan c).of_ch_eq rfl hn fun _ _ => .rfl

/-- A write to one channel that its clauses do not see. -/
theorem State.Sound.setCh (h : s.Sound) {x : Channel} (h0 : c = 0 → x.cascade = false)
    (hint : (s.setCh c x).internal c = s.internal c) (hev : x.ev = (s.ch c).ev)
    (htime : s.internal c = true → x.tStart = (s.ch c).tStart ∧ (s.setCh c x).overflowTime c = s.overflowTime c) :
    (s.setCh c x).Sound where
  queue := h.queue.congr rfl rfl rfl
  chan d := by
    by_cases hd : d = c
    · subst hd
      exact (h.chan d).congr (by simpa using h0) hint (by simpa using hev) (by simpa using htime) le_rfl fun _ _ => .rfl
    · exact (h.chan d).of_ch_eq (s.ch_setCh_ne x hd) le_rfl fun _ _ => .rfl

/-- Events of foreign components may leave the queue. -/
theorem State.Sound.filter_queue (h : s.Sound) (hp : ∀ e ∈ s.queue, ∀ d, e.cb = .ovf d → p e = true) :
    ({ s with queue := s.queue.filter p } : State).Sound where
  queue := h.queue.filter rfl rfl rfl
  chan d := (h.chan d).of_ch_eq rfl le_rfl fun e hcb =>
    ⟨List.mem_of_mem_filter, fun he => List.mem_filter.2 ⟨he, hp e he d hcb⟩⟩

/-- A foreign component's Add and Cancel (R101). -/
theorem State.Sound.foreignRequest (h : s.Sound) (owner : Nat) (r : ForeignRequest) :
    (foreignRequest owner r s).Sound := by
  cases r with
  | add due =>
    rw [foreignRequest_add]
    by_cases hdue : s.now ≤ due
    · rw [schedAdd_of_le hdue]
      exact ⟨h.queue.append hdue rfl rfl rfl, fun d => (h.chan d).of_ch_eq rfl le_rfl fun e hcb => by
        simp only [List.mem_append, List.mem_singleton, or_iff_left_iff_imp]
        rintro rfl
        cases hcb⟩
    · rw [schedAdd_of_lt (Nat.not_le.1 hdue)]
      exact h.of_same rfl rfl rfl rfl
  | cancel k =>
    by_cases hown : ∃ e ∈ s.queue, e.seq = k ∧ e.cb = .foreign owner
    · rw [foreignRequest_cancel_of_owned hown]
      obtain ⟨f, hf, hfk, hfcb⟩ := hown
      refine h.filter_queue fun e he d hcb => bne_iff_ne.2 fun hek => ?_
      obtain rfl := h.queue.event_eq he hf (hek.trans hfk.symm)
      cases hcb.symm.trans hfcb
    · rwa [foreignRequest_cancel_of_not_owned hown]

/-! ### A channel without its event -/

/-- The invariant while channel `c` has no event: between cancelling its event, or firing it, and registering the next. -/
structure State.Disarmed (s : State) (c : Chan) : Prop where
  queue : s.QueueOk
  others : ∀ d, d ≠ c → s.ChanOk d
  cascade0 : c = 0 → (s.ch c).cascade = false
  noHandle : (s.ch c).ev = none
  noEvent : ∀ e ∈ s.queue, e.cb ≠ .ovf c

/-- A channel that is not on its own clock has no event (R31). -/
theorem State.Sound.disarmed (h : s.Sound) (hi : s.internal c = false) : s.Disarmed c where
  queue := h.queue
  others d _ := h.chan d
  cascade0 := (h.chan c).cascade0
  noHandle := (h.chan c).idle hi
  noEvent e he hcb := by simpa [(h.chan c).idle hi] using (h.chan c).owned e he hcb

/-- A channel without an event meets the invariant if it is not on its own clock. -/
theorem State.Disarmed.sound (h : s.Disarmed c) (hi : s.internal c = false) : s.Sound where
  queue := h.queue
  chan d := by
    by_cases hd : d = c
    · subst hd
      exact ⟨h.cascade0, by simp [hi], fun _ => h.noHandle, fun e he hcb => absurd hcb (h.noEvent e he), by simp [hi]⟩
    · exact h.others d hd

/-- The fields that no clause reads, as for `State.Sound.of_same`. -/
theorem State.Disarmed.of_same (h : s.Disarmed c) (hc : t.chans = s.chans) (hn : t.now = s.now)
    (hq : t.queue = s.queue) (hk : t.nextSeq = s.nextSeq) : t.Disarmed c where
  queue := h.queue.congr hq hk hn
  others d hd := (h.others d hd).of_ch_eq (by simp only [State.ch, hc]) hn.ge fun _ _ => by rw [hq]
  cascade0 := by simpa only [State.ch, hc] using h.cascade0
  noHandle := by simpa only [State.ch, hc] using h.noHandle
  noEvent := hq ▸ h.noEvent

/-- The channel's registers may be written, as long as no handle is. -/
theorem State.Disarmed.setCh (h : s.Disarmed c) {x : Channel} (hx : x.ev = none) (h0 : c = 0 → x.cascade = false) :
    (s.setCh c x).Disarmed c where
  queue := h.queue.congr rfl rfl rfl
  others d hd := (h.others d hd).of_ch_eq (s.ch_setCh_ne x hd) le_rfl fun _ _ => .rfl
  cascade0 := by simpa using h0
  noHandle := by simpa using hx
  noEvent := h.noEvent

/-- Taking the event of `c` from the queue and from the channel, whether it is cancelled or fires. -/
theorem State.Sound.disarm (h : s.Sound) (hp : ∀ e ∈ s.queue, p e = true ↔ e.cb ≠ .ovf c) :
    ({ s.setCh c { s.ch c with ev := none } with queue := s.queue.filter p } : State).Disarmed c where
  queue := h.queue.filter rfl rfl rfl
  others d hd := (h.chan d).of_ch_eq (s.ch_setCh_ne _ hd) le_rfl fun e hcb =>
    ⟨List.mem_of_mem_filter, fun he => List.mem_filter.2 ⟨he, (hp e he).2 (by simp [hcb, hd])⟩⟩
  cascade0 := by simpa using (h.chan c).cascade0
  noHandle := by simp
  noEvent e he := (hp e (List.mem_of_mem_filter he)).1 (List.of_mem_filter he)

/-- The channel's handle names the channel's own event and no other. -/
theorem State.Sound.ev_eq_some_iff (h : s.Sound) {e : Event} (he : e ∈ s.queue) :
    (s.ch c).ev = some e.seq ↔ e.cb = .ovf c where
  mp hev := by rw [h.queue.event_eq he ((h.chan c).pending_of_ev hev) rfl]
  mpr := (h.chan c).owned e he

/-- Cancel leaves the channel without an event (R104, R121, R122). -/
theorem State.Sound.cancelOverflow (h : s.Sound) : (cancelOverflow c s).Disarmed c := by
  rw [cancelOverflow_eq]
  exact h.disarm fun e he => by simp [h.ev_eq_some_iff he]

/-- Registering the overflow of an internally clocked channel at the time R31 gives. -/
theorem State.Disarmed.armOverflow (h : s.Disarmed c) (hf : s.fault = none) (hi : s.internal c = true)
    (hs : (s.ch c).tStart ≤ s.now) (hdue : s.now ≤ s.overflowTime c) :
    (armOverflow c (s.overflowTime c) s).Sound := by
  rw [armOverflow_of_le hf hdue]
  refine ⟨h.queue.append hdue rfl rfl rfl, fun d => ?_⟩
  by_cases hd : d = c
  · subst hd
    have hi' : (s.setCh d { s.ch d with ev := some s.nextSeq }).internal d = true := by
      rw [← hi]; simp [State.internal, State.cascadeBit]
    have ht' : (s.setCh d { s.ch d with ev := some s.nextSeq }).overflowTime d = s.overflowTime d := by
      simp [State.overflowTime, State.cyclesToOverflow, State.prescaler]
    exact {
      cascade0 := by simpa using h.cascade0
      pending := by simp [ht']
      idle := by simp [hi']
      owned := fun e he hcb => by
        rcases List.mem_append.1 he with he | he
        · exact absurd hcb (h.noEvent e he)
        · simp [List.mem_singleton.1 he]
      started := by simpa using fun _ => hs }
  · refine (h.others d hd).of_ch_eq (s.ch_setCh_ne _ hd) le_rfl fun e hcb => ?_
    simp only [List.mem_append, List.mem_singleton, or_iff_left_iff_imp]
    rintro rfl
    exact absurd (Callback.ovf.inj hcb).symm hd

end
end Sys2Proof.Machine

/-! ### The procedures keep the invariant -/

namespace Sys2Proof.Machine

section
variable {s : State} {c : Chan}

/-- A running channel that counts from now on: in cascade mode it has no event, on its own clock the overflow is
registered (R120, R122). -/
theorem State.Disarmed.arm_unless_cascade (h : s.Disarmed c) (hf : s.fault = none) (hrun : (s.ch c).run = true)
    (hs : (s.ch c).tStart = s.now) :
    (if s.cascadeBit c then s
      else Machine.armOverflow c (s.now + s.cyclesToOverflow c (s.ch c).base) s).Sound := by
  split
  · next hb => exact h.sound (by simp [State.internal, hb])
  · next hb =>
    rw [← hs]
    exact h.armOverflow hf (by simp [State.internal, hrun, hb]) hs.le (hs ▸ Nat.le_add_right _ _)

/-- Start (R120). -/
theorem State.Disarmed.startChannel (h : s.Disarmed c) (hf : s.fault = none) (hrun : (s.ch c).run = true) :
    (startChannel c s).Sound :=
  State.Disarmed.arm_unless_cascade (h.setCh (by exact h.noHandle) h.cascade0) hf (by simpa using hrun) (by simp)

/-- Cancel reads a channel's event only, so the other registers may be written before it. -/
theorem cancelOverflow_setCh {x : Channel} (hx : x.ev = (s.ch c).ev) :
    cancelOverflow c (s.setCh c x) = (cancelOverflow c s).setCh c { x with ev := none } := by
  simp only [cancelOverflow_eq, State.ch_setCh_same, State.setCh_setCh, hx]
  simp [State.setCh]

/-- Cancel after a control write (R123). -/
theorem State.Sound.cancelOverflow_setCh (h : s.Sound) {x : Channel} (hx : x.ev = (s.ch c).ev)
    (h0 : c = 0 → x.cascade = false) : (Machine.cancelOverflow c (s.setCh c x)).Disarmed c := by
  rw [Machine.cancelOverflow_setCh hx]
  exact h.cancelOverflow.setCh rfl h0

theorem cancelOverflow_fault (c : Chan) (s : State) : (cancelOverflow c s).fault = s.fault := by
  simp [cancelOverflow_eq]

theorem cancelOverflow_run (c : Chan) (s : State) : ((cancelOverflow c s).ch c).run = (s.ch c).run := by
  simp [cancelOverflow_eq]

/-- Stop (R121), of a channel whose run bit has been cleared. -/
theorem stopChannel_sound (h : (cancelOverflow c s).Disarmed c) (hrun : (s.ch c).run = false) (cur : Half) :
    (stopChannel c cur s).Sound :=
  (h.setCh (x := { (cancelOverflow c s).ch c with base := cur }) h.noHandle h.cascade0).sound
    (State.internal_of_stopped (by simpa [cancelOverflow_run] using hrun))

/-- Rebase (R122). -/
theorem rebaseChannel_sound (h : (cancelOverflow c s).Disarmed c) (hf : s.fault = none) (hrun : (s.ch c).run = true)
    (cur : Half) : (rebaseChannel c cur s).Sound := by
  have harmed := State.Disarmed.arm_unless_cascade
    (h.setCh (x := { (cancelOverflow c s).ch c with base := cur, tStart := (cancelOverflow c s).now })
      h.noHandle h.cascade0)
    ((cancelOverflow_fault c s).trans hf) (by simpa [cancelOverflow_run] using hrun) (by simp)
  simpa [rebaseChannel] using harmed

/-- A control write stores no cascade bit on channel 0 (R25). -/
theorem withControl_cascade_zero (hc : c = 0) (v : Half) (x : Channel) : (withControl c v x).cascade = false := by
  simp [withControl, hc]

/-- A control write that changes nothing but the interrupt enable keeps the invariant (R124). -/
theorem State.Sound.withControl_same (h : s.Sound) {v : Half} (hrun : (withControl c v (s.ch c)).run = (s.ch c).run)
    (hsel : (withControl c v (s.ch c)).sel = (s.ch c).sel)
    (hcas : (s.setCh c (withControl c v (s.ch c))).cascadeBit c = s.cascadeBit c) :
    (s.setCh c (withControl c v (s.ch c))).Sound := by
  refine h.setCh (fun hc => withControl_cascade_zero hc v _) ?_ rfl fun _ => ⟨rfl, ?_⟩
  · simp [State.internal, hrun, hcas]
  · simp only [State.overflowTime, State.cyclesToOverflow, State.prescaler, State.ch_setCh_same, hsel]
    rfl

theorem State.Sound.emit (h : s.Sound) (k : OutKind) (c : Chan) : (emit k c s).Sound := h.of_same rfl rfl rfl rfl

theorem State.Sound.andThen_emit (h : s.Sound) (k : OutKind) (c : Chan) :
    (s.andThen (Machine.emit k c)).Sound := by
  unfold State.andThen
  split
  · exact h
  · exact h.emit k c

/-- A control write (R123): each of its four cases. -/
theorem State.Sound.writeControl (h : s.Sound) (hf : s.fault = none) (c : Chan) (v : Half) :
    (writeControl c v s).Sound := by
  have h0 := fun hc => withControl_cascade_zero (c := c) hc v (s.ch c)
  have hcancel := h.cancelOverflow_setCh (c := c) (x := withControl c v (s.ch c)) rfl h0
  have hstopped : (s.ch c).run = false → (s.setCh c (withControl c v (s.ch c))).Disarmed c := fun hrun =>
    have hd := h.disarmed (State.internal_of_stopped hrun)
    hd.setCh hd.noHandle h0
  simp only [Machine.writeControl]
  refine State.Sound.andThen_emit ?_ _ _
  split
  · next hold hnew => exact (hstopped hold).sound (State.internal_of_stopped hnew)
  · next hold hnew => exact (hstopped hold).startChannel hf hnew
  · next hold hnew => exact stopChannel_sound hcancel hnew _
  · next hold hnew =>
    rw [runningWrite]
    split
    · exact rebaseChannel_sound hcancel hf hnew _
    · next hsame =>
      simp only [not_or, not_not, State.ch_setCh_same] at hsame hnew
      exact h.withControl_same (hnew.trans hold.symm) hsame.1 hsame.2

/-- A reload write (R125). -/
theorem State.Sound.writeReload (h : s.Sound) (c : Chan) (v : Half) : (writeReload c v s).Sound := by
  refine State.Sound.emit (h.setCh (x := { s.ch c with reload := v }) (h.chan c).cascade0 ?_ rfl fun _ => ⟨rfl, ?_⟩) _ _
  · simp [State.internal, State.cascadeBit]
  · simp [State.overflowTime, State.cyclesToOverflow, State.prescaler]

/-- RESET, of one channel and of all (R201). -/
theorem State.Sound.resetChannel (h : s.Sound) (c : Chan) : (resetChannel c s).Sound :=
  (h.cancelOverflow.setCh (x := Channel.zero) rfl fun _ => rfl).sound (State.internal_of_stopped (by simp [Channel.zero]))

theorem State.Sound.resetChannels (h : s.Sound) : (resetChannels s).Sound :=
  (((h.resetChannel 0).resetChannel 1).resetChannel 2).resetChannel 3

/-- The outputs of an overflow and the cascade ticks it makes (R162 to R168): they write channels in cascade mode only. -/
theorem State.Sound.overflowOutputs (h : s.Sound) (c : Chan) : (overflowOutputs c s).Sound := by
  rw [overflowOutputs_eq]
  exact h.of_same rfl rfl rfl rfl

theorem State.Sound.setCount (h : s.Sound) (hc : s.cascadeCounting c = true) (v : Half) (due : Nat) :
    (s.setCh c { s.ch c with base := v, tStart := due }).Sound := by
  have hi : s.internal c = false := by simp_all [State.internal, State.cascadeCounting]
  refine h.setCh (h.chan c).cascade0 ?_ rfl (by simp [hi])
  simp [State.internal, State.cascadeBit]

theorem State.Sound.tickChain (h : s.Sound) (cs : List Chan) : (tickChain cs s).Sound := by
  induction cs generalizing s with
  | nil => exact h
  | cons n rest ih =>
    unfold Machine.tickChain
    split
    · next hn =>
      split
      · exact ih ((h.setCount hn _ _).overflowOutputs n)
      · exact h.setCount hn _ _
    · exact h

theorem State.Sound.overflowCommon (h : s.Sound) (c : Chan) : (overflowCommon c s).Sound :=
  (h.overflowOutputs c).tickChain _

/-- OVF of an internally clocked channel, delivered at its time and with its event taken (R160, R161). -/
theorem deliverOverflow_sound (h : (s.setCh c { s.ch c with ev := none }).Disarmed c) (hf : s.fault = none)
    (hi : s.internal c = true) : (deliverOverflow c s.now s).Sound := by
  have hd := h.setCh (x := { s.ch c with ev := none, base := (s.ch c).reload, tStart := s.now }) rfl
    (by simpa using h.cascade0)
  rw [State.setCh_setCh] at hd
  have hs := hd.armOverflow (by exact hf) (by rw [← hi]; simp [State.internal, State.cascadeBit]) (by simp)
    (by simp [State.overflowTime])
  rw [armOverflow_of_le (by exact hf) (by simp [State.overflowTime])] at hs
  rw [deliverOverflow_of_le hf (Nat.le_add_right _ _)]
  simpa [State.overflowTime, State.cyclesToOverflow, State.prescaler] using hs.overflowCommon c

end

end Sys2Proof.Machine

/-! ### What an operation emits and returns -/

namespace Sys2Proof.Machine

/-- From `s` to `t` no time passes, the same callback is running, the outputs are appended to, all of them at this time, and
the read values are appended to (R9, R37). -/
structure Emits (s t : State) : Prop where
  now : t.now = s.now
  firing : t.firing = s.firing
  out : ∃ l, t.out = s.out ++ l ∧ ∀ o ∈ l, o.time = s.now
  reads : s.reads <+: t.reads

namespace Emits

variable {s t u : State}

/-- What emits and returns nothing. -/
theorem silent (hn : t.now = s.now) (hg : t.firing = s.firing) (ho : t.out = s.out) (hr : t.reads = s.reads) :
    Emits s t :=
  ⟨hn, hg, ⟨[], by simp [ho]⟩, hr ▸ List.prefix_rfl⟩

theorem refl (s : State) : Emits s s := silent rfl rfl rfl rfl

theorem trans (h : Emits s t) (k : Emits t u) : Emits s u := by
  obtain ⟨l, hl, htl⟩ := h.out
  obtain ⟨m, hm, htm⟩ := k.out
  refine ⟨k.now.trans h.now, k.firing.trans h.firing, ⟨l ++ m, by rw [hm, hl, List.append_assoc], ?_⟩,
    h.reads.trans k.reads⟩
  exact List.forall_mem_append.2 ⟨htl, fun o ho => (htm o ho).trans h.now⟩

theorem setCh (s : State) (c : Chan) (x : Channel) : Emits s (s.setCh c x) := silent rfl rfl rfl rfl

theorem emit (k : OutKind) (c : Chan) (s : State) : Emits s (emit k c s) :=
  ⟨rfl, rfl, ⟨[⟨k, c, s.now⟩], rfl, by simp⟩, List.prefix_rfl⟩

theorem returnValue (v : ReadValue) (s : State) : Emits s (returnValue v s) :=
  ⟨rfl, rfl, ⟨[], by simp⟩, List.prefix_append _ _⟩

theorem andThen (h : Emits s t) {f : State → State} (hf : ∀ u, Emits u (f u)) : Emits s (t.andThen f) := by
  unfold State.andThen
  split
  · exact h
  · exact h.trans (hf t)

theorem schedAdd (due : Nat) (cb : Callback) (s : State) : Emits s (schedAdd due cb s) := by
  unfold Machine.schedAdd
  split <;> exact silent rfl rfl rfl rfl

theorem foreignRequest (owner : Nat) (r : ForeignRequest) (s : State) : Emits s (foreignRequest owner r s) := by
  cases r with
  | add due => exact schedAdd due _ s
  | cancel k =>
    unfold Machine.foreignRequest
    dsimp only
    split <;> exact silent rfl rfl rfl rfl

theorem armOverflow (c : Chan) (due : Nat) (s : State) : Emits s (armOverflow c due s) :=
  (schedAdd due _ s).andThen fun u => setCh u c _

theorem cancelOverflow (c : Chan) (s : State) : Emits s (cancelOverflow c s) := by
  rw [cancelOverflow_eq]
  exact silent rfl rfl rfl rfl

theorem startChannel (c : Chan) (s : State) : Emits s (startChannel c s) := by
  unfold Machine.startChannel
  dsimp only
  split
  · exact setCh s c _
  · exact (setCh s c _).trans (armOverflow c _ _)

theorem stopChannel (c : Chan) (cur : Half) (s : State) : Emits s (stopChannel c cur s) :=
  (cancelOverflow c s).trans (setCh _ c _)

theorem rebaseChannel (c : Chan) (cur : Half) (s : State) : Emits s (rebaseChannel c cur s) := by
  have h := (cancelOverflow c s).trans (setCh (Machine.cancelOverflow c s) c
    { (Machine.cancelOverflow c s).ch c with base := cur, tStart := (Machine.cancelOverflow c s).now })
  unfold Machine.rebaseChannel
  dsimp only
  split
  · exact h
  · exact h.trans (armOverflow c _ _)

theorem runningWrite (c : Chan) (cur : Half) (sel : BitVec 2) (cas : Bool) (s : State) :
    Emits s (runningWrite c cur sel cas s) := by
  unfold Machine.runningWrite
  split
  · exact rebaseChannel c cur s
  · exact refl s

theorem writeControl (c : Chan) (v : Half) (s : State) : Emits s (writeControl c v s) := by
  have h := setCh s c (withControl c v (s.ch c))
  unfold Machine.writeControl
  dsimp only
  refine andThen ?_ fun u => emit .rate c u
  split
  · exact h
  · exact h.trans (startChannel c _)
  · exact h.trans (stopChannel c _ _)
  · exact h.trans (runningWrite c _ _ _ _)

theorem writeReload (c : Chan) (v : Half) (s : State) : Emits s (writeReload c v s) :=
  (setCh s c _).trans (emit .rate c _)

theorem resetChannel (c : Chan) (s : State) : Emits s (resetChannel c s) :=
  (cancelOverflow c s).trans (setCh _ c _)

theorem resetChannels (s : State) : Emits s (resetChannels s) :=
  (((resetChannel 0 s).trans (resetChannel 1 _)).trans (resetChannel 2 _)).trans (resetChannel 3 _)

theorem overflowOutputs (c : Chan) (s : State) : Emits s (overflowOutputs c s) := by
  rw [overflowOutputs_eq]
  refine ⟨rfl, rfl, ⟨_, List.append_assoc .., ?_⟩, List.prefix_rfl⟩
  cases (s.ch c).irq <;> cases audioCadence c <;> simp

theorem tickChain (cs : List Chan) (s : State) : Emits s (tickChain cs s) := by
  induction cs generalizing s with
  | nil => exact refl s
  | cons n rest ih =>
    unfold Machine.tickChain
    split
    · split
      · exact ((setCh s n _).trans (overflowOutputs n _)).trans (ih _)
      · exact setCh s n _
    · exact refl s

theorem deliverOverflow (c : Chan) (tReq : Nat) (s : State) : Emits s (deliverOverflow c tReq s) :=
  ((setCh s c _).trans (armOverflow c _ _)).andThen fun u => (overflowOutputs c u).trans (tickChain _ _)

end Emits

/-! ### The operations that are neither OVF nor ADVANCE -/

/-- The changes of state that the register operations and RESET make (R120 to R143, R201). -/
inductive BlockOp : (State → State) → Prop where
  | read (v : State → ReadValue) : BlockOp fun s => returnValue (v s) s
  | reload (c : Chan) (v : State → Half) : BlockOp fun s => writeReload c (v s) s
  | control (c : Chan) (v : Half) : BlockOp (writeControl c v)
  | reloadControl (c : Chan) (v w : Half) : BlockOp fun s => writeControl c w (writeReload c v s)
  | nothing : BlockOp id
  | reset : BlockOp resetChannels

/-- Every operation but OVF and ADVANCE makes one of those changes, unless a fault is recorded. -/
theorem exec_eq_unlessFaulted {i : Instr} (hovf : ∀ c, i ≠ .ovf c) (hadv : ∀ T, i ≠ .advance T) :
    ∃ f, BlockOp f ∧ ∀ s, exec i s = unlessFaulted s f := by
  cases i with
  | rd8CntLo c => exact ⟨_, .read fun s => .byte (lowByte (s.counter c)), fun _ => rfl⟩
  | rd8CntHi c => exact ⟨_, .read fun s => .byte (highByte (s.counter c)), fun _ => rfl⟩
  | rd8CtlLo c => exact ⟨_, .read fun s => .byte (lowByte (s.ctlValue c)), fun _ => rfl⟩
  | rd8CtlHi c => exact ⟨_, .read fun _ => .byte 0#8, fun _ => rfl⟩
  | rd16Cnt c => exact ⟨_, .read fun s => .half (s.counter c), fun _ => rfl⟩
  | rd16Ctl c => exact ⟨_, .read fun s => .half (s.ctlValue c), fun _ => rfl⟩
  | rd32 c => exact ⟨_, .read fun s => .word (joinHalves (s.ctlValue c) (s.counter c)), fun _ => rfl⟩
  | rdReload c => exact ⟨_, .read fun s => .half (s.ch c).reload, fun _ => rfl⟩
  | wr8ReloadLo c b => exact ⟨_, .reload c fun s => withLowByte (s.ch c).reload b, fun _ => rfl⟩
  | wr8ReloadHi c b => exact ⟨_, .reload c fun s => withHighByte (s.ch c).reload b, fun _ => rfl⟩
  | wr16Reload c v => exact ⟨_, .reload c fun _ => v, fun _ => rfl⟩
  | wr8CtlLo c b => exact ⟨_, .control c (b.setWidth 16), fun _ => rfl⟩
  | wr8CtlHi c b => exact ⟨_, .nothing, fun _ => rfl⟩
  | wr16Ctl c v => exact ⟨_, .control c v, fun _ => rfl⟩
  | wr32 c w => exact ⟨_, .reloadControl c (lowHalf w) (highHalf w), fun _ => rfl⟩
  | reset => exact ⟨_, .reset, fun _ => rfl⟩
  | ovf c => exact absurd rfl (hovf c)
  | advance T => exact absurd rfl (hadv T)

theorem BlockOp.emits {f : State → State} (h : BlockOp f) (s : State) : Emits s (f s) := by
  cases h with
  | read v => exact .returnValue _ s
  | reload c v => exact .writeReload c _ s
  | control c v => exact .writeControl c v s
  | reloadControl c v w => exact (Emits.writeReload c v s).trans (.writeControl c w _)
  | nothing => exact .refl s
  | reset => exact .resetChannels s

theorem BlockOp.sound {f : State → State} (h : BlockOp f) {s : State} (hs : s.Sound) (hf : s.fault = none) :
    (f s).Sound := by
  cases h with
  | read v => exact hs.of_same rfl rfl rfl rfl
  | reload c v => exact hs.writeReload c _
  | control c v => exact hs.writeControl hf c v
  | reloadControl c v w => exact (hs.writeReload c v).writeControl hf c w
  | nothing => exact hs
  | reset => exact hs.resetChannels

/-! ### Foreign callbacks -/

/-- The scheduler is not delivering an overflow: it runs a foreign callback, or none (R77). -/
def State.NotDelivering (s : State) : Prop := ∀ c, s.deliveredOverflow c = none

theorem State.notDelivering_of_none {s : State} (h : s.firing = none) : s.NotDelivering := fun c => by
  simp [State.deliveredOverflow, h]

theorem State.notDelivering_of_foreign {s : State} {e : Event} {owner : Nat} (h : s.firing = some e)
    (he : e.cb = .foreign owner) : s.NotDelivering := fun c => by
  simp [State.deliveredOverflow, h, he]

theorem State.NotDelivering.congr {s t : State} (h : s.NotDelivering) (hg : t.firing = s.firing) : t.NotDelivering :=
  fun c => by simpa only [State.deliveredOverflow, hg] using h c

/-- Then an OVF word is refused (R77, R182). -/
theorem execOvf_of_notDelivering {s : State} (h : s.NotDelivering) (hf : s.fault = none) (c : Chan) :
    execOvf c s = .refused (.atInterface .hostOvf) := by
  simp [execOvf, hf, h c]

theorem execOvf_of_fault {s : State} (hf : s.fault ≠ none) (c : Chan) : execOvf c s = .next s := by
  simp [execOvf, Option.isSome_iff_ne_none.2 hf]

section
variable {s t : State} {c : Chan}

/-- What one action of a foreign callback can do. -/
theorem callbackAction_cases (hg : s.NotDelivering) (owner : Nat) (a : CallbackAction) :
    callbackAction owner a s = s ∨ (∃ k, callbackAction owner a s = markRefusal k s) ∨
      (∃ r, callbackAction owner a s = foreignRequest owner r s) ∨
        s.fault = none ∧ ∃ f, BlockOp f ∧ callbackAction owner a s = f s := by
  cases a with
  | request r => exact .inr (.inr (.inl ⟨r, rfl⟩))
  | op bytes =>
    cases hd : decode bytes with
    | refuse k => exact .inr (.inl ⟨k, by simp [callbackAction, hd]⟩)
    | ok i rest =>
      rw [callbackAction_of_decode_ok hd]
      by_cases hadv : ∃ T, i = .advance T
      · obtain ⟨T, rfl⟩ := hadv
        exact .inr (.inl ⟨_, rfl⟩)
      by_cases hovf : ∃ c, i = .ovf c
      · obtain ⟨c, rfl⟩ := hovf
        by_cases hf : s.fault = none
        · exact .inr (.inl ⟨_, by rw [callbackOp, execOvf_of_notDelivering hg hf, settle]⟩)
        · exact .inl (by rw [callbackOp, execOvf_of_fault hf, settle])
      · simp only [not_exists] at hadv hovf
        obtain ⟨f, hop, hexec⟩ := exec_eq_unlessFaulted hovf hadv
        rw [callbackOp_eq_exec hadv, hexec]
        by_cases hf : s.fault = none
        · exact .inr (.inr (.inr ⟨hf, f, hop, by rw [unlessFaulted_of_none hf, settle]⟩))
        · exact .inl (by rw [unlessFaulted_of_some hf, settle])

theorem callbackAction_emits (hg : s.NotDelivering) (owner : Nat) (a : CallbackAction) :
    Emits s (callbackAction owner a s) := by
  obtain h | ⟨k, h⟩ | ⟨r, h⟩ | ⟨_, f, hop, h⟩ := callbackAction_cases hg owner a <;> rw [h]
  · exact .refl s
  · exact .silent rfl rfl rfl rfl
  · exact .foreignRequest owner r s
  · exact hop.emits s

theorem State.Sound.callbackAction (h : s.Sound) (hg : s.NotDelivering) (owner : Nat) (a : CallbackAction) :
    (callbackAction owner a s).Sound := by
  obtain heq | ⟨k, heq⟩ | ⟨r, heq⟩ | ⟨hf, f, hop, heq⟩ := callbackAction_cases hg owner a <;> rw [heq]
  · exact h
  · exact h.of_same rfl rfl rfl rfl
  · exact h.foreignRequest owner r
  · exact hop.sound h hf

theorem callbackActions_sound_emits (h : s.Sound) (hg : s.NotDelivering) (owner : Nat) (as : List CallbackAction) :
    (callbackActions owner as s).Sound ∧ Emits s (callbackActions owner as s) := by
  induction as generalizing s with
  | nil => exact ⟨h, .refl s⟩
  | cons a as ih =>
    have h1 := h.callbackAction hg owner a
    have e1 := callbackAction_emits hg owner a
    obtain ⟨h2, e2⟩ := ih h1 (hg.congr e1.firing)
    simp only [callbackActions, State.andThen]
    split
    · exact ⟨h1, e1⟩
    · exact ⟨h2, e1.trans e2⟩

theorem foreignCallback_sound_emits (h : s.Sound) (hg : s.NotDelivering) (owner : Nat) :
    (foreignCallback owner s).Sound ∧ Emits s (foreignCallback owner s) := by
  unfold foreignCallback
  split
  · exact ⟨h, .refl s⟩
  · next as rest _ =>
    obtain ⟨h', e⟩ := callbackActions_sound_emits (s := { s with schedule := rest }) (h.of_same rfl rfl rfl rfl)
      (hg.congr rfl) owner as
    have htaken : Emits s { s with schedule := rest } := .silent rfl rfl rfl rfl
    exact ⟨h', htaken.trans e⟩

/-! ### Firing an event -/

/-- The event that fires next is the first in time (R105, R106). -/
theorem State.nextDue_le {T : Nat} {e x : Event} (h : s.nextDue T = some e) (hx : x ∈ s.queue) : e.t ≤ x.t := by
  have hT := (State.nextDue_mem h).2
  by_cases hxT : x.t ≤ T
  · have hleast := State.nextDue_least h hx hxT
    rw [Bool.eq_false_iff, Ne, Event.before_iff] at hleast
    omega
  · omega

theorem State.nextDue_now_le (h : s.Sound) {T : Nat} {e : Event} (he : s.nextDue T = some e) : s.now ≤ e.t :=
  h.queue.notPast e (State.nextDue_mem he).1

/-- At the time of the event that fires next, before it leaves the queue, the invariant holds. -/
theorem State.Sound.setNow_nextDue (h : s.Sound) {T : Nat} {e : Event} (he : s.nextDue T = some e) :
    ({ s with now := e.t } : State).Sound :=
  h.setNow (State.nextDue_now_le h he) fun _ hx => State.nextDue_le he hx

/-- A foreign event leaves the queue and its callback begins (R105). -/
theorem State.Sound.beginFiring_foreign (h : s.Sound) {T owner : Nat} {e : Event} (he : s.nextDue T = some e)
    (hcb : e.cb = .foreign owner) : (s.beginFiring e).Sound := by
  refine State.Sound.of_same ((h.setNow_nextDue he).filter_queue (p := fun x => x != e) fun x hx d hd => ?_)
    rfl rfl rfl rfl
  rw [bne_iff_ne]
  rintro rfl
  cases hcb.symm.trans hd

/-- An overflow event leaves the queue and the channel, and its callback begins (R105, R160). -/
theorem State.Sound.beginFiring_ovf (h : s.Sound) {T : Nat} {e : Event} (he : s.nextDue T = some e)
    (hcb : e.cb = .ovf c) :
    ((s.beginFiring e).setCh c { (s.beginFiring e).ch c with ev := none }).Disarmed c := by
  have hmem := (State.nextDue_mem he).1
  refine State.Disarmed.of_same ((h.setNow_nextDue he).disarm (c := c) (p := fun x => x != e) fun x hx => ?_)
    rfl rfl rfl rfl
  rw [bne_iff_ne, not_iff_not]
  constructor
  · rintro rfl; exact hcb
  · intro hx'
    exact h.queue.event_eq hx hmem
      (Option.some.inj (((h.chan c).owned x hx hx').symm.trans ((h.chan c).owned e hmem hcb)))

/-- The callback ends. -/
theorem Emits.endFiring (h : Emits s t) : Emits { s with firing := none } { t with firing := none } :=
  ⟨h.now, rfl, h.out, h.reads⟩

/-- Firing the next due event (R105) keeps the invariant, and everything is emitted at the event's time. -/
theorem fire_sound_emits (h : s.Sound) (hf : s.fault = none) {T : Nat} {e : Event} (he : s.nextDue T = some e) :
    (fire e s).Sound ∧ Emits { s with now := e.t, firing := none } (fire e s) := by
  have hbegin : Emits { s with now := e.t, firing := none } { s.beginFiring e with firing := none } :=
    .silent rfl rfl rfl rfl
  cases hcb : e.cb with
  | ovf c =>
    have hfire : fire e s = { deliverOverflow c e.t (s.beginFiring e) with firing := none } := by
      simp [fire, hcb]
    have hi : s.internal c = true := (h.chan c).internal_of_ev ((h.chan c).owned e (State.nextDue_mem he).1 hcb)
    rw [hfire]
    exact ⟨(deliverOverflow_sound (h.beginFiring_ovf he hcb) hf hi).of_same rfl rfl rfl rfl,
      hbegin.trans (Emits.deliverOverflow c e.t _).endFiring⟩
  | foreign owner =>
    have hfire : fire e s = { foreignCallback owner (s.beginFiring e) with firing := none } := by
      simp [fire, hcb]
    obtain ⟨hs, hem⟩ := foreignCallback_sound_emits (h.beginFiring_foreign he hcb)
      (State.notDelivering_of_foreign rfl hcb) owner
    rw [hfire]
    exact ⟨hs.of_same rfl rfl rfl rfl, hbegin.trans hem.endFiring⟩

/-! ### ADVANCE -/

/-- What holds of the state an ADVANCE starts from, is kept by each event it fires, and, once no event is due, by the passing
of time to the target, holds of the state it ends in (R105, R181). -/
theorem advanceLoop_induction {T : Nat} {P : State → Prop}
    (hfire : ∀ s e, P s → s.fault = none → s.nextDue T = some e → P (fire e s))
    (hend : ∀ s, P s → s.nextDue T = none → P { s with now := T })
    (fuel : Nat) {s t : State} (hs : P s) (hf : s.fault = none) (ht : advanceLoop T fuel s = some t) : P t := by
  induction fuel generalizing s with
  | zero =>
    cases hdue : s.nextDue T with
    | none =>
      obtain rfl : { s with now := T } = t := by simpa [advanceLoop, hdue] using ht
      exact hend s hs hdue
    | some e => simp [advanceLoop, hdue] at ht
  | succ fuel ih =>
    cases hdue : s.nextDue T with
    | none =>
      obtain rfl : { s with now := T } = t := by simpa [advanceLoop, hdue] using ht
      exact hend s hs hdue
    | some e =>
      have hnext := hfire s e hs hf hdue
      by_cases hf' : (fire e s).fault = none
      · exact ih hnext hf' (by simpa [advanceLoop, hdue, hf'] using ht)
      · obtain rfl : fire e s = t := by
          simpa [advanceLoop, hdue, Option.isSome_iff_ne_none.2 hf'] using ht
        exact hnext

end
end Sys2Proof.Machine

/-! ### Steps -/

namespace Sys2Proof.Machine

/-- From `s` to `t` time does not go back, outputs of the time between are appended in order, and read values are appended
(R9, R37, R100). -/
structure Grows (s t : State) : Prop where
  now : s.now ≤ t.now
  out : ∃ l, t.out = s.out ++ l ∧ (∀ o ∈ l, s.now ≤ o.time ∧ o.time ≤ t.now) ∧ l.Pairwise fun a b => a.time ≤ b.time
  reads : s.reads <+: t.reads

section
variable {s t u : State}

theorem Grows.trans (h : Grows s t) (k : Grows t u) : Grows s u := by
  obtain ⟨l, hl, htl, hol⟩ := h.out
  obtain ⟨m, hm, htm, hom⟩ := k.out
  refine ⟨h.now.trans k.now, ⟨l ++ m, by rw [hm, hl, List.append_assoc], ?_, ?_⟩, h.reads.trans k.reads⟩
  · exact List.forall_mem_append.2 ⟨fun o ho => ⟨(htl o ho).1, (htl o ho).2.trans k.now⟩,
      fun o ho => ⟨h.now.trans (htm o ho).1, (htm o ho).2⟩⟩
  · exact List.pairwise_append.2 ⟨hol, hom, fun a ha b hb => (htl a ha).2.trans (htm b hb).1⟩

/-- What is emitted at one time, now or later, is in order. -/
theorem Emits.grows {n : Nat} {g : Option Event} (h : Emits { s with now := n, firing := g } t) (hn : s.now ≤ n) :
    Grows s t := by
  obtain ⟨l, hl, htl⟩ := h.out
  have hnow : t.now = n := h.now
  refine ⟨hnow ▸ hn, ⟨l, hl, fun o ho => ?_, List.pairwise_of_forall_mem_list fun a ha b hb => ?_⟩, h.reads⟩
  · rw [htl o ho, hnow]
    exact ⟨hn, le_rfl⟩
  · rw [htl a ha, htl b hb]

theorem Emits.grows_now (h : Emits s t) : Grows s t := Emits.grows (n := s.now) (g := s.firing) h le_rfl

/-- An ADVANCE under the invariant, with a target not in the past (R105). -/
theorem advanceLoop_sound_grows (h : s.Sound) (hg : s.firing = none) (hf : s.fault = none) {T : Nat} (hT : s.now ≤ T)
    {fuel : Nat} (ht : advanceLoop T fuel s = some t) : t.Sound ∧ t.firing = none ∧ Grows s t := by
  have hloop := advanceLoop_induction (T := T)
    (P := fun u => u.Sound ∧ u.now ≤ T ∧ u.firing = none ∧ Grows s u) ?_ ?_ fuel
    ⟨h, hT, hg, (Emits.refl s).grows_now⟩ hf ht
  · exact ⟨hloop.1, hloop.2.2⟩
  · rintro u e ⟨hu, -, -, hsu⟩ hfu he
    obtain ⟨hs', hem⟩ := fire_sound_emits hu hfu he
    exact ⟨hs', hem.now ▸ (State.nextDue_mem he).2, hem.firing, hsu.trans (hem.grows (State.nextDue_now_le hu he))⟩
  · rintro u ⟨hu, huT, hgu, hsu⟩ hnone
    rw [State.nextDue_eq_none] at hnone
    have hend : Emits { u with now := T, firing := u.firing } { u with now := T } := .refl _
    exact ⟨hu.setNow huT fun e he => (hnone e he).le, le_rfl, hgu, hsu.trans (hend.grows huT)⟩

/-- What ADVANCE can answer. -/
theorem execAdvance_cases {T : Nat} (hf : s.fault = none) (h : execAdvance T s = .next t) :
    (T < s.now ∧ t = raiseFault .advanceBackward T s) ∨
      (s.now ≤ T ∧ advanceLoop T (s.advanceBound T) s = some t) := by
  simp only [execAdvance, hf, Option.isSome_none, Bool.false_eq_true, if_false] at h
  split at h
  · next hT =>
    cases h
    exact .inl ⟨hT, rfl⟩
  · next hT =>
    split at h
    · next hloop =>
      cases h
      exact .inr ⟨Nat.not_lt.1 hT, hloop⟩
    · cases h

theorem execAdvance_sound_grows (h : s.Sound) (hg : s.firing = none) (hf : s.fault = none) {T : Nat}
    (ht : execAdvance T s = .next t) : t.Sound ∧ t.firing = none ∧ Grows s t := by
  obtain ⟨-, rfl⟩ | ⟨hT, hloop⟩ := execAdvance_cases hf ht
  · have hraise : Emits s (raiseFault .advanceBackward T s) := .silent rfl rfl rfl rfl
    exact ⟨h.of_same rfl rfl rfl rfl, hg, hraise.grows_now⟩
  · exact advanceLoop_sound_grows h hg hf hT hloop

/-- A fetch takes from the input and changes nothing else. -/
theorem State.fetch_request {owner : Nat} {r : ForeignRequest} (h : s.fetch = .request owner r u) :
    ∃ rest, u = { s with input := rest } := by
  unfold State.fetch at h
  split at h
  · cases h
  · cases h; exact ⟨_, rfl⟩
  · split at h <;> cases h

theorem State.fetch_operation {i : Instr} (h : s.fetch = .operation i u) : ∃ rest, u = { s with input := rest } := by
  unfold State.fetch at h
  split at h
  · cases h
  · cases h
  · split at h
    · cases h; exact ⟨_, rfl⟩
    · cases h

/-- What an operation of the host can do: OVF is refused from it (R77). -/
theorem exec_cases {i : Instr} (hf : s.fault = none) (hg : s.NotDelivering) (h : exec i s = .next t) :
    (∃ f, BlockOp f ∧ t = f s) ∨ ∃ T, execAdvance T s = .next t := by
  by_cases hadv : ∃ T, i = .advance T
  · obtain ⟨T, rfl⟩ := hadv
    exact .inr ⟨T, h⟩
  by_cases hovf : ∃ c, i = .ovf c
  · obtain ⟨c, rfl⟩ := hovf
    cases (execOvf_of_notDelivering hg hf c).symm.trans h
  · simp only [not_exists] at hadv hovf
    obtain ⟨f, hop, hexec⟩ := exec_eq_unlessFaulted hovf hadv
    rw [hexec, unlessFaulted_of_none hf] at h
    cases h
    exact .inl ⟨f, hop, rfl⟩

/-- What a step between callbacks can do: nothing; or, once it has taken its item from the input, what a foreign component
requests, one of the block's changes, or an ADVANCE. -/
theorem step_cases (hg : s.firing = none) (h : step s = .next t) :
    t = s ∨ ∃ rest, (∃ owner r, t = foreignRequest owner r { s with input := rest }) ∨
      s.fault = none ∧ ((∃ f, BlockOp f ∧ t = f { s with input := rest }) ∨
        ∃ T, execAdvance T { s with input := rest } = .next t) := by
  by_cases hf : s.fault = none
  · simp only [step, hf, Option.isSome_none, Bool.false_eq_true, if_false] at h
    split at h
    · cases h; exact .inl rfl
    · next owner r u hu =>
      obtain ⟨rest, rfl⟩ := State.fetch_request hu
      cases h
      exact .inr ⟨rest, .inl ⟨owner, r, rfl⟩⟩
    · next i u hu =>
      obtain ⟨rest, rfl⟩ := State.fetch_operation hu
      exact .inr ⟨rest, .inr ⟨hf, exec_cases (by exact hf) (State.notDelivering_of_none (by exact hg)) h⟩⟩
    · cases h
  · have hstep : step s = .next s := by simp [step, Option.isSome_iff_ne_none.2 hf]
    cases hstep.symm.trans h
    exact .inl rfl

/-- Every step keeps the invariant and appends to the observation in order. -/
theorem step_inv_grows (h : s.Inv) (ht : step s = .next t) : t.Inv ∧ Grows s t := by
  obtain ⟨hs, hg⟩ := State.inv_iff.1 h
  rw [State.inv_iff, and_assoc]
  have hfrom : ∀ {u : State}, u.Sound → Emits s u → u.Sound ∧ u.firing = none ∧ Grows s u := fun hu hem =>
    ⟨hu, hem.firing.trans hg, hem.grows_now⟩
  obtain rfl | ⟨rest, hcases⟩ := step_cases hg ht
  · exact hfrom hs (.refl _)
  have hs' : ({ s with input := rest } : State).Sound := hs.of_same rfl rfl rfl rfl
  have htaken : Emits s { s with input := rest } := .silent rfl rfl rfl rfl
  obtain ⟨owner, r, rfl⟩ | ⟨hf, ⟨f, hop, rfl⟩ | ⟨T, hadv⟩⟩ := hcases
  · exact hfrom (hs'.foreignRequest owner r) (htaken.trans (.foreignRequest owner r _))
  · exact hfrom (hop.sound hs' hf) (htaken.trans (hop.emits _))
  · obtain ⟨hst, hgt, hgrows⟩ := execAdvance_sound_grows hs' hg hf hadv
    exact ⟨hst, hgt, htaken.grows_now.trans hgrows⟩

end

/-- Settles O3: each change a step can make keeps the invariant, split into the queue's clauses and each channel's. -/
theorem stepKeepsInvariant : Obligations.StepKeepsInvariant := fun _ _ h ht => (step_inv_grows h ht).1

/-- Settles O7: each change a step can make emits at one time, and ADVANCE fires events at rising times. -/
theorem outputsAreAppendedInOrder : Obligations.OutputsAreAppendedInOrder := by
  intro s t h ht
  obtain ⟨-, hout, l, hreads⟩ := (step_inv_grows h ht).2
  exact ⟨hout, l, hreads.symm⟩

/-- Settles O2: at power-on the queue is empty and every channel stopped, and no clause reads what is issued or scheduled. -/
theorem powerOnMeetsInvariant : Obligations.PowerOnMeetsInvariant := by
  have hq : State.reset.QueueOk := ⟨by simp, by simp, by simp⟩
  have hi : ∀ c, State.reset.internal c = false := fun c => State.internal_of_stopped (by simp [Channel.zero])
  have hs : State.reset.Sound :=
    ⟨hq, fun c => ⟨by simp [Channel.zero], by simp [hi], by simp [Channel.zero], by simp, by simp [hi]⟩⟩
  exact ⟨State.inv_iff.2 ⟨hs, rfl⟩, fun _ _ => State.inv_iff.2 ⟨hs.of_same rfl rfl rfl rfl, rfl⟩⟩

/-! ### The live counter -/

/-- Settles O16: the model's reconstruction, with the prescaler read from the table of R28. -/
theorem counterIsReconstructed : Obligations.CounterIsReconstructed := by
  intro s c
  rw [← State.internal_eq_true]
  refine ⟨fun hi => ?_, fun hi => State.counter_of_not_internal (Bool.not_eq_true _ ▸ hi)⟩
  rw [State.counter_of_internal hi, State.elapsedTicks, State.prescaler, prescale_eq_table]

/-- Settles O17: the overflow is pending and not past, so the ticks since the start are at most those to the overflow, with
equality at its time only. -/
theorem clampOnlyAtTheOverflowInstant : Obligations.ClampOnlyAtTheOverflowInstant := by
  intro s c hinv hi
  have hstart : (s.ch c).tStart ≤ s.now := hinv.started c hi
  obtain ⟨k, -, hm⟩ := hinv.pending c hi
  have hdue : s.now ≤ s.overflowTime c := hinv.notPast _ hm
  have hbase : (s.ch c).base.toNat < 65536 := (s.ch c).base.isLt
  have htime : s.overflowTime c = (s.ch c).tStart + (65536 - (s.ch c).base.toNat) * s.prescaler c := rfl
  have hcount := State.counter_of_internal hi
  refine ⟨hstart, hdue, fun hbefore => ?_, fun hat => ?_⟩
  · have hticks : s.elapsedTicks c < 65536 - (s.ch c).base.toNat := Nat.div_lt_of_lt_mul (by
      rw [Nat.mul_comm]
      omega)
    exact ⟨by omega, by omega⟩
  · have hticks : s.elapsedTicks c = 65536 - (s.ch c).base.toNat := by
      rw [State.elapsedTicks, hat, htime, Nat.add_sub_cancel_left]
      exact Nat.mul_div_cancel _ (prescale_pos _)
    exact ⟨by omega, BitVec.eq_of_toNat_eq (by rw [hcount]; simp; omega)⟩

/-! ### The control word -/

section
variable {s : State} {c : Chan}

/-- A write of a channel's other registers leaves its control word. -/
theorem State.ctlValue_setCh {x : Channel} (hsel : x.sel = (s.ch c).sel) (hcas : x.cascade = (s.ch c).cascade)
    (hirq : x.irq = (s.ch c).irq) (hrun : x.run = (s.ch c).run) : (s.setCh c x).ctlValue c = s.ctlValue c :=
  State.ctlValue_congr (by simpa using hsel) (by simpa using hcas) (by simpa using hirq) (by simpa using hrun)

theorem schedAdd_ctlValue (due : Nat) (cb : Callback) (s : State) :
    (schedAdd due cb s).ctlValue c = s.ctlValue c := by
  unfold schedAdd
  split <;> rfl

theorem armOverflow_ctlValue (c : Chan) (due : Nat) (s : State) : (armOverflow c due s).ctlValue c = s.ctlValue c := by
  unfold armOverflow State.andThen
  split <;> simp [State.ctlValue_setCh, schedAdd_ctlValue]

theorem cancelOverflow_ctlValue (c : Chan) (s : State) : (cancelOverflow c s).ctlValue c = s.ctlValue c := by
  simp [cancelOverflow_eq, State.ctlValue_setCh]

theorem startChannel_ctlValue (c : Chan) (s : State) : (startChannel c s).ctlValue c = s.ctlValue c := by
  unfold startChannel
  dsimp only
  split <;> simp [State.ctlValue_setCh, armOverflow_ctlValue]

theorem stopChannel_ctlValue (c : Chan) (cur : Half) (s : State) : (stopChannel c cur s).ctlValue c = s.ctlValue c := by
  simp [stopChannel, State.ctlValue_setCh, cancelOverflow_ctlValue]

theorem rebaseChannel_ctlValue (c : Chan) (cur : Half) (s : State) :
    (rebaseChannel c cur s).ctlValue c = s.ctlValue c := by
  unfold rebaseChannel
  dsimp only
  split <;> simp [State.ctlValue_setCh, armOverflow_ctlValue, cancelOverflow_ctlValue]

theorem runningWrite_ctlValue (c : Chan) (cur : Half) (sel : BitVec 2) (cas : Bool) (s : State) :
    (runningWrite c cur sel cas s).ctlValue c = s.ctlValue c := by
  unfold runningWrite
  split
  · exact rebaseChannel_ctlValue c cur s
  · rfl

/-- The procedures of a control write leave the control word that the write stored (R123). -/
theorem writeControl_ctlValue (c : Chan) (v : Half) (s : State) :
    (writeControl c v s).ctlValue c = (s.setCh c (withControl c v (s.ch c))).ctlValue c := by
  have hemit : ∀ u : State, (u.andThen (emit .rate c)).ctlValue c = u.ctlValue c := fun u => by
    unfold State.andThen; split <;> rfl
  unfold writeControl
  dsimp only
  rw [hemit]
  split
  · rfl
  · exact startChannel_ctlValue c _
  · exact stopChannel_ctlValue c _ _
  · exact runningWrite_ctlValue c _ _ _ _

/-- The bits of the control word, from 0 up (R24). -/
theorem State.ctlValue_getLsbD (s : State) (c : Chan) (i : Nat) :
    (s.ctlValue c).getLsbD i =
      if i < 2 then (s.ch c).sel.getLsbD i
      else if i = 2 then s.cascadeBit c
      else if i = 6 then (s.ch c).irq
      else if i = 7 then (s.ch c).run
      else false := by
  simp only [State.ctlValue, BitVec.getLsbD_append, BitVec.getLsbD_ofBool, BitVec.getLsbD_zero]
  grind

/-- What a control write of `v` stores is the writable bits of `v` (R24, R25). -/
theorem withControl_ctlValue (c : Chan) (v : Half) (s : State) :
    (s.setCh c (withControl c v (s.ch c))).ctlValue c = v &&& (if c = 0 then 0x00C3#16 else 0x00C7#16) := by
  have hmask : ∀ i < 16, (if c = 0 then 0x00C3#16 else 0x00C7#16).getLsbD i =
      decide (i < 2 ∨ (i = 2 ∧ c ≠ 0) ∨ i = 6 ∨ i = 7) := by
    revert c
    decide
  apply BitVec.eq_of_getLsbD_eq
  intro i hi
  rw [State.ctlValue_getLsbD, BitVec.getLsbD_and, hmask i hi]
  simp only [withControl, State.ch_setCh_same, State.cascadeBit, BitVec.getLsbD_extractLsb']
  grind

end

/-- Settles O18: bit by bit. -/
theorem controlWordLayout : Obligations.ControlWordLayout := by
  refine ⟨fun s c => ⟨?_, ?_, ?_, ?_, ?_⟩, fun s => ⟨?_, fun hrun => ?_⟩, fun s c v hf => ?_⟩
  · apply BitVec.eq_of_getLsbD_eq
    intro i hi
    simp only [BitVec.getLsbD_extractLsb', State.ctlValue_getLsbD]
    simp [hi]
  · rw [State.ctlValue_getLsbD]; rfl
  · rw [State.ctlValue_getLsbD]; rfl
  · rw [State.ctlValue_getLsbD]; rfl
  · have hmask : ∀ i < 16, (0xFF38#16).getLsbD i = decide (i ≠ 0 ∧ i ≠ 1 ∧ i ≠ 2 ∧ i ≠ 6 ∧ i ≠ 7) := by decide
    apply BitVec.eq_of_getLsbD_eq
    intro i hi
    rw [BitVec.getLsbD_and, State.ctlValue_getLsbD, hmask i hi]
    grind
  · rw [State.ctlValue_getLsbD]; rfl
  · exact State.internal_eq_true.2 ⟨hrun, .inl rfl⟩
  · exact ⟨_, unlessFaulted_of_none hf _, (writeControl_ctlValue c v s).trans (withControl_ctlValue c v s)⟩

end Sys2Proof.Machine

/-! # Proofs of the family 20_memory: bus accesses, byte order, repeated control writes, the frame of OVF and ADVANCE -/

/-! ### Bus accesses (R50 to R54, R79) -/

namespace Sys2Proof.Machine

/-- The assembler's line for a read of `n` bytes at an offset (R79). -/
def readLine (n : AccessSize) (off : Nat) : AsmLine :=
  match n with
  | .byte => .rd8 off
  | .half => .rd16 off
  | .word => .rd32 off

/-- The assembler's line for a write of `n` bytes at an offset (R79). -/
def writeLine (n : AccessSize) (off v : Nat) : AsmLine :=
  match n with
  | .byte => .wr8 off v
  | .half => .wr16 off v
  | .word => .wr32 off v

theorem windowOffset_base_add (off : BitVec 4) : windowOffset (Config.timerBase + off.toNat) = some off := by
  simp [windowOffset, off.isLt]

theorem windowOffset_outside {addr : Nat} (h : addr < Config.timerBase ∨ Config.timerBase + 16 ≤ addr) :
    windowOffset addr = none :=
  if_neg (by omega)

section
variable {n : AccessSize} {off : BitVec 4}

/-- The word of a misaligned access names no operation, and is refused as misaligned (R54, R76). -/
theorem decode_accessWord_of_misaligned (h : off.toNat % n.bytes ≠ 0) (write : Bool) (bs : List Byte) :
    decode (accessWord write n off :: bs) = .refuse .misaligned := by
  have hword : opOfWord (accessWord write n off) = none ∧ misalignedWord (accessWord write n off) = true := by
    revert write off
    cases n <;> decide
  simp [decode, hword, reservedKind]

/-- An access's word is that of the same access to channel 0, with the channel of the offset in the channel bits (R71). -/
theorem accessWord_eq_busOpcode {sub : Nat} (h : off.toNat % 4 = sub) (write : Bool) (n : AccessSize) :
    accessWord write n off = busOpcode (accessWord write n (BitVec.ofNat 4 sub)) (offChan off.toNat) := by
  subst h
  revert write off
  cases n <;> decide

/-- Bit 7 tells the words of bus accesses from that of ADVANCE (R71, R72). -/
theorem advanceWord_ne_accessWord (write : Bool) (n : AccessSize) (off : BitVec 4) : 0xA0#8 ≠ accessWord write n off := by
  revert write off
  cases n <;> decide

/-- An operation with the bytes of an access is what they decode to. -/
theorem decode_of_encode_eq_access {write : Bool} {bs : List Byte} {i : Instr}
    (h : encode i = accessWord write n off :: bs) : decode (accessWord write n off :: bs) = .ok i [] := by
  have hwf : i.wf = true := by
    cases i with
    | advance t => exact absurd (List.cons.inj h).1 (advanceWord_ne_accessWord write n off)
    | _ => rfl
  simpa [h] using decode_encode_append hwf []

/-- Where the assembler gives an aligned access its bytes and refuses a misaligned one, the decoder agrees with it. -/
theorem decode_access_of_assemble {write : Bool} {bs : List Byte} {l : AsmLine}
    (h : (assemble l).map encode = if off.toNat % n.bytes = 0 then some (accessWord write n off :: bs) else none) :
    (∀ i, assemble l = some i → decode (accessWord write n off :: bs) = .ok i []) ∧
      (assemble l = none → decode (accessWord write n off :: bs) = .refuse .misaligned) := by
  refine ⟨fun i hi => decode_of_encode_eq_access ?_, fun hnone => decode_accessWord_of_misaligned ?_ _ _⟩
  · rw [hi, Option.map_some, Option.some_eq_ite_none_right] at h
    exact Option.some.inj h.2
  · rw [hnone, Option.map_none, eq_comm, ite_eq_right_iff] at h
    exact fun haligned => nomatch h haligned

/-- The assembler refuses the misaligned reads, and gives the others the word of the access (R54, R79). -/
theorem assemble_readLine (n : AccessSize) (off : BitVec 4) :
    (assemble (readLine n off.toNat)).map encode =
      if off.toNat % n.bytes = 0 then some [accessWord false n off] else none := by
  revert off
  cases n <;> decide

/-- A half-word access is aligned at the lower and at the upper half of a channel's word. -/
theorem half_aligned_iff : off.toNat % AccessSize.half.bytes = 0 ↔ off.toNat % 4 = 0 ∨ off.toNat % 4 = 2 := by
  simp only [AccessSize.bytes]
  omega

theorem encode_asmWr8 (off : BitVec 4) (b : Byte) : encode (asmWr8 off.toNat b) = [accessWord true .byte off, b] := by
  unfold asmWr8
  split
  · next h => rw [accessWord_eq_busOpcode h]; rfl
  · next h => rw [accessWord_eq_busOpcode h]; rfl
  · next h => rw [accessWord_eq_busOpcode h]; rfl
  · next h0 h1 h2 =>
    have h3 : off.toNat % 4 = 3 := by
      simp only [imp_false] at h0 h1 h2
      omega
    rw [accessWord_eq_busOpcode h3]; rfl

theorem encode_wr16Reload {v : Nat} (hv : v < 2 ^ 16) (h : off.toNat % 4 = 0) :
    encode (.wr16Reload (offChan off.toNat) (BitVec.ofNat 16 v)) = accessWord true .half off :: leBytes 2 v := by
  rw [accessWord_eq_busOpcode h, encode, operandBytes, BitVec.toNat_ofNat, Nat.mod_eq_of_lt hv]
  rfl

theorem encode_wr16Ctl {v : Nat} (hv : v < 2 ^ 16) (h : off.toNat % 4 = 2) :
    encode (.wr16Ctl (offChan off.toNat) (BitVec.ofNat 16 v)) = accessWord true .half off :: leBytes 2 v := by
  rw [accessWord_eq_busOpcode h, encode, operandBytes, BitVec.toNat_ofNat, Nat.mod_eq_of_lt hv]
  rfl

theorem encode_wr32 {v : Nat} (hv : v < 2 ^ 32) (h : off.toNat % 4 = 0) :
    encode (.wr32 (offChan off.toNat) (BitVec.ofNat 32 v)) = accessWord true .word off :: leBytes 4 v := by
  rw [accessWord_eq_busOpcode h, encode, operandBytes, BitVec.toNat_ofNat, Nat.mod_eq_of_lt hv]
  rfl

/-- The assembler refuses the misaligned writes, and gives the others the word of the access and the bytes of the value, the
first the least significant (R53, R54, R79). -/
theorem assemble_writeLine {v : Nat} (hv : v < 2 ^ (8 * n.bytes)) (off : BitVec 4) :
    (assemble (writeLine n off.toNat v)).map encode =
      if off.toNat % n.bytes = 0 then some (accessWord true n off :: leBytes n.bytes v) else none := by
  have hoff : off.toNat < 16 := off.isLt
  cases n with
  | byte =>
    have hle : v ≤ 0xFF := Nat.le_of_lt_succ hv
    simp [writeLine, assemble, hoff, hle, encode_asmWr8, AccessSize.bytes, leBytes, Nat.mod_one]
  | half =>
    have hle : v ≤ 0xFFFF := Nat.le_of_lt_succ hv
    simp only [writeLine, assemble, hoff, hle, and_self, if_true]
    split
    · next h => rw [if_pos (half_aligned_iff.2 (.inl h)), Option.map_some, encode_wr16Reload hv h, AccessSize.bytes]
    · next h => rw [if_pos (half_aligned_iff.2 (.inr h)), Option.map_some, encode_wr16Ctl hv h, AccessSize.bytes]
    · next h0 h2 => rw [if_neg (mt half_aligned_iff.1 (not_or.2 ⟨h0, h2⟩)), Option.map_none]
  | word =>
    have hle : v ≤ 0xFFFFFFFF := Nat.le_of_lt_succ hv
    simp only [writeLine, assemble, hoff, hle, true_and]
    by_cases h : off.toNat % 4 = 0
    · rw [if_pos h, if_pos (show off.toNat % AccessSize.word.bytes = 0 from h), Option.map_some, encode_wr32 hv h]
      rfl
    · rw [if_neg h, if_neg (show off.toNat % AccessSize.word.bytes ≠ 0 from h), Option.map_none]

end

/-- Settles O13: the window gives the offset, and the bytes decode to the operation that the assembler gives those bytes. -/
theorem busAccessesAreOperations : Obligations.BusAccessesAreOperations := by
  refine ⟨fun off n => ⟨[accessWord false n off], ?_, ?_⟩,
    fun off n v hv => ⟨accessWord true n off :: leBytes n.bytes v, ?_, ?_⟩, fun addr n v haddr => ⟨?_, ?_⟩⟩
  · rw [memRead, windowOffset_base_add, Option.map_some]
  · obtain ⟨hok, hnone⟩ := decode_access_of_assemble (assemble_readLine n off)
    split
    · next i hi => exact hok i hi
    · next hi => exact hnone hi
  · rw [memWrite, windowOffset_base_add, Option.map_some]
  · obtain ⟨hok, hnone⟩ := decode_access_of_assemble (assemble_writeLine hv off)
    split
    · next i hi => exact hok i hi
    · next hi => exact hnone hi
  · rw [memRead, windowOffset_outside haddr, Option.map_none]
  · rw [memWrite, windowOffset_outside haddr, Option.map_none]

end Sys2Proof.Machine

/-! ### Reads, byte by byte (R51, R53) -/

namespace Sys2Proof.Machine

/-- A half-word is its two bytes, the lower offset's least significant. -/
theorem highByte_append_lowByte (v : Half) : highByte v ++ lowByte v = v := by
  unfold highByte lowByte
  exact (BitVec.extractLsb'_append_extractLsb'_eq_extractLsb' rfl).trans BitVec.extractLsb'_eq_self

/-- The high byte of the control word reads as 0 (R24). -/
theorem highByte_ctlValue (s : State) (c : Chan) : highByte (s.ctlValue c) = 0#8 := by
  apply BitVec.eq_of_getLsbD_eq
  intro i hi
  rw [highByte, BitVec.getLsbD_extractLsb', State.ctlValue_getLsbD]
  grind

/-- The lower two bytes of a channel's window are its counter (R51). -/
theorem State.windowByte_counter (s : State) (c : Chan) : s.windowByte c 1#2 ++ s.windowByte c 0#2 = s.counter c :=
  highByte_append_lowByte _

/-- The upper two are its control word (R51). -/
theorem State.windowByte_ctlValue (s : State) (c : Chan) : s.windowByte c 3#2 ++ s.windowByte c 2#2 = s.ctlValue c :=
  (congrArg (· ++ lowByte (s.ctlValue c)) (highByte_ctlValue s c).symm).trans (highByte_append_lowByte _)

/-- The four together are the word at the channel's offset (R51, R139). -/
theorem State.windowByte_word (s : State) (c : Chan) :
    s.windowByte c 3#2 ++ s.windowByte c 2#2 ++ s.windowByte c 1#2 ++ s.windowByte c 0#2 =
      joinHalves (s.ctlValue c) (s.counter c) := by
  rw [BitVec.append_assoc, BitVec.cast_eq, State.windowByte_counter, State.windowByte_ctlValue]
  rfl

/-- Settles O19: each read answers what the lemma on its bytes names. -/
theorem readsAreLittleEndian : Obligations.ReadsAreLittleEndian := by
  intro s c hf
  rw [State.windowByte_word, State.windowByte_counter, State.windowByte_ctlValue]
  exact ⟨unlessFaulted_of_none hf _, unlessFaulted_of_none hf _, unlessFaulted_of_none hf _, unlessFaulted_of_none hf _,
    unlessFaulted_of_none hf _, unlessFaulted_of_none hf _, unlessFaulted_of_none hf _⟩

end Sys2Proof.Machine

/-! ### Control writes: what they can do, and twice the same one (R57, R123) -/

namespace Sys2Proof.Machine

section
variable {s t : State} {c : Chan}

/-- From `s` to `t` only the count, the start and the event of channel `c` and the scheduler's queue change: what Start, Stop
and Rebase may write (R120 to R122). -/
def Recounts (c : Chan) (s t : State) : Prop :=
  ∃ b start ev q k,
    t = { s.setCh c { s.ch c with base := b, tStart := start, ev := ev } with queue := q, nextSeq := k }

theorem Recounts.refl (c : Chan) (s : State) : Recounts c s s :=
  ⟨(s.ch c).base, (s.ch c).tStart, (s.ch c).ev, s.queue, s.nextSeq, by rw [State.setCh_ch]⟩

/-- Start (R120), in cascade mode and on the channel's own clock. -/
theorem startChannel_recounts (hf : s.fault = none) (c : Chan) : Recounts c s (startChannel c s) := by
  cases hb : s.cascadeBit c with
  | true => exact ⟨_, _, _, _, _, startChannel_of_cascade hb⟩
  | false => exact ⟨_, _, _, _, _, startChannel_of_internal hf hb⟩

/-- Stop (R121). -/
theorem stopChannel_recounts (c : Chan) (cur : Half) (s : State) : Recounts c s (stopChannel c cur s) :=
  ⟨_, _, _, _, _, stopChannel_eq c cur s⟩

/-- Rebase (R122), in cascade mode and on the channel's own clock. -/
theorem rebaseChannel_recounts (hf : s.fault = none) (c : Chan) (cur : Half) :
    Recounts c s (rebaseChannel c cur s) := by
  cases hb : s.cascadeBit c with
  | true => exact ⟨_, _, _, _, _, rebaseChannel_of_cascade cur hb⟩
  | false => exact ⟨_, _, _, _, _, rebaseChannel_of_internal cur hf hb⟩

/-- RunningWrite (R124). -/
theorem runningWrite_recounts (hf : s.fault = none) (c : Chan) (cur : Half) (sel : BitVec 2) (cas : Bool) :
    Recounts c s (runningWrite c cur sel cas s) := by
  unfold runningWrite
  split
  · exact rebaseChannel_recounts hf c cur
  · exact .refl c s

/-- No procedure raises a fault (R112). -/
theorem Recounts.fault (h : Recounts c s t) : t.fault = s.fault := by
  obtain ⟨b, start, ev, q, k, rfl⟩ := h
  rfl

/-- No procedure writes a control field. -/
theorem Recounts.withControl (h : Recounts c s t) {v : Half} (hs : withControl c v (s.ch c) = s.ch c) :
    withControl c v (t.ch c) = t.ch c := by
  obtain ⟨b, start, ev, q, k, rfl⟩ := h
  rw [State.ch_mk, State.ch_setCh_same]
  conv_rhs => rw [← hs]
  rfl

/-- A control write stores its fields, recounts the channel, and emits RATE (R123). -/
theorem writeControl_recounts (hf : s.fault = none) (c : Chan) (v : Half) :
    ∃ u, Recounts c (s.setCh c (withControl c v (s.ch c))) u ∧ writeControl c v s = emit .rate c u := by
  have hf1 : (s.setCh c (withControl c v (s.ch c))).fault = none := hf
  have hemit {u} (hu : Recounts c (s.setCh c (withControl c v (s.ch c))) u) :=
    And.intro hu (State.andThen_of_none (hu.fault.trans hf1) (emit .rate c))
  unfold writeControl
  dsimp only
  split
  · exact ⟨_, hemit (.refl c _)⟩
  · exact ⟨_, hemit (startChannel_recounts hf1 c)⟩
  · exact ⟨_, hemit (stopChannel_recounts c _ _)⟩
  · exact ⟨_, hemit (runningWrite_recounts hf1 c _ _ _)⟩

/-- A control write of the fields that are stored only emits RATE: no run bit changes, and neither selector nor cascade field
does (R57, R124). -/
theorem writeControl_of_stored (hf : s.fault = none) {v : Half} (hs : withControl c v (s.ch c) = s.ch c) :
    writeControl c v s = emit .rate c s := by
  have hrunning : ∀ cur, runningWrite c cur (s.ch c).sel (s.cascadeBit c) s = s := fun cur => by simp [runningWrite]
  unfold writeControl
  simp only [hs, State.setCh_ch, hrunning]
  cases (s.ch c).run
  · exact State.andThen_of_none hf _
  · exact State.andThen_of_none hf _

end

/-- Settles O28: the first write leaves its fields stored, and the second finds them stored. -/
theorem repeatedControlWrite : Obligations.RepeatedControlWrite := by
  intro s c v hf
  obtain ⟨u, hu, hfirst⟩ := writeControl_recounts hf c v
  have hfault : (emit .rate c u).fault = none := hu.fault.trans hf
  have hstored : withControl c v ((emit .rate c u).ch c) = (emit .rate c u).ch c :=
    hu.withControl (by rw [State.ch_setCh_same]; rfl)
  refine ⟨emit .rate c u, ?_, ?_⟩
  · exact hfirst ▸ unlessFaulted_of_none hf _
  · exact (unlessFaulted_of_none hfault _).trans (congrArg _ (writeControl_of_stored hfault hstored))

end Sys2Proof.Machine

/-! ### What overflows leave unchanged (R65, R140, R160 to R164) -/

namespace Sys2Proof.Machine

section
variable {s t u : State} {c d : Chan}

/-- What a write to a channel keeps of that channel it keeps of every channel. -/
theorem State.ch_setCh_apply {α : Type} (f : Channel → α) {x : Channel} (h : f x = f (s.ch c)) (d : Chan) :
    f ((s.setCh c x).ch d) = f (s.ch d) := by
  by_cases hd : d = c
  · rw [hd, State.ch_setCh_same, h]
  · rw [State.ch_setCh_ne _ _ hd]

theorem State.cascadeCounting_congr (h : t.ch d = s.ch d) : t.cascadeCounting d = s.cascadeCounting d := by
  simp [State.cascadeCounting, State.cascadeBit, h]

theorem schedAdd_ch (due : Nat) (cb : Callback) (s : State) (d : Chan) : (schedAdd due cb s).ch d = s.ch d := by
  unfold schedAdd
  split <;> rfl

theorem execAdvance_of_fault (hf : s.fault ≠ none) (T : Nat) : execAdvance T s = .next s := by
  simp [execAdvance, Option.isSome_iff_ne_none.2 hf]

/-- From `s` to `t` no reload or control field changes, no foreign event is added, and nothing is read, refused, taken from the
input or from the schedule. -/
structure KeepsSettings (s t : State) : Prop where
  reload : ∀ d, (t.ch d).reload = (s.ch d).reload
  sel : ∀ d, (t.ch d).sel = (s.ch d).sel
  cascade : ∀ d, (t.ch d).cascade = (s.ch d).cascade
  irq : ∀ d, (t.ch d).irq = (s.ch d).irq
  run : ∀ d, (t.ch d).run = (s.ch d).run
  foreign : ∀ e ∈ t.queue, (∀ c, e.cb ≠ .ovf c) → e ∈ s.queue
  reads : t.reads = s.reads
  refusals : t.refusals = s.refusals
  input : t.input = s.input
  schedule : t.schedule = s.schedule

namespace KeepsSettings

theorem trans (h : KeepsSettings s t) (k : KeepsSettings t u) : KeepsSettings s u where
  reload d := (k.reload d).trans (h.reload d)
  sel d := (k.sel d).trans (h.sel d)
  cascade d := (k.cascade d).trans (h.cascade d)
  irq d := (k.irq d).trans (h.irq d)
  run d := (k.run d).trans (h.run d)
  foreign _ he hcb := h.foreign _ (k.foreign _ he hcb) hcb
  reads := k.reads.trans h.reads
  refusals := k.refusals.trans h.refusals
  input := k.input.trans h.input
  schedule := k.schedule.trans h.schedule

/-- Time, fault, running callback, outputs and registration numbers are free, and events may leave the queue. -/
theorem of_chans (hc : t.chans = s.chans) (hq : ∀ e ∈ t.queue, (∀ c, e.cb ≠ .ovf c) → e ∈ s.queue)
    (hr : t.reads = s.reads) (hm : t.refusals = s.refusals) (hi : t.input = s.input) (hs : t.schedule = s.schedule) :
    KeepsSettings s t where
  reload d := by simp only [State.ch, hc]
  sel d := by simp only [State.ch, hc]
  cascade d := by simp only [State.ch, hc]
  irq d := by simp only [State.ch, hc]
  run d := by simp only [State.ch, hc]
  foreign := hq
  reads := hr
  refusals := hm
  input := hi
  schedule := hs

theorem refl (s : State) : KeepsSettings s s := of_chans rfl (fun _ he _ => he) rfl rfl rfl rfl

theorem of_sameButCounts (h : SameButCounts s t) : KeepsSettings s t where
  reload := h.reload
  sel := h.sel
  cascade := h.cascade
  irq := h.irq
  run := h.run
  foreign _ he _ := h.queue ▸ he
  reads := h.reads
  refusals := h.refusals
  input := h.input
  schedule := h.schedule

/-- A channel's count, start time and event may be written. -/
theorem setCount (s : State) (c : Chan) (b : Half) (start : Nat) (ev : Option Nat) :
    KeepsSettings s (s.setCh c { s.ch c with base := b, tStart := start, ev := ev }) where
  reload := State.ch_setCh_apply Channel.reload rfl
  sel := State.ch_setCh_apply Channel.sel rfl
  cascade := State.ch_setCh_apply Channel.cascade rfl
  irq := State.ch_setCh_apply Channel.irq rfl
  run := State.ch_setCh_apply Channel.run rfl
  foreign _ he _ := he
  reads := rfl
  refusals := rfl
  input := rfl
  schedule := rfl

/-- This block's own events may be registered, or found to be past (R103). -/
theorem schedAdd_ovf (due : Nat) (c : Chan) (s : State) : KeepsSettings s (schedAdd due (.ovf c) s) := by
  by_cases h : s.now ≤ due
  · rw [schedAdd_of_le h]
    refine of_chans rfl (fun e he hcb => ?_) rfl rfl rfl rfl
    rcases List.mem_append.1 he with he | he
    · exact he
    · exact absurd (congrArg Event.cb (List.mem_singleton.1 he)) (hcb c)
  · rw [schedAdd_of_lt (Nat.not_le.1 h)]
    exact of_chans rfl (fun _ he _ => he) rfl rfl rfl rfl

theorem andThen (h : KeepsSettings s t) {f : State → State} (hf : ∀ u, KeepsSettings u (f u)) :
    KeepsSettings s (t.andThen f) := by
  unfold State.andThen
  split
  · exact h
  · exact h.trans (hf t)

theorem armOverflow (c : Chan) (due : Nat) (s : State) : KeepsSettings s (armOverflow c due s) :=
  (schedAdd_ovf due c s).andThen fun u => setCount u c _ _ _

/-- OVF (R160). -/
theorem deliverOverflow (c : Chan) (tReq : Nat) (s : State) : KeepsSettings s (deliverOverflow c tReq s) :=
  ((setCount s c _ _ _).trans (armOverflow c _ _)).andThen fun u => of_sameButCounts (overflowCommon_same c u)

/-- A callback begins, and it ends. -/
theorem beginFiring (e : Event) (s : State) : KeepsSettings s (s.beginFiring e) :=
  of_chans rfl (fun _ he _ => List.mem_of_mem_filter he) rfl rfl rfl rfl

theorem endFiring (s : State) : KeepsSettings s { s with firing := none } := of_chans rfl (fun _ he _ => he) rfl rfl rfl rfl

/-- Firing an event with no foreign callback left to run (R105). -/
theorem fire (hs : s.schedule = []) (e : Event) : KeepsSettings s (fire e s) := by
  unfold Machine.fire
  split
  · exact ((beginFiring e s).trans (deliverOverflow _ _ _)).trans (endFiring _)
  · next owner _ =>
    have hidle : foreignCallback owner (s.beginFiring e) = s.beginFiring e := by
      simp [foreignCallback, State.beginFiring, hs]
    rw [hidle]
    exact (beginFiring e s).trans (endFiring _)

/-- ADVANCE with no foreign callback left to run (R105, R111). -/
theorem execAdvance {T : Nat} (hs : s.schedule = []) (h : execAdvance T s = .next t) : KeepsSettings s t := by
  by_cases hf : s.fault = none
  · obtain ⟨-, rfl⟩ | ⟨-, hloop⟩ := execAdvance_cases hf h
    · exact of_chans rfl (fun _ he _ => he) rfl rfl rfl rfl
    · exact advanceLoop_induction (P := KeepsSettings s) (fun _ e hu _ _ => hu.trans (fire (hu.schedule.trans hs) e))
        (fun _ hu _ => hu.trans (of_chans rfl (fun _ he _ => he) rfl rfl rfl rfl)) _ (refl s) hf hloop
  · cases (execAdvance_of_fault hf T).symm.trans h
    exact refl s

end KeepsSettings

/-- What OVF can answer: the unchanged state after a fault, or the delivered overflow (R77, R160). -/
theorem execOvf_cases (h : execOvf c s = .next t) :
    t = s ∨ ∃ tReq, t = { deliverOverflow c tReq s with firing := none } := by
  unfold execOvf at h
  split at h
  · cases h; exact .inl rfl
  · split at h
    · cases h; exact .inr ⟨_, rfl⟩
    · cases h

/-! ### The channels an overflow does not reach -/

theorem SameButCounts.cascadeCounting (h : SameButCounts s t) (d : Chan) : t.cascadeCounting d = s.cascadeCounting d := by
  simp [State.cascadeCounting, State.cascadeBit, h.run, h.cascade]

/-- A channel that is not cascade-counting is not touched by the chain (R162, R163). -/
theorem tickChain_ch_of_not_counting (cs : List Chan) (h : s.cascadeCounting d = false) :
    (tickChain cs s).ch d = s.ch d := by
  induction cs generalizing s with
  | nil => rfl
  | cons n rest ih =>
    unfold tickChain
    split
    · next hn =>
      have hdn : d ≠ n := by rintro rfl; simp [h] at hn
      split
      · have hsame := (setCount_same n (s.ch n).reload s.now s).trans (overflowOutputs_same n _)
        rw [ih ((hsame.cascadeCounting d).trans h), overflowOutputs_eq, State.ch_mk, State.ch_setCh_ne _ _ hdn]
      · exact State.ch_setCh_ne _ _ hdn
    · rfl

theorem not_mem_channelsAbove_of_lt (h : d < c) : d ∉ channelsAbove c := by
  revert c d
  decide

theorem overflowCommon_ch_of_unreached (h : d < c ∨ s.cascadeCounting d = false) :
    (overflowCommon c s).ch d = s.ch d := by
  have hout : (overflowOutputs c s).ch d = s.ch d := by rw [overflowOutputs_eq, State.ch_mk]
  rw [← hout]
  obtain h | h := h
  · exact tickChain_ch_of_not_mem _ _ (not_mem_channelsAbove_of_lt h)
  · exact tickChain_ch_of_not_counting _ (((overflowOutputs_same c s).cascadeCounting d).trans h)

theorem armOverflow_ch_ne (h : d ≠ c) (due : Nat) (s : State) : (armOverflow c due s).ch d = s.ch d := by
  unfold armOverflow State.andThen
  split
  · exact schedAdd_ch due _ s d
  · exact (State.ch_setCh_ne _ _ h).trans (schedAdd_ch due _ s d)

theorem deliverOverflow_ch_of_unreached (h : d < c ∨ (c < d ∧ s.cascadeCounting d = false)) (tReq : Nat) :
    (deliverOverflow c tReq s).ch d = s.ch d := by
  have hne : d ≠ c := h.elim ne_of_lt fun h => ne_of_gt h.1
  have harm : ∀ due x, (armOverflow c due (s.setCh c x)).ch d = s.ch d := fun due x =>
    (armOverflow_ch_ne hne due _).trans (State.ch_setCh_ne _ _ hne)
  unfold deliverOverflow State.andThen
  dsimp only
  split
  · exact harm _ _
  · exact (overflowCommon_ch_of_unreached (h.imp_right fun h => (State.cascadeCounting_congr (harm _ _)).trans h.2)).trans
      (harm _ _)

end

/-- Settles O38: the frame is kept by each event an ADVANCE fires, and the chain reaches cascade-counting channels above `c`
only. -/
theorem overflowFrame : Obligations.OverflowFrame := by
  refine ⟨fun i s t hs hi h => ?_, fun s t c d h hd => ?_⟩
  · have hk : KeepsSettings s t := by
      obtain ⟨c, rfl⟩ | ⟨T, rfl⟩ := hi
      · obtain rfl | ⟨tReq, rfl⟩ := execOvf_cases h
        · exact .refl _
        · exact (KeepsSettings.deliverOverflow c tReq s).trans (.endFiring _)
      · exact .execAdvance hs h
    exact ⟨fun d => ⟨hk.reload d, hk.sel d, hk.cascade d, hk.irq d, hk.run d⟩, hk.foreign, hk.reads, hk.refusals,
      hk.input, hk.schedule⟩
  · obtain rfl | ⟨tReq, rfl⟩ := execOvf_cases h
    · rfl
    · exact deliverOverflow_ch_of_unreached hd tReq

end Sys2Proof.Machine

/-! # Proofs of the family 30_encoding: the encoding's round trip, reserved and truncated words, the pseudo-instructions -/

/-! ### What decodes is an encoding (R70 to R75) -/

namespace Sys2Proof

open Sys2Proof.Laws

/-- A word names an operation by a row of R75 that it matches. -/
theorem exists_row_of_opOfWord {w : Byte} {op : Op} (h : opOfWord w = some op) :
    ∃ r ∈ opcodeRows, w &&& r.mask = r.pattern ∧ r.op = op := by
  obtain ⟨r, hr, hop⟩ := Option.map_eq_some_iff.1 h
  exact ⟨r, List.mem_of_find?_eq_some hr, by simpa using List.find?_some hr, hop⟩

/-- The channel of a bus access is bits 3:2 of its word (R71). -/
theorem busChannel_bits (w : Byte) : BitVec.ofNat 8 (4 * (busChannel w).val) = w &&& 0x0C#8 := by
  revert w; decide

/-- The channel of OVF and RD_RELOAD is bits 1:0 of its word (R72). -/
theorem internalChannel_bits (w : Byte) : BitVec.ofNat 8 (internalChannel w).val = w &&& 0x03#8 := by
  revert w; decide

/-- An operation built from a word keeps the bits of the word outside its row's mask, which are the channel (R75). -/
theorem opWord_build_of_mem (w : Byte) (v : Nat) :
    ∀ r ∈ opcodeRows, opWord (r.op.build w v) = r.pattern ||| (w &&& ~~~r.mask) := by
  simp [opcodeRows, Op.build, opWord, busOpcode, internalOpcode, busChannel_bits, internalChannel_bits]

/-- The operation built from the word that names it has that word. -/
theorem opWord_build {w : Byte} {op : Op} (h : opOfWord w = some op) (v : Nat) : opWord (op.build w v) = w := by
  obtain ⟨r, hr, hw, rfl⟩ := exists_row_of_opOfWord h
  calc opWord (r.op.build w v)
    _ = (w &&& r.mask) ||| (w &&& ~~~r.mask) := hw ▸ opWord_build_of_mem w v r hr
    _ = w := by rw [← BitVec.and_or_distrib_left, BitVec.or_not_self, BitVec.and_allOnes]

theorem leValue_lt (bs : List Byte) : leValue bs < 256 ^ bs.length := by
  induction bs with
  | nil => simp [leValue]
  | cons b bs ih =>
    have hb : b.toNat < 256 := b.isLt
    rw [leValue, List.length_cons, Nat.pow_succ]
    omega

/-- Bytes are given back by their value (R53, R73). -/
theorem leBytes_leValue (bs : List Byte) : leBytes bs.length (leValue bs) = bs := by
  induction bs with
  | nil => rfl
  | cons b bs ih =>
    have hb : b.toNat < 256 := b.isLt
    have hdiv : (b.toNat + 256 * leValue bs) / 256 = leValue bs := by omega
    have hlow : BitVec.ofNat 8 (b.toNat + 256 * leValue bs) = b := by
      apply BitVec.eq_of_toNat_eq
      rw [BitVec.toNat_ofNat]
      omega
    rw [leValue, List.length_cons, leBytes, hdiv, hlow, ih]

section
variable {op : Op} {v : Nat} (hv : v < 256 ^ op.operandBytes)
include hv

/-- An operand value of R73's width is within the width of the operation's operand. -/
theorem wf_build (w : Byte) : (op.build w v).wf = true := by
  cases op with
  | advance => exact decide_eq_true hv
  | _ => rfl

/-- The operand bytes of an operation built from an operand value are the bytes of that value (R73, R74). -/
theorem operandBytes_build (w : Byte) : operandBytes (op.build w v) = leBytes op.operandBytes v := by
  cases op with
  | wr16Reload | wr16Ctl => exact congrArg (leBytes 2) (Nat.mod_eq_of_lt hv)
  | wr32 => exact congrArg (leBytes 4) (Nat.mod_eq_of_lt hv)
  | _ => rfl

end

/-- What decodes is an operation word, the operand bytes of R73, and the rest. -/
theorem exists_of_decode_ok {bs rest : List Byte} {i : Instr} (h : decode bs = .ok i rest) :
    ∃ w op data, opOfWord w = some op ∧ data.length = op.operandBytes ∧ i = op.build w (leValue data) ∧
      bs = w :: (data ++ rest) := by
  cases bs with
  | nil => cases h
  | cons w bs =>
    simp only [decode] at h
    split at h
    · cases h
    · next op hop =>
      split at h
      · cases h
      · next hlen =>
        cases h
        exact ⟨w, op, bs.take op.operandBytes, hop, List.length_take_of_le (not_lt.1 hlen), rfl,
          by rw [List.take_append_drop]⟩

/-- Settles O8: the word names the operation, and the operand bytes hold its operand. -/
theorem decodeOfEncode : Obligations.DecodeOfEncode := fun _ rest h => decode_encode_append h rest

/-- Settles O9: the built operation has the word and the operand bytes it was built from. -/
theorem encodeOfDecode : Obligations.EncodeOfDecode := by
  intro bs rest i h
  obtain ⟨w, op, data, hop, hlen, rfl, rfl⟩ := exists_of_decode_ok h
  have hv : leValue data < 256 ^ op.operandBytes := hlen ▸ leValue_lt data
  refine ⟨wf_build hv w, ?_⟩
  rw [encode, opWord_build hop, operandBytes_build hv, ← hlen, leBytes_leValue, List.cons_append]

/-- Settles O12: the word is whole, so it names the operation, and fewer bytes follow it than its operand has. -/
theorem truncatedOperandIsRefused : Obligations.TruncatedOperandIsRefused := by
  intro i n _ hpos hlt
  obtain ⟨hword, hlen⟩ := wordAndLength i
  obtain ⟨n, rfl⟩ := Nat.exists_eq_add_one.2 hpos
  have hshort : ((operandBytes i).take n).length < (opOf i).operandBytes := by
    rw [List.length_take]
    omega
  rw [encode, List.take_succ_cons, decode, hword]
  exact if_pos hshort

/-- Settles O10: each sequence is evaluated by the decoder. -/
theorem specWordsDecode : Obligations.SpecWordsDecode := by
  unfold Obligations.SpecWordsDecode
  decide

end Sys2Proof

/-! ### Reserved words (R54, R76, R182) -/

namespace Sys2Proof

/-- The words of misaligned accesses, by number: an odd half-word offset, or a word offset that is no multiple of 4 (R76). -/
def MisalignedNumber (n : Nat) : Prop :=
  (n % 2 = 1 ∧ ((0x10 ≤ n ∧ n ≤ 0x1F) ∨ (0x50 ≤ n ∧ n ≤ 0x5F))) ∨
    (n % 4 ≠ 0 ∧ ((0x20 ≤ n ∧ n ≤ 0x2F) ∨ (0x60 ≤ n ∧ n ≤ 0x6F)))

/-- The other reserved words, by number: the size 11 of format B, and in format I the kinds 100 to 111, `z ≠ 00`, and a low
nibble that is not 0 (R76). -/
def UnusedNumber (n : Nat) : Prop :=
  ((0x30 ≤ n ∧ n ≤ 0x3F) ∨ (0x70 ≤ n ∧ n ≤ 0x7F)) ∨ 0xC0 ≤ n ∨
    ((0x84 ≤ n ∧ n ≤ 0x8F) ∨ (0x94 ≤ n ∧ n ≤ 0x9F)) ∨ ((0xA1 ≤ n ∧ n ≤ 0xAF) ∨ (0xB1 ≤ n ∧ n ≤ 0xBF))

/-- No word is in both of R76's groups. -/
theorem UnusedNumber.not_misaligned {n : Nat} (h : UnusedNumber n) : ¬MisalignedNumber n := by
  unfold UnusedNumber at h
  unfold MisalignedNumber
  omega

theorem opOfWord_eq_none_iff_forall (w : Byte) : opOfWord w = none ↔ ∀ r ∈ opcodeRows, w &&& r.mask ≠ r.pattern := by
  simp [opOfWord]

/-- The mask of the bus accesses clears the channel bits 3:2 (R71). -/
theorem and_busMask_toNat (w : Byte) : (w &&& 0xF3#8).toNat = w.toNat / 16 * 16 + w.toNat % 4 := by
  revert w; decide

/-- The mask of OVF and RD_RELOAD clears the channel bits 1:0 (R72). -/
theorem and_internalMask_toNat (w : Byte) : (w &&& 0xFC#8).toNat = w.toNat / 4 * 4 := by
  revert w; decide

/-- The words that match no row of R75 are those that R76 lists. -/
theorem opOfWord_eq_none_iff (w : Byte) : opOfWord w = none ↔ MisalignedNumber w.toNat ∨ UnusedNumber w.toNat := by
  have hw : w.toNat < 256 := w.isLt
  have hfull : w &&& 0xFF#8 = w := BitVec.and_allOnes
  simp only [opOfWord_eq_none_iff_forall, opcodeRows, List.forall_mem_cons, List.not_mem_nil, false_imp_iff, implies_true,
    and_true, ne_eq, ← BitVec.toNat_inj, and_busMask_toNat, and_internalMask_toNat, hfull, BitVec.toNat_ofNat,
    Nat.reducePow, Nat.reduceMod, MisalignedNumber, UnusedNumber]
  omega

/-- The decoder calls misaligned the words that R76 lists as misaligned accesses. -/
theorem misalignedWord_iff (w : Byte) : misalignedWord w = true ↔ MisalignedNumber w.toNat := by
  unfold MisalignedNumber
  revert w
  decide

end Sys2Proof

namespace Sys2Proof.Machine

/-- A reserved word at the head of the host's stream is refused by its kind, whatever follows it (R76, R182). -/
theorem step_of_reserved {s : State} {w : Byte} {more : List HostItem} (hf : s.fault = none)
    (hs : s.input = .byte w :: more) (hw : opOfWord w = none) : step s = .refused (.atInterface (reservedKind w)) := by
  simp [step, hf, State.fetch, hs, streamBytes, decode, hw]

/-- Settles O11: the words that match no row are those of R76's two groups, and the group is the kind of the refusal. -/
theorem reservedWordsAreRefused : Obligations.ReservedWordsAreRefused := by
  refine ⟨fun w => ((opOfWord_eq_none_iff w).trans or_left_comm).trans (or_congr_right or_assoc), by rfl,
    fun s w more hf hs => ⟨fun h => ?_, fun h => ?_⟩⟩
  · have hmis : MisalignedNumber w.toNat := h
    rw [step_of_reserved hf hs ((opOfWord_eq_none_iff w).2 (.inl hmis)), reservedKind,
      if_pos ((misalignedWord_iff w).2 hmis)]
  · have hun : UnusedNumber w.toNat := h
    rw [step_of_reserved hf hs ((opOfWord_eq_none_iff w).2 (.inr hun)), reservedKind,
      if_neg (mt (misalignedWord_iff w).1 hun.not_misaligned)]

/-- No overflow event of channel `c` is being delivered where the event being fired, if there is one, calls something else. -/
theorem State.deliveredOverflow_eq_none_iff (s : State) (c : Chan) :
    s.deliveredOverflow c = none ↔ ∀ e, s.firing = some e → e.cb ≠ .ovf c := by
  unfold State.deliveredOverflow
  split
  · next e he => simp [he]
  · next he => simp [he]

/-- Settles O32: OVF runs only with an overflow event of its channel being delivered. -/
theorem hostOverflowIsRefused : Obligations.HostOverflowIsRefused := by
  intro s c hf hfiring
  have hd : s.deliveredOverflow c = none := (s.deliveredOverflow_eq_none_iff c).2 hfiring
  simp [exec, execOvf, hf, hd]

/-! ### The pseudo-instructions (R80) -/

theorem offChan_four_mul (c : Chan) : offChan (4 * c.val) = c := by
  revert c; decide

theorem offChan_four_mul_add_two (c : Chan) : offChan (4 * c.val + 2) = c := by
  revert c; decide

theorem assemble_rd16Cnt (c : Chan) : assemble (.rd16 (4 * c.val)) = some (.rd16Cnt c) := by
  revert c; decide

theorem assemble_rd16Ctl (c : Chan) : assemble (.rd16 (4 * c.val + 2)) = some (.rd16Ctl c) := by
  revert c; decide

theorem assemble_wr16Reload (c : Chan) (v : Half) : assemble (.wr16 (4 * c.val) v.toNat) = some (.wr16Reload c v) := by
  have hoff : 4 * c.val < 16 ∧ v.toNat ≤ 0xFFFF := ⟨by omega, Nat.le_of_lt_succ v.isLt⟩
  simp [assemble, hoff, offChan_four_mul]

theorem assemble_wr16Ctl (c : Chan) (v : Half) : assemble (.wr16 (4 * c.val + 2) v.toNat) = some (.wr16Ctl c v) := by
  have hoff : 4 * c.val + 2 < 16 ∧ v.toNat ≤ 0xFFFF := ⟨by omega, Nat.le_of_lt_succ v.isLt⟩
  simp [assemble, hoff, offChan_four_mul_add_two]

theorem assemble_wr32 (c : Chan) (w : Word) : assemble (.wr32 (4 * c.val) w.toNat) = some (.wr32 c w) := by
  have hoff : 4 * c.val < 16 ∧ w.toNat ≤ 0xFFFFFFFF := ⟨by omega, Nat.le_of_lt_succ w.isLt⟩
  simp [assemble, hoff, offChan_four_mul]

theorem assemble_advance {t : Nat} (ht : t < 2 ^ 64) : assemble (.advance t) = some (.advance t) := if_pos ht

/-- A program assembles line by line, with the time tracked from one line to the next (R80). -/
theorem assembleProgram_cons {t0 : Nat} {l : SourceLine} {ls : List SourceLine} {is js : List Instr}
    (hl : (l.lines t0).mapM assemble = some is) (hls : assembleProgram (l.track t0) ls = some js) :
    assembleProgram t0 (l :: ls) = some (is ++ js) := by
  simp [assembleProgram, hl, hls]

theorem assembleProgram_pseudo {t0 : Nat} {p : Pseudo} {is : List Instr} (h : (p.expand t0).mapM assemble = some is) :
    assembleProgram t0 [.pseudo p] = some is := by
  simpa using assembleProgram_cons (l := .pseudo p) (ls := []) h rfl

/-- `wait n` advances to `n` cycles after the tracked time (R80). -/
theorem assembleProgram_wait {t0 n : Nat} (h : t0 + n < 2 ^ 64) :
    assembleProgram t0 [.pseudo (.wait n)] = some [.advance (t0 + n)] :=
  assembleProgram_pseudo (by simp [Pseudo.expand, assemble_advance h])

/-- Settles O14: each line of an expansion is in range, and `wait` counts from the time tracked so far. -/
theorem pseudoInstructionsExpand : Obligations.PseudoInstructionsExpand := by
  intro c r v t0 n
  have hrun : v.toNat ||| 0x80 = (v ||| 0x0080#16).toNat := by rw [BitVec.toNat_or]; rfl
  have hstop : v.toNat &&& 0xFF7F = (v &&& 0xFF7F#16).toNat := by rw [BitVec.toNat_and]; rfl
  refine ⟨assembleProgram_pseudo ?_, assembleProgram_pseudo ?_, assembleProgram_pseudo ?_, assembleProgram_pseudo ?_,
    assembleProgram_pseudo ?_, assembleProgram_pseudo ?_, assembleProgram_pseudo ?_, fun hn => ?_, fun T hT => ?_⟩
  · simp [Pseudo.expand, assemble_wr16Reload]
  · simp [Pseudo.expand, assemble_wr16Ctl]
  · simp [Pseudo.expand, assemble_rd16Cnt]
  · simp [Pseudo.expand, assemble_rd16Ctl]
  · rw [Pseudo.expand, hrun]
    simp [assemble_wr16Reload, assemble_wr16Ctl, -BitVec.toNat_or]
  · rw [Pseudo.expand, hrun, ← BitVec.toNat_append]
    simp [assemble_wr32, -BitVec.toNat_append]
  · rw [Pseudo.expand, hstop]
    simp [assemble_wr16Ctl, -BitVec.toNat_and]
  · have hfirst : t0 + n < 2 ^ 64 := by omega
    exact assembleProgram_cons (is := [.advance (t0 + n)])
      (by simp [SourceLine.lines, Pseudo.expand, assemble_advance hfirst]) (assembleProgram_wait hn)
  · have hT0 : T < 2 ^ 64 := by omega
    exact assembleProgram_cons (is := [.advance T]) (by simp [SourceLine.lines, assemble_advance hT0])
      (assembleProgram_wait hT)

end Sys2Proof.Machine

/-! # Proofs of the family 40_timebase: when time moves, the loop of ADVANCE and its end, faults, requests of foreign components -/

/-! ### Time and faults in the operations other than ADVANCE (R100, R112) -/

namespace Sys2Proof.Machine

section
variable {s t : State} {c : Chan}

/-- What an operation other than ADVANCE can do: nothing, a change of the block's, or the delivery of an overflow. -/
theorem exec_cases_of_ne_advance {i : Instr} (hadv : ∀ T, i ≠ .advance T) (h : exec i s = .next t) :
    t = s ∨ (∃ f, BlockOp f ∧ t = f s) ∨
      ∃ c tReq, i = .ovf c ∧ t = { deliverOverflow c tReq s with firing := none } := by
  by_cases hovf : ∃ c, i = .ovf c
  · obtain ⟨c, rfl⟩ := hovf
    exact (execOvf_cases h).imp_right fun ⟨tReq, ht⟩ => .inr ⟨c, tReq, rfl, ht⟩
  · obtain ⟨f, hop, hexec⟩ := exec_eq_unlessFaulted (not_exists.1 hovf) hadv
    rw [hexec, unlessFaulted_eq_next] at h
    obtain ⟨-, ht⟩ | ⟨-, ht⟩ := h
    · exact .inr (.inl ⟨f, hop, ht⟩)
    · exact .inl ht

/-- Settles O6: what an operation other than ADVANCE does, it does at one time; and no step under the invariant goes back. -/
theorem timeMovesOnlyInAdvance : Obligations.TimeMovesOnlyInAdvance := by
  refine ⟨fun i s t hadv h => ?_, fun s t hinv h => (step_inv_grows hinv h).2.now⟩
  obtain rfl | ⟨f, hop, rfl⟩ | ⟨c, tReq, -, rfl⟩ := exec_cases_of_ne_advance hadv h
  · rfl
  · exact (hop.emits s).now
  · exact (Emits.deliverOverflow c tReq s).now

/-- A control write raises no fault: the events it registers are not past (R112, R123). -/
theorem writeControl_fault (hf : s.fault = none) (c : Chan) (v : Half) : (writeControl c v s).fault = none := by
  obtain ⟨u, hu, heq⟩ := writeControl_recounts hf c v
  rw [heq]
  exact hu.fault.trans hf

/-- RESET leaves the fault as it is (R201). -/
theorem resetChannels_fault (s : State) : (resetChannels s).fault = s.fault := by
  have hone : ∀ c u, (resetChannel c u).fault = u.fault := cancelOverflow_fault
  simp only [resetChannels, hone]

/-- The block's changes raise no fault (R112). -/
theorem BlockOp.fault {f : State → State} (h : BlockOp f) (hf : s.fault = none) : (f s).fault = none := by
  cases h with
  | read v => exact hf
  | reload c v => exact hf
  | control c v => exact writeControl_fault hf c v
  | reloadControl c v w => exact writeControl_fault (s := writeReload c v s) hf c w
  | nothing => exact hf
  | reset => exact (resetChannels_fault s).trans hf

/-- An overflow delivered at its own time raises no fault: the next one is later (R112, R160). -/
theorem deliverOverflow_fault (hf : s.fault = none) {tReq : Nat} (hreq : s.now ≤ tReq) :
    (deliverOverflow c tReq s).fault = none := by
  rw [deliverOverflow_of_le hf (hreq.trans (Nat.le_add_right _ _))]
  exact (overflowCommon_same c _).fault.trans hf

end

end Sys2Proof.Machine

/-! ### The loop of ADVANCE, one event at a time (R105, R109) -/

namespace Sys2Proof.Machine

section
variable {s t : State} {c : Chan} {e : Event} {T : Nat}

theorem fire_of_ovf (hcb : e.cb = .ovf c) (s : State) :
    fire e s = { deliverOverflow c e.t (s.beginFiring e) with firing := none } := by
  simp [fire, hcb]

theorem fire_of_foreign {owner : Nat} (hcb : e.cb = .foreign owner) (s : State) :
    fire e s = { foreignCallback owner (s.beginFiring e) with firing := none } := by
  simp [fire, hcb]

/-- A foreign callback's actions emit at the time of the callback. -/
theorem callbackActions_emits (hg : s.NotDelivering) (owner : Nat) (as : List CallbackAction) :
    Emits s (callbackActions owner as s) := by
  induction as generalizing s with
  | nil => exact .refl s
  | cons a as ih =>
    have hfirst := callbackAction_emits hg owner a
    simp only [callbackActions, State.andThen]
    split
    · exact hfirst
    · exact hfirst.trans (ih (hg.congr hfirst.firing))

theorem foreignCallback_emits (hg : s.NotDelivering) (owner : Nat) : Emits s (foreignCallback owner s) := by
  unfold foreignCallback
  split
  · exact .refl s
  · next as rest _ =>
    have htaken : Emits s { s with schedule := rest } := .silent rfl rfl rfl rfl
    exact htaken.trans (callbackActions_emits (s := { s with schedule := rest }) (hg.congr rfl) owner as)

/-- Firing moves the time to that of the event, whatever its callback does (R100, R105). -/
theorem fire_now (e : Event) (s : State) : (fire e s).now = e.t := by
  cases hcb : e.cb with
  | ovf c =>
    rw [fire_of_ovf hcb]
    exact (Emits.deliverOverflow c e.t (s.beginFiring e)).now
  | foreign owner =>
    rw [fire_of_foreign hcb]
    exact (foreignCallback_emits (s := s.beginFiring e) (State.notDelivering_of_foreign rfl hcb) owner).now

/-- The block's own event fires without a fault (R112). -/
theorem fire_fault_of_ovf (hf : s.fault = none) (hcb : e.cb = .ovf c) : (fire e s).fault = none := by
  rw [fire_of_ovf hcb]
  exact deliverOverflow_fault (s := s.beginFiring e) hf le_rfl

/-- The loop ends where nothing is due, at its target. -/
theorem advanceLoop_of_nextDue_none (hdue : s.nextDue T = none) (fuel : Nat) :
    advanceLoop T fuel s = some { s with now := T } := by
  cases fuel <;> simp [advanceLoop, hdue]

/-- Otherwise it fires the next event, and goes on unless a fault was raised (R181). -/
theorem advanceLoop_of_nextDue_some (hdue : s.nextDue T = some e) (fuel : Nat) :
    advanceLoop T (fuel + 1) s = if (fire e s).fault.isSome then some (fire e s) else advanceLoop T fuel (fire e s) := by
  simp [advanceLoop, hdue]

/-- More events to fire than the loop needs change nothing. -/
theorem advanceLoop_mono {m n : Nat} (h : advanceLoop T m s = some t) (hmn : m ≤ n) : advanceLoop T n s = some t := by
  induction n generalizing m s with
  | zero => rwa [Nat.le_zero.1 hmn] at h
  | succ n ih =>
    cases hdue : s.nextDue T with
    | none => rwa [advanceLoop_of_nextDue_none hdue] at h ⊢
    | some e =>
      cases m with
      | zero => simp [advanceLoop, hdue] at h
      | succ m =>
        rw [advanceLoop_of_nextDue_some hdue] at h ⊢
        split
        · next hfault => simpa [hfault] using h
        · next hfault => exact ih (by simpa [hfault] using h) (Nat.le_of_succ_le_succ hmn)

/-- ADVANCE to a target not before `now` is its loop, with any bound that is large enough. -/
theorem execAdvance_eq_of_loop (hf : s.fault = none) (hT : s.now ≤ T) {fuel : Nat} (hfuel : s.advanceBound T ≤ fuel)
    (h : advanceLoop T fuel s = some t) : execAdvance T s = .next t := by
  obtain ⟨u, hu⟩ := advanceLoop_ends T (s.advanceBound T) s le_rfl
  obtain rfl : u = t := Option.some.inj ((advanceLoop_mono hu hfuel).symm.trans h)
  simp [execAdvance, hf, Nat.not_lt.2 hT, hu]

/-- A target in the past (R111). -/
theorem execAdvance_of_lt (hf : s.fault = none) (hT : T < s.now) :
    execAdvance T s = .next (raiseFault .advanceBackward T s) := by
  simp [execAdvance, hf, hT]

/-- With nothing due, only the time moves. -/
theorem execAdvance_of_nextDue_none (hf : s.fault = none) (hT : s.now ≤ T) (hdue : s.nextDue T = none) :
    execAdvance T s = .next { s with now := T } :=
  execAdvance_eq_of_loop hf hT le_rfl (advanceLoop_of_nextDue_none hdue _)

/-- Otherwise the next event fires and ADVANCE goes on; after a fault, going on changes nothing. -/
theorem execAdvance_of_nextDue_some (hf : s.fault = none) (hT : s.now ≤ T) (hdue : s.nextDue T = some e) :
    execAdvance T s = execAdvance T (fire e s) := by
  have hbound := fire_lowers_bound hdue
  by_cases hf' : (fire e s).fault = none
  · obtain ⟨t, ht⟩ := advanceLoop_ends T _ (fire e s) le_rfl
    have hnow : (fire e s).now ≤ T := (fire_now e s).trans_le (State.nextDue_mem hdue).2
    have hloop : advanceLoop T ((fire e s).advanceBound T + 1) s = some t := by
      simpa [advanceLoop_of_nextDue_some hdue, hf'] using ht
    rw [execAdvance_eq_of_loop hf' hnow le_rfl ht]
    exact execAdvance_eq_of_loop hf hT le_rfl (advanceLoop_mono hloop hbound)
  · rw [execAdvance_of_fault hf']
    exact execAdvance_eq_of_loop hf hT (fuel := s.advanceBound T + 1) (Nat.le_succ _)
      (by simp [advanceLoop_of_nextDue_some hdue, Option.isSome_iff_ne_none.2 hf'])

/-- The due event that is strictly first in (t, seq) is the next to fire (R105, R106). -/
theorem State.nextDue_of_first (he : e ∈ s.queue) (hT : e.t ≤ T)
    (hfirst : ∀ x ∈ s.queue, x ≠ e → x.t ≤ T → e.t < x.t ∨ (e.t = x.t ∧ e.seq < x.seq)) : s.nextDue T = some e := by
  cases hdue : s.nextDue T with
  | none => exact absurd (State.nextDue_eq_none.1 hdue e he) (Nat.not_lt.2 hT)
  | some x =>
    by_contra hne
    obtain ⟨hx, hxT⟩ := State.nextDue_mem hdue
    have hbefore : e.before x = true := Event.before_iff.2 (hfirst x hx (fun h => hne (h ▸ rfl)) hxT)
    rw [State.nextDue_least hdue he hT] at hbefore
    cases hbefore

/-- `State.beginFiring` with the queue's filter in the statements' form. -/
theorem State.beginFiring_eq (e : Event) (s : State) :
    { s with queue := s.queue.filter fun x => decide (x ≠ e), now := e.t, firing := some e } = s.beginFiring e := by
  simp [State.beginFiring, bne, beq_eq_decide]

/-- Delivered by the scheduler, OVF is the firing of its event (R77, R160). -/
theorem execOvf_beginFiring (hf : s.fault = none) (hcb : e.cb = .ovf c) :
    execOvf c (s.beginFiring e) = .next (fire e s) := by
  rw [fire_of_ovf hcb]
  simp [execOvf, State.deliveredOverflow, State.beginFiring, hf, hcb]

/-- ADVANCE to a target not before `now` ends: by induction on the bound, which each event fired lowers. -/
theorem execAdvance_ends (s : State) (hf : s.fault = none) (hT : s.now ≤ T) :
    ∃ t, execAdvance T s = .next t ∧ (t.fault = none → t.now = T ∧ ∀ e ∈ t.queue, T < e.t) := by
  cases hdue : s.nextDue T with
  | none =>
    exact ⟨_, execAdvance_of_nextDue_none hf hT hdue, fun _ => ⟨rfl, State.nextDue_eq_none.1 hdue⟩⟩
  | some e =>
    rw [execAdvance_of_nextDue_some hf hT hdue]
    by_cases hf' : (fire e s).fault = none
    · exact execAdvance_ends (fire e s) hf' ((fire_now e s).trans_le (State.nextDue_mem hdue).2)
    · exact ⟨_, execAdvance_of_fault hf' T, fun h => absurd h hf'⟩
termination_by s.advanceBound T
decreasing_by exact fire_lowers_bound hdue

/-- With no foreign callback left to run, no event's firing raises a fault. -/
theorem fire_fault_of_schedule_nil (hf : s.fault = none) (hs : s.schedule = []) (e : Event) :
    (fire e s).fault = none := by
  cases hcb : e.cb with
  | ovf c => exact fire_fault_of_ovf hf hcb
  | foreign owner =>
    rw [fire_of_foreign hcb]
    simpa [foreignCallback, State.beginFiring, hs] using hf

end

/-- Settles O41: the queue determines the next event, and ADVANCE goes on from the state its firing leaves. -/
theorem advanceFollowsTheLoop : Obligations.AdvanceFollowsTheLoop := by
  intro s T hf
  refine ⟨rfl, execAdvance_of_lt hf, fun hT hnone => ?_, fun e he hT heT hfirst => ?_⟩
  · exact execAdvance_of_nextDue_none hf hT (State.nextDue_eq_none.2 hnone)
  have hgoesOn : execAdvance T s = execAdvance T (fire e s) :=
    execAdvance_of_nextDue_some hf hT (State.nextDue_of_first he heT hfirst)
  intro begun
  have hbegun : begun = s.beginFiring e := State.beginFiring_eq e s
  rw [hbegun]
  refine ⟨fun c hcb => ?_, fun owner hcb => ?_⟩
  · exact ⟨fire e s, execOvf_beginFiring hf hcb, fire_fault_of_ovf hf hcb, hgoesOn⟩
  · rw [← fire_of_foreign hcb s]
    exact ⟨fun _ => hgoesOn, fun hfault => hgoesOn.trans (execAdvance_of_fault hfault T)⟩

/-- Settles O42: by induction on the bound of the loop. -/
theorem advanceReachesItsTarget : Obligations.AdvanceReachesItsTarget := fun s _ => execAdvance_ends s

/-- Settles O44: every event the block registers is later than `now`, in its operations and in each event an ADVANCE fires. -/
theorem blockNeverSchedulesInThePast : Obligations.BlockNeverSchedulesInThePast := by
  refine ⟨fun i s t hf hovf hadv h => ?_, fun s t T hf hs hT h => ?_⟩
  · obtain rfl | ⟨f, hop, rfl⟩ | ⟨c, -, hi, -⟩ := exec_cases_of_ne_advance hadv h
    · exact hf
    · exact hop.fault hf
    · exact absurd hi (hovf c)
  · obtain ⟨hlt, -⟩ | ⟨-, hloop⟩ := execAdvance_cases hf h
    · exact absurd hT (Nat.not_le.2 hlt)
    · refine (advanceLoop_induction (P := fun u => u.fault = none ∧ u.schedule = []) ?_ ?_ _ ⟨hf, hs⟩ hf hloop).1
      · rintro u e ⟨hfu, hsu⟩ - -
        exact ⟨fire_fault_of_schedule_nil hfu hsu e, (KeepsSettings.fire hsu e).schedule.trans hsu⟩
      · exact fun _ hu _ => hu

end Sys2Proof.Machine

/-! ### Requests of foreign components (R101, R103, R104) -/

namespace Sys2Proof.Machine

/-- A request at the head of the input goes to the scheduler (R101). -/
theorem step_of_request {s : State} {owner : Nat} {r : ForeignRequest} {rest : List HostItem} (hf : s.fault = none)
    (hs : s.input = .request owner r :: rest) : step s = .next (foreignRequest owner r { s with input := rest }) :=
  (stepRunsWhatIsIssued s hf).2.2 owner r rest hs

/-- Settles O39: the step is `Sched.Add` at the requested time. -/
theorem addRegistersOrFaults : Obligations.AddRegistersOrFaults := by
  intro s owner t rest hf hs
  rw [step_of_request hf hs, foreignRequest_add]
  exact ⟨fun ht => congrArg _ (schedAdd_of_le (by exact ht) _), fun ht => congrArg _ (schedAdd_of_lt (by exact ht) _)⟩

/-- Settles O40: the step is `Sched.Cancel` of an event of the owner's own, and nothing for any other handle. -/
theorem cancelRemovesOwnEvent : Obligations.CancelRemovesOwnEvent := by
  intro s owner h rest hf hs
  rw [step_of_request hf hs]
  refine ⟨fun hown => ?_, fun hown => ?_⟩
  · rw [foreignRequest_cancel_of_owned (by exact hown)]
    simp [schedCancel, bne, beq_eq_decide]
  · rw [foreignRequest_cancel_of_not_owned (by exact hown)]

end Sys2Proof.Machine

/-! # Proofs of the family 41_register_access: the words of the accesses, reads, reload writes, control writes by transition -/

/-! ### Operation words and the placement of bus data (R53, R71, R74) -/

namespace Sys2Proof

/-- The channel bits of a bus word's pattern are clear, so the channel is added to it (R71). -/
theorem busOpcode_eq_ofNat {p : Byte} (hp : p &&& 0x0C#8 = 0#8) (c : Chan) :
    busOpcode p c = BitVec.ofNat 8 (p.toNat + 4 * c.val) := by
  have hc : BitVec.ofNat 8 (4 * c.val) = 0x0C#8 &&& BitVec.ofNat 8 (4 * c.val) := by revert c; decide
  have hdisjoint : p &&& BitVec.ofNat 8 (4 * c.val) = 0#8 := by
    rw [hc, ← BitVec.and_assoc, hp, BitVec.zero_and]
  rw [busOpcode, BitVec.ofNat_add, BitVec.ofNat_toNat, BitVec.setWidth_eq, BitVec.add_eq_or_of_and_eq_zero _ _ hdisjoint]

/-- So is the channel to RD_RELOAD's pattern (R72). -/
theorem opWord_rdReload (c : Chan) : opWord (.rdReload c) = BitVec.ofNat 8 (0x90 + c.val) := by
  revert c
  decide

end Sys2Proof

namespace Sys2Proof.Machine

theorem lowByte_eq_setWidth (v : Half) : lowByte v = v.setWidth 8 :=
  (BitVec.setWidth_eq_extractLsb' (by decide)).symm

theorem highByte_eq_setWidth (v : Half) : highByte v = (v >>> 8).setWidth 8 :=
  BitVec.setWidth_ushiftRight_eq_extractLsb.symm

theorem lowHalf_eq_setWidth (w : Word) : lowHalf w = w.setWidth 16 :=
  (BitVec.setWidth_eq_extractLsb' (by decide)).symm

theorem highHalf_eq_setWidth (w : Word) : highHalf w = (w >>> 16).setWidth 16 :=
  BitVec.setWidth_ushiftRight_eq_extractLsb.symm

theorem joinHalves_eq_or (hi lo : Half) : joinHalves hi lo = (hi.setWidth 32 <<< 16) ||| lo.setWidth 32 := by
  rw [joinHalves, BitVec.append_def, BitVec.shiftLeftZeroExtend_eq, BitVec.setWidth'_eq]

/-- A byte written at the lower offset keeps the upper one (R53, R127). -/
theorem withLowByte_eq_or (v : Half) (b : Byte) : withLowByte v b = (v &&& 0xFF00#16) ||| b.setWidth 16 := by
  have hmask : ∀ i < 16, (0xFF00#16).getLsbD i = decide (8 ≤ i) := by decide
  apply BitVec.eq_of_getLsbD_eq
  intro i hi
  rw [withLowByte, highByte, BitVec.getLsbD_append, BitVec.getLsbD_or, BitVec.getLsbD_and, hmask i hi]
  by_cases h : i < 8
  · simp [h, hi]
  · have h8 : 8 ≤ i := Nat.le_of_not_lt h
    simp [h, h8, Nat.add_sub_cancel' h8, show i - 8 < 8 by omega]

/-- A byte written at the higher offset keeps the lower one (R53, R128). -/
theorem withHighByte_eq_or (v : Half) (b : Byte) :
    withHighByte v b = (v &&& 0x00FF#16) ||| (b.setWidth 16 <<< 8) := by
  have hmask : ∀ i < 16, (0x00FF#16).getLsbD i = decide (i < 8) := by decide
  apply BitVec.eq_of_getLsbD_eq
  intro i hi
  rw [withHighByte, lowByte, BitVec.getLsbD_append, BitVec.getLsbD_or, BitVec.getLsbD_and, hmask i hi]
  by_cases h : i < 8
  · simp [h]
  · simp [h, hi]

end Sys2Proof.Machine

/-! ### Reads and reload writes (R125 to R128, R133 to R142) -/

namespace Sys2Proof.Machine

/-- Settles O15: each read appends the bits of the counter, the control word or the reload register that its width names. -/
theorem readsReturnTheirValue : Obligations.ReadsReturnTheirValue := by
  intro s c hf
  rw [← highByte_eq_setWidth, ← lowByte_eq_setWidth, ← lowByte_eq_setWidth, ← joinHalves_eq_or]
  refine ⟨?_, opWord_rdReload c, unlessFaulted_of_none hf _, unlessFaulted_of_none hf _, unlessFaulted_of_none hf _,
    unlessFaulted_of_none hf _, unlessFaulted_of_none hf _, unlessFaulted_of_none hf _, unlessFaulted_of_none hf _,
    unlessFaulted_of_none hf _⟩
  simp [opWord, busOpcode_eq_ofNat]

/-- Settles O20: the three writes are WriteReload of the whole register, with the other byte kept in the byte writes. -/
theorem reloadWritesStoreAndNotify : Obligations.ReloadWritesStoreAndNotify := by
  refine fun s c hf => ⟨fun v => ⟨busOpcode_eq_ofNat rfl c, ?_⟩, fun b => ⟨busOpcode_eq_ofNat rfl c, ?_⟩,
    fun b => ⟨busOpcode_eq_ofNat rfl c, ?_⟩⟩
  · exact unlessFaulted_of_none hf _
  · rw [← withLowByte_eq_or]
    exact unlessFaulted_of_none hf _
  · rw [← withHighByte_eq_or]
    exact unlessFaulted_of_none hf _

/-- Settles O29: RD_RELOAD reads the register the write stored. -/
theorem reloadReadsBack : Obligations.ReloadReadsBack := by
  intro s c v hf
  have hstored : ((writeReload c v s).ch c).reload = v := by
    rw [writeReload, emit_ch, State.ch_setCh_same]
  have hread := unlessFaulted_of_none (s := writeReload c v s) hf fun t => returnValue (.half (t.ch c).reload) t
  rw [hstored] at hread
  exact ⟨writeReload c v s, unlessFaulted_of_none hf _, hread⟩

end Sys2Proof.Machine

/-! ### Control writes, by the transition of the run bit (R120 to R124, R129 to R132) -/

namespace Sys2Proof.Machine

section
variable {s u : State} {c : Chan} {v : Half}

/-- The state in which WriteControl's procedures run: the new fields are stored, nothing else is changed (R123). -/
def storeControl (c : Chan) (v : Half) (s : State) : State := s.setCh c (withControl c v (s.ch c))

/-- The fields a control write stores, with the hard-wired bit of channel 0 as a decision (R25). -/
theorem withControl_eq (c : Chan) (v : Half) (x : Channel) :
    withControl c v x =
      { x with
        sel := v.extractLsb' 0 2, cascade := decide (c ≠ 0) && v.getLsbD 2, irq := v.getLsbD 6
        run := v.getLsbD 7 } := by
  rw [withControl, bne, beq_eq_decide, ← decide_not]

theorem withControl_run (c : Chan) (v : Half) (x : Channel) : (withControl c v x).run = v.getLsbD 7 := rfl

theorem storeControl_ch (c : Chan) (v : Half) (s : State) :
    (storeControl c v s).ch c = withControl c v (s.ch c) :=
  s.ch_setCh_same c _

theorem storeControl_setCh (c : Chan) (v : Half) (s : State) (x : Channel) :
    (storeControl c v s).setCh c x = s.setCh c x :=
  s.setCh_setCh c _ x

theorem storeControl_cascadeBit (c : Chan) (v : Half) (s : State) :
    (storeControl c v s).cascadeBit c = (decide (c ≠ 0) && v.getLsbD 2) := by
  rw [State.cascadeBit, storeControl_ch, withControl_eq, bne, beq_eq_decide, ← decide_not, ← Bool.and_assoc,
    Bool.and_self]

/-- The cycles to the overflow under the prescaler that the write selects, from the table of R28. -/
theorem storeControl_cyclesToOverflow (c : Chan) (v : Half) (s : State) (w : Half) :
    (storeControl c v s).cyclesToOverflow c w =
      (0x10000 - w.toNat) * [1, 64, 256, 1024].getD (v.toNat % 4) 0 := by
  have hsel : (v.extractLsb' 0 2).toNat = v.toNat % 4 := by simp
  rw [State.cyclesToOverflow, State.prescaler, storeControl_ch, prescale_eq_table, withControl, hsel, counterRange]

/-! ### The four transitions of WriteControl -/

/-- WR16_CTL emits RATE after a procedure that only recounts the channel: no procedure raises a fault (R112, R129). -/
theorem exec_wr16Ctl_of_recounts (hf : s.fault = none) (hu : Recounts c (storeControl c v s) u)
    (h : writeControl c v s = u.andThen (emit .rate c)) : exec (.wr16Ctl c v) s = .next (emit .rate c u) := by
  rw [← State.andThen_of_none (hu.fault.trans hf) (emit .rate c), ← h]
  exact unlessFaulted_of_none hf _

theorem exec_wr16Ctl_of_stays_stopped (hf : s.fault = none) (hrun : (s.ch c).run = false)
    (hv : v.getLsbD 7 = false) : exec (.wr16Ctl c v) s = .next (emit .rate c (storeControl c v s)) :=
  exec_wr16Ctl_of_recounts hf (.refl c _)
    (by simp only [writeControl, State.ch_setCh_same, withControl_run, hrun, hv, storeControl])

theorem exec_wr16Ctl_of_starts (hf : s.fault = none) (hrun : (s.ch c).run = false) (hv : v.getLsbD 7 = true) :
    exec (.wr16Ctl c v) s = .next (emit .rate c (startChannel c (storeControl c v s))) :=
  exec_wr16Ctl_of_recounts hf (startChannel_recounts (by exact hf) c)
    (by simp only [writeControl, State.ch_setCh_same, withControl_run, hrun, hv, storeControl])

theorem exec_wr16Ctl_of_stops (hf : s.fault = none) (hrun : (s.ch c).run = true) (hv : v.getLsbD 7 = false) :
    exec (.wr16Ctl c v) s = .next (emit .rate c (stopChannel c (s.counter c) (storeControl c v s))) :=
  exec_wr16Ctl_of_recounts hf (stopChannel_recounts c _ _)
    (by simp only [writeControl, State.ch_setCh_same, withControl_run, hrun, hv, storeControl])

theorem exec_wr16Ctl_of_stays_running (hf : s.fault = none) (hrun : (s.ch c).run = true)
    (hv : v.getLsbD 7 = true) :
    exec (.wr16Ctl c v) s =
      .next (emit .rate c
        (runningWrite c (s.counter c) (s.ch c).sel (s.cascadeBit c) (storeControl c v s))) :=
  exec_wr16Ctl_of_recounts hf (runningWrite_recounts (by exact hf) c _ _ _)
    (by simp only [writeControl, State.ch_setCh_same, withControl_run, hrun, hv, storeControl])

/-- A running write re-bases when the write changes the selector or the cascade bit, and else does nothing (R124). -/
theorem runningWrite_storeControl (c : Chan) (v cur : Half) (s : State) :
    runningWrite c cur (s.ch c).sel (s.cascadeBit c) (storeControl c v s) =
      if v.extractLsb' 0 2 ≠ (s.ch c).sel ∨ (decide (c ≠ 0) && v.getLsbD 2) ≠ s.cascadeBit c then
        rebaseChannel c cur (storeControl c v s)
      else storeControl c v s := by
  rw [runningWrite, storeControl_cascadeBit, storeControl_ch, withControl]

/-- The stored cascade bit is clear when the write selects the channel's own clock (R25, R29). -/
theorem cascadeField_eq_false (h : c = 0 ∨ v.getLsbD 2 = false) : (decide (c ≠ 0) && v.getLsbD 2) = false := by
  obtain rfl | h := h
  · rfl
  · rw [h, Bool.and_false]

/-- It is set when the write selects cascade mode (R25, R29). -/
theorem cascadeField_eq_true (h : c ≠ 0 ∧ v.getLsbD 2 = true) : (decide (c ≠ 0) && v.getLsbD 2) = true := by
  rw [h.2, Bool.and_true, decide_eq_true h.1]

end

/-- Settles O21: the fields are stored and no procedure runs. -/
theorem controlWriteWhileStopped : Obligations.ControlWriteWhileStopped := by
  intro s c v hf hrun hv
  rw [exec_wr16Ctl_of_stays_stopped hf hrun hv, storeControl, withControl_eq, hv]
  rfl

/-- Settles O22: Start runs on the stored fields. -/
theorem runTransitionStartsTheChannel : Obligations.RunTransitionStartsTheChannel := by
  intro s c v hf hrun hv
  rw [exec_wr16Ctl_of_starts hf hrun hv]
  refine ⟨fun hown => ?_, fun hcascade => ?_⟩
  · have hcas := cascadeField_eq_false hown
    rw [startChannel_of_internal (by exact hf) ((storeControl_cascadeBit c v s).trans hcas), storeControl_setCh,
      storeControl_ch, storeControl_cyclesToOverflow, withControl_eq, hcas, hv]
    rfl
  · have hcas := cascadeField_eq_true hcascade
    rw [startChannel_of_cascade ((storeControl_cascadeBit c v s).trans hcas), storeControl_setCh, storeControl_ch,
      withControl_eq, hcas, hv]
    rfl

/-- Settles O23: Stop runs on the stored fields, with the counter read before they were stored. -/
theorem runTransitionStopsTheChannel : Obligations.RunTransitionStopsTheChannel := by
  intro s c v hf hrun hv
  rw [exec_wr16Ctl_of_stops hf hrun hv, stopChannel_eq, storeControl_setCh, storeControl_ch, withControl_eq, hv]
  rfl

/-- Settles O24: RunningWrite finds selector and cascade bit as they were, so the fields are stored and no procedure runs. -/
theorem runningWriteKeepsCounting : Obligations.RunningWriteKeepsCounting := by
  intro s c v hf hrun hv hsel hcas
  have hsame : ¬(v.extractLsb' 0 2 ≠ (s.ch c).sel ∨ (decide (c ≠ 0) && v.getLsbD 2) ≠ s.cascadeBit c) :=
    not_or.2 ⟨not_not.2 hsel, not_not.2 hcas⟩
  rw [exec_wr16Ctl_of_stays_running hf hrun hv, runningWrite_storeControl, if_neg hsame, storeControl, withControl_eq,
    hsel, hcas, hv, ← hrun]
  rfl

/-- Settles O25: RunningWrite finds one of them changed and re-bases on the stored fields. -/
theorem runningWriteRebases : Obligations.RunningWriteRebases := by
  intro s c v hf hrun hv hchanged
  rw [exec_wr16Ctl_of_stays_running hf hrun hv, runningWrite_storeControl, if_pos hchanged]
  refine ⟨fun hown => ?_, fun hcascade => ?_⟩
  · have hcas := cascadeField_eq_false hown
    rw [rebaseChannel_of_internal _ (by exact hf) ((storeControl_cascadeBit c v s).trans hcas), storeControl_setCh,
      storeControl_ch, storeControl_cyclesToOverflow, withControl_eq, hcas, hv]
    rfl
  · have hcas := cascadeField_eq_true hcascade
    rw [rebaseChannel_of_cascade _ ((storeControl_cascadeBit c v s).trans hcas), storeControl_setCh, storeControl_ch,
      withControl_eq, hcas, hv]
    rfl

/-- Settles O26: both writes of the pair are WriteControl of the same value. -/
theorem controlByteWrites : Obligations.ControlByteWrites := fun _ c _ hf =>
  ⟨busOpcode_eq_ofNat rfl c, busOpcode_eq_ofNat rfl c,
    ⟨_, unlessFaulted_of_none hf _, unlessFaulted_of_none hf _⟩, unlessFaulted_of_none hf _⟩

/-- Settles O27: WriteReload raises no fault, so the control write runs on the state it leaves. -/
theorem wordWriteIsReloadThenControl : Obligations.WordWriteIsReloadThenControl := by
  intro s c w hf
  rw [← lowHalf_eq_setWidth, ← highHalf_eq_setWidth]
  have hreload : (writeReload c (lowHalf w) s).fault = none := hf
  exact ⟨busOpcode_eq_ofNat rfl c, _, _, unlessFaulted_of_none hf _, unlessFaulted_of_none hreload _,
    unlessFaulted_of_none hf _⟩

/-! ### The counter right after a start (R143) -/

/-- A channel that counts from `now` shows its base: no tick has passed (R30). -/
theorem State.counter_of_tStart_eq_now {s : State} {c : Chan} (h : (s.ch c).tStart = s.now) :
    s.counter c = (s.ch c).base := by
  have hmin : min 0xFFFF (s.ch c).base.toNat = (s.ch c).base.toNat :=
    Nat.min_eq_right (Nat.le_of_lt_succ (s.ch c).base.isLt)
  rw [State.counter, State.elapsedTicks, h, Nat.sub_self, Nat.zero_div, Nat.add_zero, hmin, BitVec.ofNat_toNat,
    BitVec.setWidth_eq, ite_self]

/-- RD16_CNT of such a channel returns its base (R133). -/
theorem exec_rd16Cnt_of_tStart_eq_now {s : State} {c : Chan} {b : Half} (hf : s.fault = none)
    (h : (s.ch c).tStart = s.now) (hb : (s.ch c).base = b) :
    exec (.rd16Cnt c) s = .next { s with reads := s.reads ++ [.half b] } := by
  rw [← hb, ← State.counter_of_tStart_eq_now h]
  exact unlessFaulted_of_none hf _

/-- Settles O30: in either mode a start leaves the channel counting from `now`, with the reload value as its base. -/
theorem counterReadsReloadAfterStart : Obligations.CounterReadsReloadAfterStart := by
  intro s c v hf hrun hv
  obtain ⟨hown, hcascade⟩ := runTransitionStartsTheChannel s c v hf hrun hv
  by_cases h : c = 0 ∨ v.getLsbD 2 = false
  · exact ⟨_, hown h, exec_rd16Cnt_of_tStart_eq_now hf (by simp) (by simp)⟩
  · have h' : c ≠ 0 ∧ v.getLsbD 2 = true := by simpa using h
    exact ⟨_, hcascade h', exec_rd16Cnt_of_tStart_eq_now hf (by simp) (by simp)⟩

end Sys2Proof.Machine

/-! # Proofs of the family 42_overflow_cascade: the overflow's actions and its chain, overflow times, the per-cycle reference -/

/-! ### One cascade tick, and the overflow it may make (R162 to R164) -/

namespace Sys2Proof.Machine

section
variable {s : State} {c d n : Chan}

/-- What an overflow of channel `c` emits: IRQ(c) if enabled, then CADENCE(c) if `c` paces audio (R164 to R166). -/
def overflowEvents (c : Chan) (s : State) : List OutEvent :=
  (if (s.ch c).irq then [⟨.irq, c, s.now⟩] else []) ++ (if audioCadence c then [⟨.cadence, c, s.now⟩] else [])

theorem overflowOutputs_eq_append (c : Chan) (s : State) :
    overflowOutputs c s = { s with out := s.out ++ overflowEvents c s } := by
  rw [overflowOutputs_eq, List.append_assoc, overflowEvents]

theorem overflowOutputs_ch (c : Chan) (s : State) (d : Chan) : (overflowOutputs c s).ch d = s.ch d := by
  rw [overflowOutputs_eq, State.ch_mk]

/-- The overflow of a cascade-counting channel without the tick it sends on: the channel is reloaded and its events are emitted
(R163, R164). -/
def reloadAndEmit (n : Chan) (s : State) : State :=
  overflowOutputs n (s.setCh n { s.ch n with base := (s.ch n).reload, tStart := s.now })

theorem reloadAndEmit_same (n : Chan) (s : State) : SameButCounts s (reloadAndEmit n s) :=
  (setCount_same n _ _ s).trans (overflowOutputs_same n _)

@[simp] theorem reloadAndEmit_ch_same (n : Chan) (s : State) :
    (reloadAndEmit n s).ch n = { s.ch n with base := (s.ch n).reload, tStart := s.now } := by
  rw [reloadAndEmit, overflowOutputs_ch, State.ch_setCh_same]

theorem reloadAndEmit_ch_ne (h : d ≠ n) (s : State) : (reloadAndEmit n s).ch d = s.ch d := by
  rw [reloadAndEmit, overflowOutputs_ch, State.ch_setCh_ne _ _ h]

theorem reloadAndEmit_out (n : Chan) (s : State) : (reloadAndEmit n s).out = s.out ++ overflowEvents n s := by
  rw [reloadAndEmit, overflowOutputs_eq_append, overflowEvents, overflowEvents, State.ch_setCh_same]
  rfl

theorem State.cascadeCounting_eq_true (h : n ≠ 0) :
    s.cascadeCounting n = true ↔ (s.ch n).run = true ∧ (s.ch n).cascade = true := by
  rw [State.cascadeCounting, State.cascadeBit_of_ne h, Bool.and_eq_true]

/-- A channel that is not cascade-counting ignores a tick (R163). -/
theorem tickChain_of_not_counting (h : s.cascadeCounting n = false) (rest : List Chan) :
    tickChain (n :: rest) s = s := by
  simp [tickChain, h]

/-- One below 0xFFFF counts one up. -/
theorem tickChain_of_counts (h : s.cascadeCounting n = true) (hb : (s.ch n).base ≠ 0xFFFF#16) (rest : List Chan) :
    tickChain (n :: rest) s = s.setCh n { s.ch n with base := (s.ch n).base + 1#16 } := by
  simp [tickChain, h, hb]

/-- One at 0xFFFF overflows, and the chain goes on with the next channel. -/
theorem tickChain_of_overflows (h : s.cascadeCounting n = true) (hb : (s.ch n).base = 0xFFFF#16) (rest : List Chan) :
    tickChain (n :: rest) s = tickChain rest (reloadAndEmit n s) := by
  simp [tickChain, h, hb, reloadAndEmit]

/-- What a tick can do. -/
theorem tickChain_cases (n : Chan) (rest : List Chan) (s : State) :
    tickChain (n :: rest) s = s ∨
      (s.cascadeCounting n = true ∧ (s.ch n).base ≠ 0xFFFF#16 ∧
        tickChain (n :: rest) s = s.setCh n { s.ch n with base := (s.ch n).base + 1#16 }) ∨
      (s.cascadeCounting n = true ∧ (s.ch n).base = 0xFFFF#16 ∧
        tickChain (n :: rest) s = tickChain rest (reloadAndEmit n s)) := by
  cases h : s.cascadeCounting n with
  | false => exact .inl (tickChain_of_not_counting h rest)
  | true =>
    by_cases hb : (s.ch n).base = 0xFFFF#16
    · exact .inr (.inr ⟨rfl, hb, tickChain_of_overflows h hb rest⟩)
    · exact .inr (.inl ⟨rfl, hb, tickChain_of_counts h hb rest⟩)

/-- `base + 1` as the statements write it. -/
theorem ofNat_toNat_add_one (b : Half) : BitVec.ofNat 16 (b.toNat + 1) = b + 1#16 :=
  BitVec.eq_of_toNat_eq (by simp)

/-- The wiring: the first channel above `c` is the next one (R167). -/
theorem channelsAbove_of_lt (h : c.val < 3) :
    channelsAbove c = ⟨c.val + 1, by omega⟩ :: channelsAbove ⟨c.val + 1, by omega⟩ := by
  revert c
  decide

/-- Channels 0 and 1 pace audio (R166). -/
theorem audioCadence_eq_decide (c : Chan) : audioCadence c = decide (c.val < 2) := by
  revert c
  decide

end

/-- Settles O33: the outputs come first, and the chain above `c` begins with the tick of the next channel. -/
theorem overflowActionsInOrder : Obligations.OverflowActionsInOrder := by
  intro s c outs
  have houts : overflowOutputs c s = { s with out := s.out ++ outs } := by
    rw [overflowOutputs_eq_append, overflowEvents, audioCadence_eq_decide]
    simp [outs]
  refine ⟨fun h => ?_, ?_⟩
  · rw [overflowCommon, houts, channelsAbove_of_lt h, cascadeTick]
  · rintro rfl
    exact houts

/-- Settles O34: the three cases of a tick. -/
theorem cascadeTickCountsOrOverflows : Obligations.CascadeTickCountsOrOverflows := by
  intro s n hn
  rw [← State.cascadeCounting_eq_true hn]
  refine ⟨fun h => ?_, fun hrun hcas hb => ?_, fun hrun hcas hb => ?_⟩
  · exact tickChain_of_not_counting (Bool.not_eq_true _ ▸ h) _
  · rw [ofNat_toNat_add_one]
    exact tickChain_of_counts ((State.cascadeCounting_eq_true hn).2 ⟨hrun, hcas⟩) hb _
  · exact tickChain_of_overflows ((State.cascadeCounting_eq_true hn).2 ⟨hrun, hcas⟩) hb _

/-- Settles O31: OVF's own equation, with the prescaler read from the table of R28. -/
theorem deliveredOverflowReloadsAndRearms : Obligations.DeliveredOverflowReloadsAndRearms := by
  intro s c e hf hg hcb ht
  have hreq : s.deliveredOverflow c = some e.t := by simp [State.deliveredOverflow, hg, hcb]
  refine ⟨(by decide : ∀ c : Chan, opWord (.ovf c) = BitVec.ofNat 8 (0x80 + c.val)) c, ?_⟩
  change execOvf c s = _
  simp only [execOvf, hf, hreq, Option.isSome_none, Bool.false_eq_true, if_false]
  rw [deliverOverflow_of_le hf (ht ▸ Nat.le_add_right _ _), State.cyclesToOverflow, State.prescaler, prescale_eq_table]
  rfl

end Sys2Proof.Machine

/-! ### The chain of an overflow (R168) -/

namespace Sys2Proof.Machine

section
variable {s : State} {c d : Chan}

/-- What a chain does to one channel: nothing, one count up, or one overflow. -/
theorem tickChain_ch_cases {cs : List Chan} (hcs : cs.Nodup) (s : State) (d : Chan) :
    (tickChain cs s).ch d = s.ch d ∨
      (s.cascadeCounting d = true ∧ (s.ch d).base ≠ 0xFFFF#16 ∧
        (tickChain cs s).ch d = { s.ch d with base := (s.ch d).base + 1#16 }) ∨
      (s.cascadeCounting d = true ∧ (s.ch d).base = 0xFFFF#16 ∧
        (tickChain cs s).ch d = { s.ch d with base := (s.ch d).reload, tStart := s.now }) := by
  induction cs generalizing s with
  | nil => exact .inl rfl
  | cons n rest ih =>
    obtain ⟨hn, hrest⟩ := List.nodup_cons.1 hcs
    obtain h | ⟨hcount, hb, h⟩ | ⟨hcount, hb, h⟩ := tickChain_cases n rest s <;> rw [h]
    · exact .inl rfl
    · by_cases hd : d = n
      · subst hd
        exact .inr (.inl ⟨hcount, hb, State.ch_setCh_same _ _ _⟩)
      · exact .inl (State.ch_setCh_ne _ _ hd)
    · by_cases hd : d = n
      · subst hd
        exact .inr (.inr ⟨hcount, hb, by rw [tickChain_ch_of_not_mem rest _ hn, reloadAndEmit_ch_same]⟩)
      · have hgoesOn := ih hrest (reloadAndEmit n s)
        rwa [reloadAndEmit_ch_ne hd, (reloadAndEmit_same n s).cascadeCounting, (reloadAndEmit_same n s).now] at hgoesOn

/-- A chain upwards reaches a channel through overflows only. -/
theorem tickChain_overflows_below {cs : List Chan} (hcs : cs.Pairwise (· < ·)) {b : Chan} (hb : b ∈ cs) (hbd : b < d)
    (hd : (tickChain cs s).ch d ≠ s.ch d) : s.cascadeCounting b = true ∧ (s.ch b).base = 0xFFFF#16 := by
  induction cs generalizing s with
  | nil => exact absurd hb List.not_mem_nil
  | cons n rest ih =>
    obtain ⟨hn, hrest⟩ := List.pairwise_cons.1 hcs
    have hnb : b = n ∨ n < b ∧ b ∈ rest := (List.mem_cons.1 hb).imp_right fun h => ⟨hn b h, h⟩
    have hdn : d ≠ n := by
      rintro rfl
      exact hnb.elim (fun h => absurd h hbd.ne) fun h => absurd h.1 hbd.asymm
    obtain h | ⟨-, -, h⟩ | ⟨hcount, hfull, h⟩ := tickChain_cases n rest s <;> rw [h] at hd
    · exact absurd rfl hd
    · exact absurd (State.ch_setCh_ne _ _ hdn) hd
    · obtain rfl | ⟨hlt, hmem⟩ := hnb
      · exact ⟨hcount, hfull⟩
      · rw [← reloadAndEmit_ch_ne hdn s] at hd
        have hgoesOn := ih hrest hmem hd
        rwa [reloadAndEmit_ch_ne hlt.ne', (reloadAndEmit_same n s).cascadeCounting] at hgoesOn

/-- Events of overflows at `t` in the channels `cs`: channel after channel, each kind at most once for each, and no RATE. -/
structure OverflowOrder (cs : List Chan) (t : Nat) (l : List OutEvent) : Prop where
  ordered : l.Pairwise fun a b => a.ch < b.ch ∨ a.ch = b.ch ∧ a.kind ≠ b.kind
  time : ∀ o ∈ l, o.time = t
  ch_mem : ∀ o ∈ l, o.ch ∈ cs
  not_rate : ∀ o ∈ l, o.kind ≠ .rate

theorem overflowEvents_order (c : Chan) (s : State) : OverflowOrder [c] s.now (overflowEvents c s) := by
  unfold overflowEvents
  constructor <;> cases (s.ch c).irq <;> cases audioCadence c <;> simp

/-- The events of the chain come after those of the channel that sends it. -/
theorem OverflowOrder.cons {cs : List Chan} {t : Nat} {l m : List OutEvent} (hl : OverflowOrder [c] t l)
    (hm : OverflowOrder cs t m) (hc : ∀ d ∈ cs, c < d) : OverflowOrder (c :: cs) t (l ++ m) := by
  have hch : ∀ o ∈ l, o.ch = c := fun o ho => List.mem_singleton.1 (hl.ch_mem o ho)
  exact {
    ordered := List.pairwise_append.2 ⟨hl.ordered, hm.ordered, fun a ha b hb => .inl (hch a ha ▸ hc _ (hm.ch_mem b hb))⟩
    time := List.forall_mem_append.2 ⟨hl.time, hm.time⟩
    ch_mem := List.forall_mem_append.2
      ⟨fun o ho => hch o ho ▸ List.mem_cons_self, fun o ho => List.mem_cons_of_mem _ (hm.ch_mem o ho)⟩
    not_rate := List.forall_mem_append.2 ⟨hl.not_rate, hm.not_rate⟩ }

/-- What a chain upwards emits. -/
theorem tickChain_out {cs : List Chan} (hcs : cs.Pairwise (· < ·)) (s : State) :
    ∃ l, (tickChain cs s).out = s.out ++ l ∧ OverflowOrder cs s.now l := by
  have hsilent : ∀ cs, OverflowOrder cs s.now [] := fun cs => ⟨.nil, by simp, by simp, by simp⟩
  induction cs generalizing s with
  | nil => exact ⟨[], by simp [tickChain], hsilent _⟩
  | cons n rest ih =>
    obtain ⟨hn, hrest⟩ := List.pairwise_cons.1 hcs
    obtain h | ⟨-, -, h⟩ | ⟨-, -, h⟩ := tickChain_cases n rest s <;> rw [h]
    · exact ⟨[], by simp, hsilent _⟩
    · exact ⟨[], by simp, hsilent _⟩
    · have hnow := (reloadAndEmit_same n s).now
      obtain ⟨l, hl, horder⟩ := ih hrest (reloadAndEmit n s) (hnow ▸ hsilent)
      rw [hl, reloadAndEmit_out, List.append_assoc]
      exact ⟨_, rfl, (overflowEvents_order n s).cons (hnow ▸ horder) hn⟩

theorem channelsAbove_ascending (c : Chan) : (channelsAbove c).Pairwise (· < ·) := by
  revert c
  decide

theorem mem_channelsAbove : d ∈ channelsAbove c ↔ c < d := by
  revert c d
  decide

/-- The chain leaves the channels up to the one that overflows as they are. -/
theorem overflowCommon_ch_of_le (h : d ≤ c) : (overflowCommon c s).ch d = s.ch d :=
  (tickChain_ch_of_not_mem _ _ fun hmem => absurd (mem_channelsAbove.1 hmem) h.not_gt).trans (overflowOutputs_ch c s d)

/-- What an overflow emits: its own events, then those of the channels its chain reaches. -/
theorem overflowCommon_out (c : Chan) (s : State) :
    ∃ l, (overflowCommon c s).out = s.out ++ (overflowEvents c s ++ l) ∧ OverflowOrder (channelsAbove c) s.now l := by
  obtain ⟨l, hl, horder⟩ := tickChain_out (channelsAbove_ascending c) (overflowOutputs c s)
  rw [(overflowOutputs_same c s).now] at horder
  exact ⟨l, by rw [overflowCommon, hl, overflowOutputs_eq_append, List.append_assoc], horder⟩

end

/-- Settles O35: the chain is over the channels above `c`, in rising order, and goes on from overflow to overflow. -/
theorem chainsRunUpwardsOnce : Obligations.ChainsRunUpwardsOnce := by
  intro s c
  have hsame := overflowOutputs_same c s
  have hout := overflowOutputs_ch c s
  have hasc := channelsAbove_ascending c
  refine ⟨fun d _ => ?_, fun d b hcb hbd hd => ?_, ?_, fun d => overflowCommon_ch_of_le, ?_⟩
  · have hcases := tickChain_ch_cases (hasc.imp ne_of_lt) (overflowOutputs c s) d
    rwa [hsame.cascadeCounting, hsame.now, hout, ← ofNat_toNat_add_one] at hcases
  · rw [← hout d] at hd
    have hbelow := tickChain_overflows_below hasc (mem_channelsAbove.2 hcb) hbd hd
    rwa [hsame.cascadeCounting, hout] at hbelow
  · obtain ⟨l, hl, horder⟩ := overflowCommon_out c s
    have hall := (overflowEvents_order c s).cons horder fun d => mem_channelsAbove.1
    refine ⟨_, hl, hall.ordered.imp fun h => h.elim le_of_lt fun h => h.1.le, hall.ordered.imp ?_,
      fun o ho => ⟨hall.time o ho, ?_, hall.not_rate o ho⟩⟩
    · rintro a b (h | ⟨-, h⟩) rfl
      · exact lt_irrefl _ h
      · exact h rfl
    · exact (List.mem_cons.1 (hall.ch_mem o ho)).elim Eq.ge fun h => (mem_channelsAbove.1 h).le
  · have h := overflowCommon_same c s
    exact ⟨h.queue, h.nextSeq, h.now⟩

end Sys2Proof.Machine

/-! ### The cascade count (R173) -/

namespace Sys2Proof.Machine

/-- The step after `k` steps around a cycle of `n` ends the cycle. -/
theorem succ_div_mod_of_wrap {k n : Nat} (h : k % n + 1 = n) : (k + 1) / n = k / n + 1 ∧ (k + 1) % n = 0 := by
  refine (Nat.div_mod_unique (by omega)).2 ⟨?_, by omega⟩
  have hk := Nat.mod_add_div k n
  rw [Nat.mul_succ]
  omega

/-- The step after `k` steps around a cycle of `n` goes on in it. -/
theorem succ_div_mod_of_lt {k n : Nat} (h : k % n + 1 < n) : (k + 1) / n = k / n ∧ (k + 1) % n = k % n + 1 := by
  refine (Nat.div_mod_unique (by omega)).2 ⟨?_, h⟩
  have hk := Nat.mod_add_div k n
  omega

section
variable {s t : State} {n : Chan} {m : Nat}

/-- The number of interrupt requests of channel `n`. -/
def irqCount (n : Chan) (l : List OutEvent) : Nat := (l.filter fun o => o.kind == .irq && o.ch == n).length

theorem irqCount_append (n : Chan) (l m : List OutEvent) : irqCount n (l ++ m) = irqCount n l + irqCount n m := by
  simp [irqCount]

theorem irqCount_overflowEvents (n : Chan) (s : State) :
    irqCount n (overflowEvents n s) = if (s.ch n).irq then 1 else 0 := by
  unfold irqCount overflowEvents
  cases (s.ch n).irq <;> cases audioCadence n <;> simp

/-- An overflow of `n` requests one interrupt for `n` if enabled; its chain requests none for `n`. -/
theorem irqCount_overflowCommon (n : Chan) (s : State) :
    irqCount n (overflowCommon n s).out = irqCount n s.out + if (s.ch n).irq then 1 else 0 := by
  obtain ⟨l, hl, horder⟩ := overflowCommon_out n s
  have hnone : irqCount n l = 0 := by
    refine List.length_eq_zero_iff.2 (List.filter_eq_nil_iff.2 fun o ho => ?_)
    have hne : o.ch ≠ n := (mem_channelsAbove.1 (horder.ch_mem o ho)).ne'
    simp [hne]
  rw [hl, irqCount_append, irqCount_append, irqCount_overflowEvents, hnone, Nat.add_zero]

/-- What a tick below 0xFFFF makes of the count and the outputs. -/
theorem cascadeTick_of_counts (hcount : s.cascadeCounting n = true) (hb : (s.ch n).base ≠ 0xFFFF#16) :
    ((cascadeTick n s).ch n).base.toNat = (s.ch n).base.toNat + 1 ∧ (cascadeTick n s).out = s.out := by
  have hlt : (s.ch n).base.toNat < 65536 := (s.ch n).base.isLt
  have hne : (s.ch n).base.toNat ≠ 65535 := fun h => hb (BitVec.eq_of_toNat_eq h)
  rw [cascadeTick, tickChain_of_counts hcount hb, State.ch_setCh_same, BitVec.toNat_add_of_lt (by simp; omega)]
  exact ⟨rfl, rfl⟩

/-- What a tick at 0xFFFF makes of the count and the interrupt requests. -/
theorem cascadeTick_of_overflows (hcount : s.cascadeCounting n = true) (hb : (s.ch n).base = 0xFFFF#16) :
    ((cascadeTick n s).ch n).base = (s.ch n).reload ∧
      irqCount n (cascadeTick n s).out = irqCount n s.out + if (s.ch n).irq then 1 else 0 := by
  have htick : cascadeTick n s = overflowCommon n (s.setCh n { s.ch n with base := (s.ch n).reload, tStart := s.now }) :=
    tickChain_of_overflows hcount hb _
  rw [htick, overflowCommon_ch_of_le le_rfl, irqCount_overflowCommon, State.ch_setCh_same]
  exact ⟨rfl, rfl⟩

/-- After `m` ticks of channel `n` from its reload value: the count and the interrupt requests of R173. -/
structure Ticked (n : Chan) (m : Nat) (s t : State) : Prop where
  same : SameButCounts s t
  base : (t.ch n).base.toNat = (s.ch n).reload.toNat + m % (0x10000 - (s.ch n).reload.toNat)
  irqs : irqCount n t.out =
    irqCount n s.out + if (s.ch n).irq then m / (0x10000 - (s.ch n).reload.toNat) else 0

theorem Ticked.zero (h : (s.ch n).base = (s.ch n).reload) : Ticked n 0 s s := ⟨.refl s, by simp [h], by simp⟩

/-- One tick more: below 0xFFFF the count goes on in its cycle, at 0xFFFF it ends the cycle with an overflow. -/
theorem Ticked.tick (h : Ticked n m s t) (hcount : s.cascadeCounting n = true) : Ticked n (m + 1) s (cascadeTick n t) := by
  have hr : (s.ch n).reload.toNat < 65536 := (s.ch n).reload.isLt
  have hbase := h.base
  have hlt := Nat.mod_lt m (y := 0x10000 - (s.ch n).reload.toNat) (by omega)
  have hcount' : t.cascadeCounting n = true := (h.same.cascadeCounting n).trans hcount
  by_cases hb : (t.ch n).base = 0xFFFF#16
  · have hfull : (t.ch n).base.toNat = 65535 := congrArg BitVec.toNat hb
    obtain ⟨hdiv, hmod⟩ := succ_div_mod_of_wrap (k := m) (n := 0x10000 - (s.ch n).reload.toNat) (by omega)
    obtain ⟨hbase', hirqs'⟩ := cascadeTick_of_overflows hcount' hb
    refine ⟨h.same.trans (cascadeTick_same n t), ?_, ?_⟩
    · rw [hbase', h.same.reload, hmod, Nat.add_zero]
    · rw [hirqs', h.irqs, h.same.irq, hdiv]
      split <;> omega
  · have hnot : (t.ch n).base.toNat ≠ 65535 := fun hfull => hb (BitVec.eq_of_toNat_eq hfull)
    obtain ⟨hdiv, hmod⟩ := succ_div_mod_of_lt (k := m) (n := 0x10000 - (s.ch n).reload.toNat) (by omega)
    obtain ⟨hbase', hout'⟩ := cascadeTick_of_counts hcount' hb
    refine ⟨h.same.trans (cascadeTick_same n t), ?_, ?_⟩
    · rw [hbase', hbase, hmod, Nat.add_assoc]
    · rw [hout', h.irqs, hdiv]

end

/-- Settles O36: by induction on the number of ticks. -/
theorem cascadeCount : Obligations.CascadeCount := by
  intro s n m hn hrun hcas hbase r L t
  have hcount := (State.cascadeCounting_eq_true hn).2 ⟨hrun, hcas⟩
  have hticked : Ticked n m s t := by
    unfold t
    clear t
    induction m with
    | zero => exact .zero hbase
    | succ m ih =>
      rw [Function.iterate_succ_apply']
      exact ih.tick hcount
  have hi : t.internal n = false := by
    rw [State.internal, State.cascadeBit_of_ne hn, hticked.same.cascade, hcas, Bool.not_true, Bool.and_false]
  rw [State.counter_of_not_internal hi]
  exact ⟨hticked.base, hticked.irqs⟩

end Sys2Proof.Machine

/-! ### Where RATE comes from (R169) -/

namespace Sys2Proof.Machine

section
variable {s t u : State} {c : Chan}

/-- From `s` to `t` no RATE is emitted. -/
def NoRate (s t : State) : Prop := (t.out.filter fun o => o.kind == .rate) = s.out.filter fun o => o.kind == .rate

theorem NoRate.of_out (h : t.out = s.out) : NoRate s t := by rw [NoRate, h]

theorem NoRate.trans (h : NoRate s t) (k : NoRate t u) : NoRate s u := Eq.trans k h

theorem overflowCommon_noRate (c : Chan) (s : State) : NoRate s (overflowCommon c s) := by
  obtain ⟨l, hl, horder⟩ := overflowCommon_out c s
  have hall := (overflowEvents_order c s).cons horder fun d => mem_channelsAbove.1
  have hnone : ((overflowEvents c s ++ l).filter fun o => o.kind == .rate) = [] :=
    List.filter_eq_nil_iff.2 fun o ho => by simpa using hall.not_rate o ho
  rw [NoRate, hl, List.filter_append, hnone, List.append_nil]

theorem armOverflow_out (c : Chan) (due : Nat) (s : State) : (armOverflow c due s).out = s.out := by
  unfold armOverflow State.andThen schedAdd
  split <;> split <;> rfl

theorem deliverOverflow_noRate (c : Chan) (tReq : Nat) (s : State) : NoRate s (deliverOverflow c tReq s) := by
  have harm : ∀ due x, NoRate s (armOverflow c due (s.setCh c x)) := fun due x => .of_out (armOverflow_out c due _)
  unfold deliverOverflow State.andThen
  dsimp only
  split
  · exact harm _ _
  · exact (harm _ _).trans (overflowCommon_noRate c _)

/-- An event's firing with no foreign callback left to run. -/
theorem fire_noRate (hs : s.schedule = []) (e : Event) : NoRate s (fire e s) := by
  cases hcb : e.cb with
  | ovf c =>
    rw [fire_of_ovf hcb]
    exact deliverOverflow_noRate c e.t (s.beginFiring e)
  | foreign owner =>
    rw [fire_of_foreign hcb]
    exact .of_out (by simp [foreignCallback, State.beginFiring, hs])

theorem execAdvance_noRate {T : Nat} (hs : s.schedule = []) (h : execAdvance T s = .next t) : NoRate s t := by
  by_cases hf : s.fault = none
  · obtain ⟨-, rfl⟩ | ⟨-, hloop⟩ := execAdvance_cases hf h
    · exact .of_out rfl
    · refine (advanceLoop_induction (P := fun u => u.schedule = [] ∧ NoRate s u) ?_ ?_ _ ⟨hs, .of_out rfl⟩ hf hloop).2
      · exact fun u e hu _ _ => ⟨(KeepsSettings.fire hu.1 e).schedule.trans hu.1, hu.2.trans (fire_noRate hu.1 e)⟩
      · exact fun u hu _ => hu
  · cases (execAdvance_of_fault hf T).symm.trans h
    exact .of_out rfl

theorem unlessFaulted_out {f : State → State} (hf : ∀ u, (f u).out = u.out) (h : unlessFaulted s f = .next t) :
    t.out = s.out := by
  obtain ⟨-, rfl⟩ | ⟨-, rfl⟩ := unlessFaulted_eq_next.1 h
  · exact hf s
  · rfl

theorem unlessFaulted_returnValue_out {v : State → ReadValue}
    (h : (unlessFaulted s fun u => returnValue (v u) u) = .next t) : t.out = s.out :=
  unlessFaulted_out (fun u => returnValue_out (v u) u) h

theorem resetChannels_out (s : State) : (resetChannels s).out = s.out := by
  simp [resetChannels, resetChannel, cancelOverflow_eq]

end

/-- Settles O37: reads, RESET and the write without effect leave the output as it is; overflows emit no RATE. -/
theorem rateOnlyFromWrites : Obligations.RateOnlyFromWrites := by
  intro i s t hs hi h
  change NoRate s t
  cases i with
  | wr8ReloadLo c b => exact hi.elim
  | wr8ReloadHi c b => exact hi.elim
  | wr16Reload c v => exact hi.elim
  | wr8CtlLo c b => exact hi.elim
  | wr16Ctl c v => exact hi.elim
  | wr32 c w => exact hi.elim
  | ovf c =>
    obtain rfl | ⟨tReq, rfl⟩ := execOvf_cases h
    · exact .of_out rfl
    · exact deliverOverflow_noRate c tReq s
  | advance T => exact execAdvance_noRate hs h
  | reset => exact .of_out (unlessFaulted_out resetChannels_out h)
  | wr8CtlHi c b => exact .of_out (unlessFaulted_out (f := id) (fun _ => rfl) h)
  | _ => exact .of_out (unlessFaulted_returnValue_out h)

end Sys2Proof.Machine

/-! ### What the firing of an overflow event changes (R105, R160) -/

namespace Sys2Proof.Machine

section
variable {s : State} {e : Event} {c d : Chan}

/-- The state in which the fired OVF(c) does its common actions: reloaded, and registered anew from the event's own time. -/
def rearmed (c : Chan) (e : Event) (s : State) : State :=
  { s.setCh c { s.ch c with base := (s.ch c).reload, tStart := e.t, ev := some s.nextSeq } with
    queue := (s.queue.filter fun x => x != e) ++ [⟨e.t + s.cyclesToOverflow c (s.ch c).reload, s.nextSeq, .ovf c⟩]
    nextSeq := s.nextSeq + 1
    now := e.t
    firing := some e }

theorem fire_eq_of_ovf (hf : s.fault = none) (hcb : e.cb = .ovf c) :
    fire e s = { overflowCommon c (rearmed c e s) with firing := none } := by
  rw [fire_of_ovf hcb, deliverOverflow_of_le (s := s.beginFiring e) (tReq := e.t) hf (Nat.le_add_right e.t _)]
  rfl

theorem fire_queue_of_ovf (hf : s.fault = none) (hcb : e.cb = .ovf c) :
    (fire e s).queue =
      (s.queue.filter fun x => x != e) ++ [⟨e.t + s.cyclesToOverflow c (s.ch c).reload, s.nextSeq, .ovf c⟩] := by
  rw [fire_eq_of_ovf hf hcb]
  exact (overflowCommon_same c _).queue

/-- The channel that overflows, after the firing. -/
theorem fire_ch_same_of_ovf (hf : s.fault = none) (hcb : e.cb = .ovf c) :
    (fire e s).ch c = { s.ch c with base := (s.ch c).reload, tStart := e.t, ev := some s.nextSeq } := by
  rw [fire_eq_of_ovf hf hcb, State.ch_mk, overflowCommon_ch_of_le le_rfl]
  exact s.ch_setCh_same c _

/-- Another channel on its own clock, after the firing. -/
theorem fire_ch_ne_of_ovf (hf : s.fault = none) (hcb : e.cb = .ovf c) (hd : d ≠ c) (hi : s.internal d = true) :
    (fire e s).ch d = s.ch d := by
  have hch : (rearmed c e s).ch d = s.ch d := s.ch_setCh_ne _ hd
  have hnot : (rearmed c e s).cascadeCounting d = false := by
    rw [State.cascadeCounting_congr hch]
    simp_all [State.internal, State.cascadeCounting]
  rw [fire_eq_of_ovf hf hcb, State.ch_mk, overflowCommon_ch_of_unreached (.inr hnot), hch]

/-- A queued overflow event stands at its channel's overflow time (R31). -/
theorem State.Sound.time_of_ovf (h : s.Sound) (he : e ∈ s.queue) (hcb : e.cb = .ovf c) : e.t = s.overflowTime c := by
  have hev : (s.ch c).ev = some e.seq := (h.chan c).owned e he hcb
  rw [h.queue.event_eq he ((h.chan c).pending_of_ev hev) rfl]

/-- Its channel runs on its own clock (R31). -/
theorem State.Sound.internal_of_ovf (h : s.Sound) (he : e ∈ s.queue) (hcb : e.cb = .ovf c) : s.internal c = true :=
  (h.chan c).internal_of_ev ((h.chan c).owned e he hcb)

end
end Sys2Proof.Machine

/-! ### The count before the overflow (R30 to R32) -/

namespace Sys2Proof.Machine

section
variable {s : State} {c : Chan} {n : Nat}

/-- Before the overflow's time the count is not clamped. -/
theorem State.counter_before_overflow (hi : s.internal c = true) (hn : n < s.overflowTime c) :
    (({ s with now := n } : State).counter c).toNat = (s.ch c).base.toNat + (n - (s.ch c).tStart) / s.prescaler c := by
  have hbase : (s.ch c).base.toNat < 65536 := (s.ch c).base.isLt
  have htime : s.overflowTime c = (s.ch c).tStart + (65536 - (s.ch c).base.toNat) * s.prescaler c := rfl
  have hticks : (n - (s.ch c).tStart) / s.prescaler c < 65536 - (s.ch c).base.toNat :=
    Nat.div_lt_of_lt_mul (by
      have hpos : 0 < (65536 - (s.ch c).base.toNat) * s.prescaler c := s.cyclesToOverflow_pos c _
      rw [Nat.mul_comm]
      omega)
  exact (State.counter_of_internal (s := { s with now := n }) hi).trans (Nat.min_eq_right (by
    change (s.ch c).base.toNat + (n - (s.ch c).tStart) / s.prescaler c ≤ 65535
    omega))

/-- In the cycle before the overflow the channel is at the last cycle of its last tick. -/
theorem State.counter_phase_of_last_cycle (hi : s.internal c = true) (hn : n + 1 = s.overflowTime c) :
    ({ s with now := n } : State).counter c = 0xFFFF#16 ∧
      ({ s with now := n } : State).phase c + 1 = s.prescaler c := by
  have hbase : (s.ch c).base.toNat < 65536 := (s.ch c).base.isLt
  have htime : s.overflowTime c = (s.ch c).tStart + (65536 - (s.ch c).base.toNat) * s.prescaler c := rfl
  have hP : 0 < s.prescaler c := prescale_pos _
  obtain ⟨k, hk⟩ : ∃ k, 65536 - (s.ch c).base.toNat = k + 1 := ⟨65535 - (s.ch c).base.toNat, by omega⟩
  have hsplit : (n - (s.ch c).tStart) / s.prescaler c = k ∧
      (n - (s.ch c).tStart) % s.prescaler c = s.prescaler c - 1 := by
    refine (Nat.div_mod_unique hP).2 ⟨?_, by omega⟩
    rw [hk, Nat.succ_mul, Nat.mul_comm] at htime
    omega
  refine ⟨BitVec.eq_of_toNat_eq ?_, ?_⟩
  · rw [State.counter_before_overflow hi (by omega), hsplit.1, BitVec.toNat_ofNat]
    omega
  · change (n - (s.ch c).tStart) % s.prescaler c + 1 = s.prescaler c
    omega

end
end Sys2Proof.Machine

/-! ### Overflow times (R161, R172) -/

namespace Sys2Proof.Machine

section
variable {s t u : State} {e : Event} {c : Chan} {T : Nat}

/-- The cycles from one overflow of a channel to the next (R161). -/
def State.period (s : State) (c : Chan) : Nat := s.cyclesToOverflow c (s.ch c).reload

/-- In `u`, reached from `s`, channel `c` still counts as it did in `s`, or it overflowed last a whole number of periods after the
overflow that was pending in `s`. -/
structure OnTime (c : Chan) (s u : State) : Prop where
  internal : u.internal c = true
  reload : (u.ch c).reload = (s.ch c).reload
  sel : (u.ch c).sel = (s.ch c).sel
  count : ((u.ch c).base = (s.ch c).base ∧ (u.ch c).tStart = (s.ch c).tStart) ∨
    ((u.ch c).base = (s.ch c).reload ∧ ∃ k, (u.ch c).tStart = s.overflowTime c + k * s.period c)

theorem OnTime.refl (h : s.internal c = true) : OnTime c s s := ⟨h, rfl, rfl, .inl ⟨rfl, rfl⟩⟩

theorem OnTime.of_ch_eq (h : OnTime c s t) (hc : u.ch c = t.ch c) : OnTime c s u := by
  refine ⟨(State.internal_congr hc).trans h.internal, ?_, ?_, ?_⟩ <;> rw [hc]
  · exact h.reload
  · exact h.sel
  · exact h.count

/-- The cycles to the overflow are those of `s`. -/
theorem OnTime.cyclesToOverflow (h : OnTime c s u) (v : Half) : u.cyclesToOverflow c v = s.cyclesToOverflow c v := by
  simp [State.cyclesToOverflow, State.prescaler, h.sel]

/-- The pending overflow comes a whole number of periods after the one that was pending in `s`. -/
theorem OnTime.overflowTime (h : OnTime c s u) : ∃ k, u.overflowTime c = s.overflowTime c + k * s.period c := by
  rw [State.overflowTime, h.cyclesToOverflow]
  obtain ⟨hbase, hstart⟩ | ⟨hbase, k, hk⟩ := h.count
  · exact ⟨0, by rw [hbase, hstart, Nat.zero_mul]; rfl⟩
  · exact ⟨k + 1, by rw [hbase, hk, Nat.succ_mul, Nat.add_assoc]; rfl⟩

/-- Between two overflows of the channel lies one time that is whole periods from the first: that of the earlier one. -/
theorem OnTime.last_overflow (h : OnTime c s u) {m : Nat} (hstart : (u.ch c).tStart ≤ s.overflowTime c + m * s.period c)
    (hdue : s.overflowTime c + m * s.period c < u.overflowTime c) :
    (u.ch c).base = (s.ch c).reload ∧ (u.ch c).tStart = s.overflowTime c + m * s.period c := by
  have hP : 0 < s.period c := s.cyclesToOverflow_pos c _
  have htime : u.overflowTime c = (u.ch c).tStart + s.cyclesToOverflow c (u.ch c).base := by
    rw [State.overflowTime, h.cyclesToOverflow]
  rw [htime] at hdue
  obtain ⟨hbase, hunchanged⟩ | ⟨hbase, k, hk⟩ := h.count
  · rw [hbase, hunchanged] at hdue
    exact absurd hdue (Nat.not_lt.2 (Nat.le_add_right _ _))
  · rw [hk] at hstart hdue
    rw [hbase] at hdue
    change _ < _ + s.period c at hdue
    rw [Nat.add_assoc, ← Nat.succ_mul] at hdue
    have hkm : k ≤ m := Nat.le_of_mul_le_mul_right (Nat.le_of_add_le_add_left hstart) hP
    have hmk : m < k + 1 := Nat.lt_of_mul_lt_mul_right (Nat.lt_of_add_lt_add_left hdue)
    obtain rfl : k = m := Nat.le_antisymm hkm (Nat.le_of_lt_succ hmk)
    exact ⟨hbase, hk⟩

/-- An overflow of `c` is fired at the time it was pending at, and one of another channel leaves `c` as it is. -/
theorem OnTime.fire (h : OnTime c s u) (hu : u.Sound) (hf : u.fault = none) (he : e ∈ u.queue) {d : Chan}
    (hcb : e.cb = .ovf d) : OnTime c s (fire e u) := by
  by_cases hd : c = d
  · subst hd
    have hch := fire_ch_same_of_ovf hf hcb
    have hint : (Machine.fire e u).internal c = u.internal c := by
      simp [State.internal, State.cascadeBit, hch]
    obtain ⟨k, hk⟩ := h.overflowTime
    refine ⟨hint.trans h.internal, ?_, ?_, .inr ⟨?_, k, ?_⟩⟩ <;> rw [hch]
    · exact h.reload
    · exact h.sel
    · exact h.reload
    · exact (hu.time_of_ovf he hcb).trans hk
  · exact h.of_ch_eq (fire_ch_ne_of_ovf hf hcb hd h.internal)

theorem fire_noForeign (h : s.NoForeign) (hf : s.fault = none) (hcb : e.cb = .ovf c) : (fire e s).NoForeign := by
  rw [State.NoForeign, fire_queue_of_ovf hf hcb]
  exact List.forall_mem_append.2 ⟨fun x hx => h x (List.mem_of_mem_filter hx), by simp⟩

/-- ADVANCE with no foreign event pending leaves the channel on time, between its start and its overflow. -/
theorem execAdvance_onTime (hs : s.Sound) (hf : s.fault = none) (hforeign : s.NoForeign) (hi : s.internal c = true)
    (hT : s.now ≤ T) :
    ∃ t, execAdvance T s = .next t ∧ OnTime c s t ∧ t.now = T ∧ (t.ch c).tStart ≤ T ∧ T < t.overflowTime c := by
  obtain ⟨t, ht, hend⟩ := execAdvance_ends s hf hT
  obtain ⟨hlt, -⟩ | ⟨-, hloop⟩ := execAdvance_cases hf ht
  · exact absurd hT (Nat.not_le.2 hlt)
  have hall : (t.Sound ∧ t.fault = none ∧ t.now ≤ T) ∧ t.NoForeign ∧ OnTime c s t := by
    refine advanceLoop_induction (P := fun u => (u.Sound ∧ u.fault = none ∧ u.now ≤ T) ∧ u.NoForeign ∧ OnTime c s u)
      ?_ ?_ _ ⟨⟨hs, hf, hT⟩, hforeign, .refl hi⟩ hf hloop
    · rintro u e ⟨⟨hu, hfu, -⟩, hforeignu, honTime⟩ - hdue
      obtain ⟨he, heT⟩ := State.nextDue_mem hdue
      obtain ⟨d, hcb⟩ := hforeignu e he
      exact ⟨⟨(fire_sound_emits hu hfu hdue).1, fire_fault_of_ovf hfu hcb, (fire_now e u).trans_le heT⟩,
        fire_noForeign hforeignu hfu hcb, honTime.fire hu hfu he hcb⟩
    · rintro u ⟨⟨hu, hfu, huT⟩, hforeignu, honTime⟩ hdue
      exact ⟨⟨hu.setNow huT fun e he => (State.nextDue_eq_none.1 hdue e he).le, hfu, le_rfl⟩, hforeignu,
        honTime.of_ch_eq rfl⟩
  obtain ⟨⟨htsound, htfault, -⟩, -, honTime⟩ := hall
  obtain ⟨hnow, hqueue⟩ := hend htfault
  obtain ⟨k, -, hpending⟩ := (htsound.chan c).pending honTime.internal
  exact ⟨t, ht, honTime, hnow, hnow ▸ (htsound.chan c).started honTime.internal, hqueue _ hpending⟩

end

/-- Settles O45: before the pending overflow the channel still counts as it did, and between its start and its overflow no other
whole number of periods has room than the target's. -/
theorem overflowTimesAreExact : Obligations.OverflowTimesAreExact := by
  intro s c hinv hf hforeign hi t0 period
  have hs := (State.inv_iff.1 hinv).1
  have hnow : s.now ≤ t0 := by
    obtain ⟨k, -, hpending⟩ := hinv.pending c hi
    exact hinv.notPast _ hpending
  refine ⟨fun T hT hTt0 => ?_, fun m => ?_⟩
  · obtain ⟨t, ht, honTime, htnow, hstart, -⟩ := execAdvance_onTime hs hf hforeign hi hT
    obtain ⟨hbase, htstart⟩ : (t.ch c).base = (s.ch c).base ∧ (t.ch c).tStart = (s.ch c).tStart :=
      honTime.count.resolve_right fun ⟨_, k, hk⟩ => by
        have hle := hk ▸ hstart
        change t0 + _ ≤ T at hle
        omega
    have htime : t.overflowTime c = t0 := by
      rw [State.overflowTime, honTime.cyclesToOverflow, hbase, htstart]
      rfl
    have hprescaler : t.prescaler c = s.prescaler c := congrArg prescale honTime.sel
    have hself : ({ t with now := T } : State) = t := htnow ▸ rfl
    refine ⟨t, ht, ?_, fun hlast => ?_⟩
    · have hcount := State.counter_before_overflow honTime.internal (htime ▸ hTt0)
      rwa [hself, hbase, htstart, hprescaler] at hcount
    · exact hself ▸ (State.counter_phase_of_last_cycle honTime.internal (hlast.trans htime.symm)).1
  · obtain ⟨t, ht, honTime, htnow, hstart, hdue⟩ :=
      execAdvance_onTime hs hf hforeign hi (hnow.trans (Nat.le_add_right t0 (m * period)))
    obtain ⟨hbase, htstart⟩ := honTime.last_overflow hstart hdue
    refine ⟨t, ht, ?_, htstart⟩
    rw [State.counter_of_tStart_eq_now (htstart.trans htnow.symm), hbase]

end Sys2Proof.Machine

/-! ### The block beside the per-cycle reference model (R170, R171) -/

namespace Sys2Proof.Machine

section
variable {s t : State} {r : RefState} {c d : Chan} {m n : Nat} {x : Channel} {y : RefChannel}

@[simp] theorem RefState.ch_setCh_same (r : RefState) (c : Chan) (y : RefChannel) : (r.setCh c y).ch c = y := by
  simp [RefState.ch, RefState.setCh]

theorem RefState.ch_setCh_ne (r : RefState) (y : RefChannel) (h : d ≠ c) : (r.setCh c y).ch d = r.ch d := by
  have hne : c.val ≠ d.val := fun e => h (Fin.ext e.symm)
  simp [RefState.ch, RefState.setCh, hne]

@[simp] theorem RefState.setCh_setCh (r : RefState) (c : Chan) (x y : RefChannel) :
    (r.setCh c x).setCh c y = r.setCh c y := by
  simp [RefState.setCh]

/-- A channel has the registers of a reference channel. -/
structure SameSettings (s : State) (c : Chan) (y : RefChannel) : Prop where
  reload : (s.ch c).reload = y.reload
  sel : (s.ch c).sel = y.sel
  cascade : s.cascadeBit c = y.cascade
  irq : (s.ch c).irq = y.irq
  run : (s.ch c).run = y.run

/-- At time `n`, channel `c` shows what a reference channel shows. -/
structure MatchesAt (n : Nat) (s : State) (c : Chan) (y : RefChannel) : Prop extends SameSettings s c y where
  cnt : ({ s with now := n } : State).counter c = y.cnt
  phase : s.internal c = true → ({ s with now := n } : State).phase c = y.phase

/-- The block agrees with the reference model (R171), with a time for each channel: within a cycle the two models move the
channels one by one. -/
structure AgreesAt (time : Chan → Nat) (s : State) (r : RefState) : Prop where
  now : s.now = r.now
  out : s.out = r.out
  chan : ∀ c, MatchesAt (time c) s c (r.ch c)

/-- Between cycles every channel is at `now`. -/
theorem agrees_iff : Agrees s r ↔ AgreesAt (fun _ => s.now) s r where
  mp | ⟨hnow, hout, hchan⟩ => ⟨hnow, hout, fun c =>
    have ⟨hcnt, hphase, hreload, hsel, hcas, hirq, hrun⟩ := hchan c
    ⟨⟨hreload, hsel, hcas, hirq, hrun⟩, hcnt, hphase⟩⟩
  mpr h := ⟨h.now, h.out, fun c =>
    have ⟨⟨hreload, hsel, hcas, hirq, hrun⟩, hcnt, hphase⟩ := h.chan c
    ⟨hcnt, hphase, hreload, hsel, hcas, hirq, hrun⟩⟩

/-! ### One channel -/

theorem MatchesAt.congr (h : MatchesAt n s c y) (hc : t.ch c = s.ch c) : MatchesAt n t c y where
  reload := hc ▸ h.reload
  sel := hc ▸ h.sel
  cascade := (State.cascadeBit_congr (by rw [hc])).trans h.cascade
  irq := hc ▸ h.irq
  run := hc ▸ h.run
  cnt := (State.counter_congr (s := { t with now := n }) (t := { s with now := n }) hc rfl).trans h.cnt
  phase hi := by
    rw [← h.phase ((State.internal_congr hc).symm.trans hi)]
    change (n - (t.ch c).tStart) % prescale (t.ch c).sel = (n - (s.ch c).tStart) % prescale (s.ch c).sel
    rw [hc]

/-- A channel that is not on its own clock shows the same at every time. -/
theorem MatchesAt.of_not_internal (h : MatchesAt m s c y) (hi : s.internal c = false) (n : Nat) : MatchesAt n s c y where
  toSameSettings := h.toSameSettings
  cnt := by
    have hcnt := h.cnt
    rw [State.counter_of_not_internal (s := { s with now := m }) hi] at hcnt
    exact (State.counter_of_not_internal (s := { s with now := n }) hi).trans hcnt
  phase hi' := by simp [hi] at hi'

/-- A write of count, start and event leaves the registers. -/
theorem SameSettings.setCount (h : SameSettings s c y) (b : Half) (start : Nat) (ev : Option Nat) (k : Half) (p : Nat) :
    SameSettings (s.setCh c { s.ch c with base := b, tStart := start, ev := ev }) c { y with cnt := k, phase := p } where
  reload := by simpa using h.reload
  sel := by simpa using h.sel
  cascade := (State.cascadeBit_congr (by simp)).trans h.cascade
  irq := by simpa using h.irq
  run := by simpa using h.run

/-- A channel that begins to count at `n` shows its base and phase 0. -/
theorem SameSettings.restart (h : SameSettings s c y) (n : Nat) (b : Half) (ev : Option Nat) :
    MatchesAt n (s.setCh c { s.ch c with base := b, tStart := n, ev := ev }) c { y with cnt := b, phase := 0 } where
  toSameSettings := h.setCount b n ev b 0
  cnt := by
    rw [State.counter_of_tStart_eq_now (by rw [State.ch_mk, State.ch_setCh_same]), State.ch_mk, State.ch_setCh_same]
  phase _ := by simp [State.phase]

/-- A channel that is not on its own clock shows the base it is given. -/
theorem SameSettings.hold (h : SameSettings s c y) (hi : s.internal c = false) (n : Nat) (b : Half) (start : Nat)
    (ev : Option Nat) :
    MatchesAt n (s.setCh c { s.ch c with base := b, tStart := start, ev := ev }) c { y with cnt := b } := by
  have hi' : (s.setCh c { s.ch c with base := b, tStart := start, ev := ev }).internal c = false := by
    rw [← hi]
    simp [State.internal, State.cascadeBit]
  refine ⟨h.setCount b start ev b y.phase, ?_, by simp [hi']⟩
  exact (State.counter_of_not_internal (by exact hi')).trans (by simp)

/-! ### The whole state -/

/-- The two models change one channel. -/
theorem AgreesAt.update {time time' : Chan → Nat} (h : AgreesAt time s r) (hn : t.now = s.now) (ho : t.out = s.out)
    (hd : ∀ d, d ≠ c → t.ch d = s.ch d ∧ time' d = time d) (hc : MatchesAt (time' c) t c y) :
    AgreesAt time' t (r.setCh c y) where
  now := hn.trans h.now
  out := ho.trans h.out
  chan d := by
    by_cases hdc : d = c
    · subst hdc
      simpa using hc
    · rw [RefState.ch_setCh_ne r y hdc, (hd d hdc).2]
      exact (h.chan d).congr (hd d hdc).1

variable {time : Chan → Nat}

/-- The reference model has no queue, read values and the like. -/
theorem AgreesAt.of_same (h : AgreesAt time s r) (hc : ∀ d, t.ch d = s.ch d) (hn : t.now = s.now) (ho : t.out = s.out) :
    AgreesAt time t r where
  now := hn.trans h.now
  out := ho.trans h.out
  chan d := (h.chan d).congr (hc d)

theorem AgreesAt.setCh (h : AgreesAt time s r) (hc : MatchesAt (time c) (s.setCh c x) c y) :
    AgreesAt time (s.setCh c x) (r.setCh c y) :=
  h.update rfl rfl (fun _ hd => ⟨s.ch_setCh_ne x hd, rfl⟩) hc

theorem AgreesAt.emit (h : AgreesAt time s r) (k : OutKind) (c : Chan) : AgreesAt time (emit k c s) (refEmit k c r) where
  now := h.now
  out := by rw [emit_out, h.out, h.now]; rfl
  chan d := (h.chan d).congr rfl

theorem AgreesAt.overflowOutputs (h : AgreesAt time s r) (c : Chan) :
    AgreesAt time (overflowOutputs c s) (refOverflowOutputs c r) := by
  have hirq : AgreesAt time (if (s.ch c).irq then Machine.emit .irq c s else s)
      (if (r.ch c).irq then refEmit .irq c r else r) := by
    rw [(h.chan c).irq]
    split
    · exact h.emit _ _
    · exact h
  unfold Machine.overflowOutputs refOverflowOutputs
  dsimp only
  split
  · exact hirq.emit _ _
  · exact hirq

/-- Cascade ticks (R162 to R164). -/
theorem AgreesAt.tickChain (h : AgreesAt time s r) (cs : List Chan) : AgreesAt time (tickChain cs s) (refTickChain cs r) := by
  induction cs generalizing s r with
  | nil => exact h
  | cons n rest ih =>
    have hn := h.chan n
    have hcount : ((r.ch n).run && (r.ch n).cascade) = s.cascadeCounting n := by
      rw [← hn.run, ← hn.cascade, State.cascadeCounting]
    unfold Machine.tickChain refTickChain
    rw [hcount]
    split
    · next hcounting =>
      have hi : s.internal n = false := by simp_all [State.internal, State.cascadeCounting]
      have hcnt : (r.ch n).cnt = (s.ch n).base :=
        hn.cnt.symm.trans (State.counter_of_not_internal (s := { s with now := time n }) hi)
      rw [hcnt, ← hn.reload]
      split
      · exact ih ((h.setCh (hn.hold hi _ _ _ _)).overflowOutputs n)
      · exact h.setCh (hn.hold hi _ _ _ _)
    · exact h

theorem AgreesAt.overflowCommon (h : AgreesAt time s r) (c : Chan) :
    AgreesAt time (overflowCommon c s) (refTickChain (channelsAbove c) (refOverflowOutputs c r)) :=
  (h.overflowOutputs c).tickChain _

end
end Sys2Proof.Machine

/-! ### One cycle of one channel (R170) -/

namespace Sys2Proof.Machine

section
variable {s : State} {r : RefState} {c : Chan} {n : Nat} {time time' : Chan → Nat}

/-- A cycle of a reference channel's prescaler that does not end a tick. -/
theorem refPrescale_of_no_tick (hp : (r.ch c).phase + 1 ≠ prescale (r.ch c).sel) :
    refPrescale c r = r.setCh c { r.ch c with phase := (r.ch c).phase + 1 } := by
  simp [refPrescale, hp]

/-- A cycle that ends a tick which counts one up. -/
theorem refPrescale_of_tick (hp : (r.ch c).phase + 1 = prescale (r.ch c).sel) (hc : (r.ch c).cnt ≠ 0xFFFF#16) :
    refPrescale c r = r.setCh c { r.ch c with cnt := (r.ch c).cnt + 1#16, phase := 0 } := by
  simp [refPrescale, refIncrement, hp, hc]

/-- A cycle that ends a tick which overflows. -/
theorem refPrescale_of_overflow (hp : (r.ch c).phase + 1 = prescale (r.ch c).sel) (hc : (r.ch c).cnt = 0xFFFF#16) :
    refPrescale c r =
      refTickChain (channelsAbove c)
        (refOverflowOutputs c (r.setCh c { r.ch c with cnt := (r.ch c).reload, phase := 0 })) := by
  simp [refPrescale, refIncrement, hp, hc]

/-- Only the reading of one channel changes, and on the block's side only because time passes. -/
theorem AgreesAt.pass (h : AgreesAt time s r) (htime : ∀ d, d ≠ c → time' d = time d) {k : Half} {p : Nat}
    (hcnt : ({ s with now := time' c } : State).counter c = k) (hphase : ({ s with now := time' c } : State).phase c = p) :
    AgreesAt time' s (r.setCh c { r.ch c with cnt := k, phase := p }) :=
  have hc := h.chan c
  h.update rfl rfl (fun d hd => ⟨rfl, htime d hd⟩) ⟨⟨hc.reload, hc.sel, hc.cascade, hc.irq, hc.run⟩, hcnt, fun _ => hphase⟩

/-- A cycle of a channel on its own clock that does not bring its overflow. -/
theorem AgreesAt.prescale_before_overflow (h : AgreesAt time s r) (hi : s.internal c = true)
    (hstart : (s.ch c).tStart ≤ n) (hdue : n + 1 < s.overflowTime c) (hn : time c = n) (hn' : time' c = n + 1)
    (htime : ∀ d, d ≠ c → time' d = time d) : AgreesAt time' s (refPrescale c r) := by
  have hc := hn ▸ h.chan c
  have hP : 0 < s.prescaler c := prescale_pos _
  have hsel : prescale (r.ch c).sel = s.prescaler c := congrArg prescale hc.sel.symm
  have hphase : (n - (s.ch c).tStart) % s.prescaler c = (r.ch c).phase := hc.phase hi
  have hnext : n + 1 - (s.ch c).tStart = n - (s.ch c).tStart + 1 := Nat.sub_add_comm hstart
  have hcnt : (r.ch c).cnt.toNat = (s.ch c).base.toNat + (n - (s.ch c).tStart) / s.prescaler c :=
    hc.cnt ▸ State.counter_before_overflow hi (Nat.lt_of_succ_lt hdue)
  have hcnt' := State.counter_before_overflow hi hdue
  have hphase' : ({ s with now := n + 1 } : State).phase c = (n + 1 - (s.ch c).tStart) % s.prescaler c := rfl
  have hlt : (({ s with now := n + 1 } : State).counter c).toNat < 65536 := BitVec.isLt _
  rw [hnext] at hcnt' hphase'
  by_cases hp : (r.ch c).phase + 1 = s.prescaler c
  · obtain ⟨hdiv, hmod⟩ := succ_div_mod_of_wrap (hphase ▸ hp)
    rw [hdiv] at hcnt'
    have hnot : (r.ch c).cnt ≠ 0xFFFF#16 := fun hfull => by
      have hfull' : (r.ch c).cnt.toNat = 65535 := congrArg BitVec.toNat hfull
      omega
    rw [refPrescale_of_tick (hp.trans hsel.symm) hnot]
    refine h.pass htime (hn' ▸ BitVec.eq_of_toNat_eq ?_) (hn' ▸ hphase'.trans hmod)
    rw [BitVec.toNat_add_of_lt (by simp; omega)]
    simp
    omega
  · have hlast := Nat.mod_lt (n - (s.ch c).tStart) hP
    obtain ⟨hdiv, hmod⟩ := succ_div_mod_of_lt (k := n - (s.ch c).tStart) (n := s.prescaler c) (by omega)
    rw [hdiv] at hcnt'
    rw [refPrescale_of_no_tick (hsel ▸ hp)]
    exact h.pass htime (hn' ▸ BitVec.eq_of_toNat_eq (hcnt'.trans hcnt.symm)) (hn' ▸ hphase'.trans (hphase ▸ hmod))

/-- A cycle that brings the overflow of a channel on its own clock, whose event the block fires. -/
theorem AgreesAt.fire {e : Event} (h : AgreesAt time s r) (hf : s.fault = none) (hcb : e.cb = .ovf c)
    (hi : s.internal c = true) (hdue : n + 1 = s.overflowTime c) (het : e.t = n + 1) (hnow : s.now = n + 1)
    (hn : time c = n) (hn' : time' c = n + 1) (htime : ∀ d, d ≠ c → time' d = time d) :
    AgreesAt time' (fire e s) (refPrescale c r) := by
  have hc := hn ▸ h.chan c
  obtain ⟨hcnt, hphase⟩ := State.counter_phase_of_last_cycle hi hdue
  have hp : (r.ch c).phase + 1 = prescale (r.ch c).sel := by rw [← hc.phase hi, hphase, State.prescaler, hc.sel]
  rw [refPrescale_of_overflow hp (hc.cnt.symm.trans hcnt), fire_eq_of_ovf hf hcb]
  have hrearmed : AgreesAt time' (rearmed c e s)
      (r.setCh c { r.ch c with cnt := (r.ch c).reload, phase := 0 }) := by
    refine h.update (het.trans hnow.symm) rfl (fun d hd => ⟨s.ch_setCh_ne _ hd, htime d hd⟩) ?_
    rw [hn', ← hc.reload, ← het]
    exact (hc.restart e.t _ (some s.nextSeq)).congr rfl
  exact (hrearmed.overflowCommon c).of_same (fun _ => rfl) rfl rfl

end
end Sys2Proof.Machine

/-! ### The order of the pending events (R106, R170) -/

namespace Sys2Proof.Machine

section
variable {e x : Event} {l q : List Event} {c : Chan}

theorem Event.channel_eq_some : e.channel = some c ↔ e.cb = .ovf c := by
  unfold Event.channel
  split <;> simp [*]

theorem Event.not_before_self (e : Event) : ¬e.before e = true := by
  simp [Event.before]

theorem mem_insertEvent : x ∈ insertEvent e l ↔ x = e ∨ x ∈ l := by
  induction l with
  | nil => simp [insertEvent]
  | cons y ys ih =>
    unfold insertEvent
    split
    · simp
    · rw [List.mem_cons, ih, List.mem_cons, or_left_comm]

/-- An event registered before all of a list goes before those of its own time. -/
theorem insertEvent_sorted (hl : l.Pairwise fun a b => a.before b = true) (he : ∀ x ∈ l, e.seq < x.seq) :
    (insertEvent e l).Pairwise fun a b => a.before b = true := by
  induction l with
  | nil => simp [insertEvent]
  | cons y ys ih =>
    obtain ⟨hy, hys⟩ := List.pairwise_cons.1 hl
    obtain ⟨hey, heys⟩ := List.forall_mem_cons.1 he
    unfold insertEvent
    split
    · next hbefore =>
      refine List.pairwise_cons.2 ⟨List.forall_mem_cons.2 ⟨hbefore, fun z hz => ?_⟩, hl⟩
      have hyz := Event.before_iff.1 (hy z hz)
      rw [Event.before_iff] at hbefore ⊢
      omega
    · next hnot =>
      refine List.pairwise_cons.2 ⟨fun z hz => ?_, ih hys heys⟩
      rw [mem_insertEvent] at hz
      obtain rfl | hz := hz
      · rw [Event.before_iff] at hnot ⊢
        omega
      · exact hy z hz

/-- The pending events in the order in which they would fire. -/
def firingList (q : List Event) : List Event := q.foldr insertEvent []

theorem mem_firingList : x ∈ firingList q ↔ x ∈ q := by
  induction q with
  | nil => rfl
  | cons e q ih => rw [firingList, List.foldr_cons, mem_insertEvent, List.mem_cons]; exact or_congr_right ih

theorem firingList_sorted (hq : q.Pairwise fun a b => a.seq < b.seq) :
    (firingList q).Pairwise fun a b => a.before b = true := by
  induction q with
  | nil => exact .nil
  | cons e q ih =>
    obtain ⟨he, hq⟩ := List.pairwise_cons.1 hq
    exact insertEvent_sorted (ih hq) fun x hx => he x (mem_firingList.1 hx)

end
end Sys2Proof.Machine

/-! ### One cycle of the block (R170, R171) -/

namespace Sys2Proof.Machine

section
variable {s : State} {r : RefState} {c d : Chan} {n : Nat} {e : Event} {rest todo : List Event}

/-- The time a channel is at in the cycle from `n` to `n + 1` while the channels of the events `todo` are still to move. -/
def cycleTime (n : Nat) (todo : List Event) (c : Chan) : Nat :=
  if c ∈ todo.filterMap Event.channel then n else n + 1

/-- The block at `n + 1`, with the reference model in the middle of its cycle: the channels of the events `todo` are still to
move there, and the block still has to fire those of them that are due. -/
structure InCycle (n : Nat) (todo : List Event) (s : State) (r : RefState) : Prop where
  sound : s.Sound
  noFault : s.fault = none
  now : s.now = n + 1
  sorted : todo.Pairwise fun a b => a.before b = true
  pending : ∀ e ∈ todo, e ∈ s.queue
  started : ∀ e ∈ todo, ∀ c, e.cb = .ovf c → (s.ch c).tStart ≤ n
  due : ∀ e ∈ s.queue, e.t ≤ n + 1 → e ∈ todo ∧ ∃ c, e.cb = .ovf c
  agrees : AgreesAt (cycleTime n todo) s r

/-- A channel has one event among those to come. -/
theorem InCycle.ne_of_mem_rest (h : InCycle n (e :: rest) s r) (hcb : e.cb = .ovf c) {x : Event} (hx : x ∈ rest)
    (hxcb : x.cb = .ovf d) : d ≠ c := by
  rintro rfl
  have he := h.pending e List.mem_cons_self
  have hxq := h.pending x (List.mem_cons_of_mem _ hx)
  have hev := ((h.sound.chan d).owned e he hcb).symm.trans ((h.sound.chan d).owned x hxq hxcb)
  obtain rfl := h.sound.queue.event_eq he hxq (Option.some.inj hev)
  exact e.not_before_self ((List.pairwise_cons.1 h.sorted).1 e hx)

theorem cycleTime_cons_same (hcb : e.cb = .ovf c) : cycleTime n (e :: rest) c = n := by
  simp [cycleTime, Event.channel_eq_some.2 hcb]

theorem cycleTime_cons_ne (hcb : e.cb = .ovf c) (hd : d ≠ c) : cycleTime n rest d = cycleTime n (e :: rest) d := by
  simp [cycleTime, Event.channel_eq_some.2 hcb, hd]

theorem InCycle.cycleTime_rest (h : InCycle n (e :: rest) s r) (hcb : e.cb = .ovf c) : cycleTime n rest c = n + 1 := by
  refine if_neg fun hmem => ?_
  obtain ⟨x, hx, hxc⟩ := List.mem_filterMap.1 hmem
  exact h.ne_of_mem_rest hcb hx (Event.channel_eq_some.1 hxc) rfl

/-- An event that is due now is the next to fire, and in firing it the block moves as the reference model does. -/
theorem InCycle.fire (h : InCycle n (e :: rest) s r) (hcb : e.cb = .ovf c) (het : e.t = n + 1) :
    s.nextDue (n + 1) = some e ∧ InCycle n rest (fire e s) (refPrescale c r) := by
  have hmem := h.pending e List.mem_cons_self
  obtain ⟨hfirst, hsorted⟩ := List.pairwise_cons.1 h.sorted
  have hne : ∀ x ∈ rest, x ≠ e := fun x hx hxe => e.not_before_self (hxe ▸ hfirst x hx)
  have hnext : s.nextDue (n + 1) = some e := State.nextDue_of_first hmem het.le fun x hx hxe hxt =>
    Event.before_iff.1 (hfirst x ((List.mem_cons.1 (h.due x hx hxt).1).resolve_left hxe))
  have hi := h.sound.internal_of_ovf hmem hcb
  have hqueue := fire_queue_of_ovf h.noFault hcb
  refine ⟨hnext, ?_⟩
  exact {
    sound := (fire_sound_emits h.sound h.noFault hnext).1
    noFault := fire_fault_of_ovf h.noFault hcb
    now := (fire_now e s).trans het
    sorted := hsorted
    pending := fun x hx => by
      rw [hqueue]
      exact List.mem_append_left _ (List.mem_filter.2 ⟨h.pending x (List.mem_cons_of_mem _ hx), by simpa using hne x hx⟩)
    started := fun x hx d hd => by
      have hxq := h.pending x (List.mem_cons_of_mem _ hx)
      rw [fire_ch_ne_of_ovf h.noFault hcb (h.ne_of_mem_rest hcb hx hd) (h.sound.internal_of_ovf hxq hd)]
      exact h.started x (List.mem_cons_of_mem _ hx) d hd
    due := fun x hx hxt => by
      rw [hqueue, List.mem_append, List.mem_singleton] at hx
      obtain hx | rfl := hx
      · obtain ⟨hxq, hxe⟩ := List.mem_filter.1 hx
        obtain ⟨hxtodo, hxcb⟩ := h.due x hxq hxt
        exact ⟨(List.mem_cons.1 hxtodo).resolve_left (by simpa using hxe), hxcb⟩
      · have hpos := s.cyclesToOverflow_pos c (s.ch c).reload
        change e.t + _ ≤ n + 1 at hxt
        omega
    agrees := h.agrees.fire h.noFault hcb hi (het.symm.trans (h.sound.time_of_ovf hmem hcb)) het h.now
      (cycleTime_cons_same hcb) (h.cycleTime_rest hcb) fun d hd => cycleTime_cons_ne hcb hd }

/-- For an event that is not due the block has nothing to do; if it is of the block's own, the reference model moves its
channel. -/
theorem InCycle.skip (h : InCycle n (e :: rest) s r) (het : n + 1 < e.t) {r' : RefState}
    (hagrees : AgreesAt (cycleTime n rest) s r') : InCycle n rest s r' where
  sound := h.sound
  noFault := h.noFault
  now := h.now
  sorted := (List.pairwise_cons.1 h.sorted).2
  pending x hx := h.pending x (List.mem_cons_of_mem _ hx)
  started x hx := h.started x (List.mem_cons_of_mem _ hx)
  due x hx hxt := by
    obtain ⟨hxtodo, hxcb⟩ := h.due x hx hxt
    refine ⟨(List.mem_cons.1 hxtodo).resolve_left ?_, hxcb⟩
    rintro rfl
    omega
  agrees := hagrees

/-- The rest of the cycle. -/
theorem InCycle.finish (h : InCycle n todo s r) :
    ∃ t, execAdvance (n + 1) s = .next t ∧
      Agrees t ((todo.filterMap Event.channel).foldl (fun r c => refPrescale c r) r) ∧ ∀ e ∈ t.queue, t.now < e.t := by
  induction todo generalizing s r with
  | nil =>
    have hnone : ∀ e ∈ s.queue, n + 1 < e.t := fun e he => by
      by_contra hdue
      exact absurd (h.due e he (Nat.not_lt.1 hdue)).1 List.not_mem_nil
    have hself : ({ s with now := n + 1 } : State) = s := h.now ▸ rfl
    have hadvance := execAdvance_of_nextDue_none h.noFault h.now.le (State.nextDue_eq_none.2 hnone)
    rw [hself] at hadvance
    refine ⟨s, hadvance, agrees_iff.2 ?_, h.now ▸ hnone⟩
    have hagrees := h.agrees
    rwa [show cycleTime n [] = fun _ => s.now from h.now ▸ rfl] at hagrees
  | cons e rest ih =>
    have hmem := h.pending e List.mem_cons_self
    have hle : n + 1 ≤ e.t := h.now ▸ h.sound.queue.notPast e hmem
    cases hcb : e.cb with
    | ovf c =>
      rw [List.filterMap_cons_some (Event.channel_eq_some.2 hcb), List.foldl_cons]
      obtain hlt | heq := Nat.lt_or_eq_of_le hle
      · refine ih (h.skip hlt (h.agrees.prescale_before_overflow (h.sound.internal_of_ovf hmem hcb)
          (h.started e List.mem_cons_self c hcb) ?_ (cycleTime_cons_same hcb) (h.cycleTime_rest hcb)
          fun d hd => cycleTime_cons_ne hcb hd))
        rwa [← h.sound.time_of_ovf hmem hcb]
      · obtain ⟨hnext, hfired⟩ := h.fire hcb heq.symm
        rw [execAdvance_of_nextDue_some h.noFault h.now.le hnext]
        exact ih hfired
    | foreign owner =>
      have hchannel : e.channel = none := by simp [Event.channel, hcb]
      have hlt : n + 1 < e.t := hle.lt_of_ne fun heq => by
        obtain ⟨c, hc⟩ := (h.due e hmem heq.ge).2
        cases hcb.symm.trans hc
      rw [List.filterMap_cons_none hchannel]
      have hagrees := h.agrees
      rw [show cycleTime n (e :: rest) = cycleTime n rest by
        funext d; rw [cycleTime, List.filterMap_cons_none hchannel, cycleTime]] at hagrees
      exact ih (h.skip hlt hagrees)

/-- What fires next sets the time, so time may pass up to the next event before it does. -/
theorem execAdvance_setNow (hf : s.fault = none) {T : Nat} (hn : s.now ≤ n) (hT : n ≤ T) :
    execAdvance T s = execAdvance T { s with now := n } := by
  have hnT : ({ s with now := n } : State).now ≤ T := hT
  cases hdue : s.nextDue T with
  | none =>
    rw [execAdvance_of_nextDue_none hf (hn.trans hT) hdue, execAdvance_of_nextDue_none (by exact hf) hnT hdue]
  | some e =>
    rw [execAdvance_of_nextDue_some hf (hn.trans hT) hdue, execAdvance_of_nextDue_some (by exact hf) hnT hdue]
    rfl

/-- At the beginning of a cycle every internally clocked channel is still to move. -/
theorem inCycle_begin (hs : s.Sound) (hf : s.fault = none) (hdue : ∀ e ∈ s.queue, s.now < e.t)
    (hown : ∀ e ∈ s.queue, e.t ≤ s.now + 1 → ∃ c, e.cb = .ovf c) (h : Agrees s r) :
    InCycle s.now (firingList s.queue) { s with now := s.now + 1 } { r with now := r.now + 1 } where
  sound := hs.setNow (Nat.le_succ _) hdue
  noFault := hf
  now := rfl
  sorted := firingList_sorted hs.queue.rising
  pending _ he := mem_firingList.1 he
  started e he c hcb := (hs.chan c).started (hs.internal_of_ovf (mem_firingList.1 he) hcb)
  due e he ht := ⟨mem_firingList.2 he, hown e he ht⟩
  agrees := by
    have hagrees := agrees_iff.1 h
    refine ⟨congrArg (· + 1) hagrees.now, hagrees.out, fun c => ?_⟩
    have hc := hagrees.chan c
    unfold cycleTime
    split
    · exact hc.congr rfl
    · next hnot =>
      have hi : s.internal c = false := by
        by_contra hi
        obtain ⟨k, -, hk⟩ := (hs.chan c).pending (Bool.not_eq_false _ ▸ hi)
        exact hnot (List.mem_filterMap.2 ⟨_, mem_firingList.2 hk, rfl⟩)
      exact (hc.of_not_internal hi _).congr rfl

end

/-- Settles O46: the block fires the due events in the order in which the reference model moves the channels. -/
theorem cycleMatchesReference : Obligations.CycleMatchesReference := by
  intro s r hinv hf hdue hown h
  have hbegin := inCycle_begin (State.inv_iff.1 hinv).1 hf hdue hown h
  obtain ⟨t, ht, hagrees, hlater⟩ := hbegin.finish
  exact ⟨t, (execAdvance_setNow hf (Nat.le_succ _) le_rfl).trans ht, hagrees, hlater⟩

end Sys2Proof.Machine

/-! ### The operations between cycles (R171) -/

namespace Sys2Proof.Machine

section
variable {s t : State} {r : RefState} {c : Chan} {v : Half} {y : RefChannel}

/-- `Recounts` with the count and the start that a procedure gives the channel. -/
def RecountsTo (c : Chan) (b : Half) (start : Nat) (s t : State) : Prop :=
  ∃ ev q k, t = { s.setCh c { s.ch c with base := b, tStart := start, ev := ev } with queue := q, nextSeq := k }

/-- Start (R120). -/
theorem startChannel_recountsTo (hf : s.fault = none) (c : Chan) :
    RecountsTo c (s.ch c).reload s.now s (startChannel c s) := by
  cases hb : s.cascadeBit c with
  | true => exact ⟨_, _, _, startChannel_of_cascade hb⟩
  | false => exact ⟨_, _, _, startChannel_of_internal hf hb⟩

/-- Stop (R121). -/
theorem stopChannel_recountsTo (c : Chan) (cur : Half) (s : State) :
    RecountsTo c cur (s.ch c).tStart s (stopChannel c cur s) :=
  ⟨_, _, _, stopChannel_eq c cur s⟩

/-- Rebase (R122). -/
theorem rebaseChannel_recountsTo (hf : s.fault = none) (c : Chan) (cur : Half) :
    RecountsTo c cur s.now s (rebaseChannel c cur s) := by
  cases hb : s.cascadeBit c with
  | true => exact ⟨_, _, _, rebaseChannel_of_cascade cur hb⟩
  | false => exact ⟨_, _, _, rebaseChannel_of_internal cur hf hb⟩

/-- The control fields that a write of `v` stores in a reference channel (R24, R25, R170). -/
def refControl (c : Chan) (v : Half) (y : RefChannel) : RefChannel :=
  { y with sel := v.extractLsb' 0 2, cascade := c != 0 && v.getLsbD 2, irq := v.getLsbD 6, run := v.getLsbD 7 }

theorem SameSettings.storeControl (h : SameSettings s c y) (v : Half) :
    SameSettings (storeControl c v s) c (refControl c v y) where
  reload := by rw [storeControl_ch]; exact h.reload
  sel := by rw [storeControl_ch]; rfl
  cascade := by rw [storeControl_cascadeBit, decide_not, ← beq_eq_decide]; rfl
  irq := by rw [storeControl_ch]; rfl
  run := by rw [storeControl_ch]; rfl

/-! ### The transitions of the run bit, in the reference model (R123, R124) -/

theorem refWriteControl_of_clear (hv : v.getLsbD 7 = false) :
    refWriteControl c v r = refEmit .rate c (r.setCh c (refControl c v (r.ch c))) := by
  cases hrun : (r.ch c).run <;> simp only [refWriteControl, refControl, hrun, hv]

theorem refWriteControl_of_starts (hrun : (r.ch c).run = false) (hv : v.getLsbD 7 = true) :
    refWriteControl c v r =
      refEmit .rate c (r.setCh c { refControl c v (r.ch c) with cnt := (r.ch c).reload, phase := 0 }) := by
  simp only [refWriteControl, refControl, hrun, hv]

theorem refWriteControl_of_stays_running (hrun : (r.ch c).run = true) (hv : v.getLsbD 7 = true) :
    refWriteControl c v r =
      refEmit .rate c (r.setCh c
        (if v.extractLsb' 0 2 ≠ (r.ch c).sel ∨ (c != 0 && v.getLsbD 2) ≠ (r.ch c).cascade then
          { refControl c v (r.ch c) with phase := 0 }
        else refControl c v (r.ch c))) := by
  simp only [refWriteControl, refControl, hrun, hv]

/-! ### A control write in both models -/

variable {n : Nat} {time : Chan → Nat}

/-- The counter depends on the clock, the base and the ticks only. -/
theorem State.counter_congr_count (hi : s.internal c = t.internal c) (hbase : (s.ch c).base = (t.ch c).base)
    (hticks : s.elapsedTicks c = t.elapsedTicks c) : s.counter c = t.counter c := by
  rw [State.counter, State.counter, hi, hbase, hticks]

/-- A control write that leaves a stopped channel stopped leaves its count. -/
theorem MatchesAt.storeControl_of_stopped (h : MatchesAt n s c y) (hrun : (s.ch c).run = false)
    (hv : v.getLsbD 7 = false) : MatchesAt n (storeControl c v s) c (refControl c v y) := by
  have hi : (storeControl c v s).internal c = false := State.internal_of_stopped (by rw [storeControl_ch]; exact hv)
  have hcnt := h.cnt
  rw [State.counter_of_not_internal (by exact State.internal_of_stopped hrun)] at hcnt
  refine ⟨h.storeControl v, ?_, by simp [hi]⟩
  rw [State.counter_of_not_internal (by exact hi), State.ch_mk, storeControl_ch]
  exact hcnt

/-- A control write that leaves a running channel running, with selector and cascade bit as they were, leaves its count (R124). -/
theorem MatchesAt.storeControl_of_running (h : MatchesAt n s c y) (hrun : (s.ch c).run = true) (hv : v.getLsbD 7 = true)
    (hsel : v.extractLsb' 0 2 = (s.ch c).sel) (hcas : (decide (c ≠ 0) && v.getLsbD 2) = s.cascadeBit c) :
    MatchesAt n (storeControl c v s) c (refControl c v y) := by
  have hi : (storeControl c v s).internal c = s.internal c := by
    rw [State.internal, State.internal, storeControl_cascadeBit, hcas, storeControl_ch, withControl_run, hv, hrun]
  have hsel' : ((storeControl c v s).ch c).sel = (s.ch c).sel := by rw [storeControl_ch]; exact hsel
  have hbase : ((storeControl c v s).ch c).base = (s.ch c).base := by rw [storeControl_ch]; rfl
  have hstart : ((storeControl c v s).ch c).tStart = (s.ch c).tStart := by rw [storeControl_ch]; rfl
  refine ⟨h.storeControl v, Eq.trans ?_ h.cnt, fun hi' => Eq.trans ?_ (h.phase (hi.symm.trans hi'))⟩
  · refine State.counter_congr_count (s := { storeControl c v s with now := n }) (t := { s with now := n }) hi hbase ?_
    simp only [State.elapsedTicks, State.prescaler, State.ch_mk, hstart, hsel']
  · simp only [State.phase, State.prescaler, State.ch_mk, hstart, hsel']

/-- After the fields are stored, a procedure recounts the channel in both models. -/
theorem AgreesAt.recount (h : AgreesAt time s r) {b : Half} {start : Nat} (ht : RecountsTo c b start (storeControl c v s) t)
    (hc : ∀ ev, MatchesAt (time c)
      ((storeControl c v s).setCh c { (storeControl c v s).ch c with base := b, tStart := start, ev := ev }) c y) :
    AgreesAt time t (r.setCh c y) := by
  obtain ⟨ev, q, k, rfl⟩ := ht
  refine h.update rfl rfl (fun d hd => ⟨?_, rfl⟩) ((hc ev).congr rfl)
  exact ((storeControl c v s).ch_setCh_ne _ hd).trans (s.ch_setCh_ne _ hd)

/-- The control write (R123, R124), by the transition of the run bit. -/
theorem exec_wr16Ctl_agrees (hf : s.fault = none) (h : AgreesAt (fun _ => s.now) s r) (c : Chan) (v : Half) :
    ∃ t, exec (.wr16Ctl c v) s = .next t ∧ t.now = s.now ∧ AgreesAt (fun _ => s.now) t (refWriteControl c v r) := by
  have hc := h.chan c
  have hstored := hc.storeControl v
  have hcnt : s.counter c = (r.ch c).cnt := hc.cnt
  have hemit : ∀ {u : State} {y : RefChannel}, u.now = s.now → AgreesAt (fun _ => s.now) u (r.setCh c y) →
      (emit .rate c u).now = s.now ∧ AgreesAt (fun _ => s.now) (emit .rate c u) (refEmit .rate c (r.setCh c y)) :=
    fun hn hu => ⟨hn, hu.emit .rate c⟩
  cases hv : v.getLsbD 7 with
  | false =>
    rw [refWriteControl_of_clear hv]
    cases hrun : (s.ch c).run with
    | false => exact ⟨_, exec_wr16Ctl_of_stays_stopped hf hrun hv, hemit rfl (h.setCh (hc.storeControl_of_stopped hrun hv))⟩
    | true =>
      have hi : (storeControl c v s).internal c = false := State.internal_of_stopped (by rw [storeControl_ch]; exact hv)
      refine ⟨_, exec_wr16Ctl_of_stops hf hrun hv, hemit ?_ (h.recount (stopChannel_recountsTo c _ _) fun ev => ?_)⟩
      · exact (Emits.stopChannel c _ _).now
      · have hhold := hstored.hold hi s.now (s.counter c) ((storeControl c v s).ch c).tStart ev
        rw [hcnt] at hhold ⊢
        exact hhold
  | true =>
    cases hrun : (s.ch c).run with
    | false =>
      rw [refWriteControl_of_starts (hc.run.symm.trans hrun) hv]
      refine ⟨_, exec_wr16Ctl_of_starts hf hrun hv, hemit ?_
        (h.recount (startChannel_recountsTo (by exact hf) c) fun ev => ?_)⟩
      · exact (Emits.startChannel c _).now
      · have hrestart := hstored.restart s.now ((storeControl c v s).ch c).reload ev
        rw [hstored.reload] at hrestart ⊢
        exact hrestart
    | true =>
      rw [refWriteControl_of_stays_running (hc.run.symm.trans hrun) hv, ← hc.sel, ← hc.cascade, bne, beq_eq_decide,
        ← decide_not]
      refine ⟨_, exec_wr16Ctl_of_stays_running hf hrun hv, ?_⟩
      rw [runningWrite_storeControl]
      split
      · refine hemit ?_ (h.recount (rebaseChannel_recountsTo (by exact hf) c _) fun ev => ?_)
        · exact (Emits.rebaseChannel c _ _).now
        · have hrestart := hstored.restart s.now (s.counter c) ev
          rw [hcnt] at hrestart ⊢
          exact hrestart
      · next hsame =>
        simp only [not_or, not_not] at hsame
        exact hemit rfl (h.setCh (hc.storeControl_of_running hrun hv hsame.1 hsame.2))

/-- A channel's count does not depend on its reload register. -/
theorem MatchesAt.setReload (h : MatchesAt n s c y) (v : Half) :
    MatchesAt n (s.setCh c { s.ch c with reload := v }) c { y with reload := v } := by
  have hi : (s.setCh c { s.ch c with reload := v }).internal c = s.internal c := by
    simp [State.internal, State.cascadeBit]
  refine ⟨⟨by simp, by simpa using h.sel, (State.cascadeBit_congr (by simp)).trans h.cascade, by simpa using h.irq,
    by simpa using h.run⟩, Eq.trans ?_ h.cnt, fun hi' => Eq.trans ?_ (h.phase (hi ▸ hi'))⟩
  · exact State.counter_congr_count (by exact hi) (by simp) (by simp [State.elapsedTicks, State.prescaler])
  · simp [State.phase, State.prescaler]

/-- The reload write (R125). -/
theorem AgreesAt.writeReload (h : AgreesAt time s r) (c : Chan) (v : Half) :
    AgreesAt time (writeReload c v s) (refWriteReload c v r) :=
  (h.setCh ((h.chan c).setReload v)).emit .rate c

/-- WR32 is the reload write and then the control write (R132). -/
theorem exec_wr32_agrees (hf : s.fault = none) (h : AgreesAt (fun _ => s.now) s r) (c : Chan) (w : Word) :
    ∃ t, exec (.wr32 c w) s = .next t ∧ t.now = s.now ∧ AgreesAt (fun _ => s.now) t (refOp (.wr32 c w) r) := by
  have hsecond : exec (.wr32 c w) s = exec (.wr16Ctl c (highHalf w)) (writeReload c (lowHalf w) s) :=
    (unlessFaulted_of_none hf _).trans (unlessFaulted_of_none (s := writeReload c (lowHalf w) s) hf _).symm
  rw [hsecond]
  exact exec_wr16Ctl_agrees (s := writeReload c (lowHalf w) s) hf (h.writeReload c _) c (highHalf w)

/-! ### RESET in both models (R201) -/

theorem resetChannel_ch (c : Chan) (s : State) (d : Chan) :
    (resetChannel c s).ch d = if d = c then Channel.zero else s.ch d := by
  rw [resetChannel, State.ch_setCh]
  split
  · rfl
  · next hd => rw [cancelOverflow_eq, State.ch_mk, State.ch_setCh_ne _ _ hd]

theorem resetChannels_ch (s : State) (d : Chan) : (resetChannels s).ch d = Channel.zero := by
  simp only [resetChannels, resetChannel_ch]
  revert d
  simp [Fin.forall_fin_succ]

theorem refReset_ch (r : RefState) (c : Chan) : (refReset r).ch c = ⟨0, 0, 0, 0, false, false, false⟩ := by
  simp [RefState.ch, refReset]

/-- A channel at its power-on value matches one of the reference model. -/
theorem matchesAt_zero (h : s.ch c = Channel.zero) : MatchesAt n s c ⟨0, 0, 0, 0, false, false, false⟩ := by
  have hi : s.internal c = false := State.internal_of_stopped (by rw [h]; rfl)
  refine ⟨⟨?_, ?_, ?_, ?_, ?_⟩, ?_, by simp [hi]⟩
  · rw [h]; rfl
  · rw [h]; rfl
  · rw [State.cascadeBit, h]; exact Bool.and_false _
  · rw [h]; rfl
  · rw [h]; rfl
  · rw [State.counter_of_not_internal (by exact hi), State.ch_mk, h]; rfl

theorem AgreesAt.reset (h : AgreesAt time s r) : AgreesAt time (resetChannels s) (refReset r) where
  now := (Emits.resetChannels s).now.trans h.now
  out := (resetChannels_out s).trans h.out
  chan c := by
    rw [refReset_ch]
    exact matchesAt_zero (resetChannels_ch s c)

end

/-- Settles O47: reads change nothing that the reference model has; writes and RESET change one channel after another in both
models alike. -/
theorem operationsMatchReference : Obligations.OperationsMatchReference := by
  intro s r i _ hf _ hovf hadv hagrees
  have h := agrees_iff.1 hagrees
  suffices hexec : ∃ t, exec i s = .next t ∧ t.now = s.now ∧ AgreesAt (fun _ => s.now) t (refOp i r) by
    obtain ⟨t, ht, hnow, hmatch⟩ := hexec
    exact ⟨t, ht, agrees_iff.2 (hnow ▸ hmatch)⟩
  have hread : ∀ v, AgreesAt (fun _ => s.now) (returnValue v s) r := fun v => h.of_same (fun _ => rfl) rfl rfl
  have hreload : ∀ c v, (writeReload c v s).now = s.now ∧ AgreesAt _ (writeReload c v s) (refWriteReload c v r) :=
    fun c v => ⟨rfl, h.writeReload c v⟩
  cases i with
  | wr16Reload c v => exact ⟨_, unlessFaulted_of_none hf _, hreload c v⟩
  | wr8ReloadLo c b =>
    exact ⟨_, unlessFaulted_of_none hf _, (h.chan c).reload ▸ hreload c (withLowByte (s.ch c).reload b)⟩
  | wr8ReloadHi c b =>
    exact ⟨_, unlessFaulted_of_none hf _, (h.chan c).reload ▸ hreload c (withHighByte (s.ch c).reload b)⟩
  | wr16Ctl c v => exact exec_wr16Ctl_agrees hf h c v
  | wr8CtlLo c b => exact exec_wr16Ctl_agrees hf h c (b.setWidth 16)
  | wr32 c w => exact exec_wr32_agrees hf h c w
  | reset => exact ⟨_, unlessFaulted_of_none hf _, (Emits.resetChannels s).now, h.reset⟩
  | wr8CtlHi c b => exact ⟨_, unlessFaulted_of_none hf _, rfl, h⟩
  | ovf c => exact absurd rfl (hovf c)
  | advance T => exact absurd rfl (hadv T)
  | _ => exact ⟨_, unlessFaulted_of_none hf _, rfl, hread _⟩

end Sys2Proof.Machine

/-! # Proofs of the family 60_exceptions: after a fault nothing takes effect, refusals inside a callback -/

/-! ### After a fault (R181) -/

namespace Sys2Proof.Machine

section
variable {s : State}

/-- With a fault recorded every operation answers the unchanged state: OVF and ADVANCE by their own guards, the others by
`unlessFaulted` (R181). -/
theorem exec_of_fault (hf : s.fault ≠ none) (i : Instr) : exec i s = .next s := by
  by_cases hovf : ∃ c, i = .ovf c
  · obtain ⟨c, rfl⟩ := hovf
    exact execOvf_of_fault hf c
  by_cases hadv : ∃ T, i = .advance T
  · obtain ⟨T, rfl⟩ := hadv
    exact execAdvance_of_fault hf T
  obtain ⟨f, -, hexec⟩ := exec_eq_unlessFaulted (not_exists.1 hovf) (not_exists.1 hadv)
  rw [hexec, unlessFaulted_of_some hf]

theorem step_of_fault (hf : s.fault ≠ none) : step s = .next s :=
  if_pos (Option.isSome_iff_ne_none.2 hf)

end

/-- Settles O5: each operation's guard against a recorded fault; an ADVANCE goes on from the state its next event leaves,
and there the same guard ends it. -/
theorem faultIsTerminal : Obligations.FaultIsTerminal := by
  refine ⟨fun s i hf => exec_of_fault hf i, fun s hf => step_of_fault hf, fun s T e hf hT hdue hfault => ?_⟩
  calc exec (.advance T) s
      = execAdvance T (fire e s) := execAdvance_of_nextDue_some hf hT hdue
    _ = .next (fire e s) := execAdvance_of_fault hfault T

end Sys2Proof.Machine

/-! ### Operations refused inside a callback (R182) -/

namespace Sys2Proof.Machine

section
variable {s : State} {owner : Nat} {k : RefusalKind}

/-- Bytes that the decoder refuses leave its refusal's mark. -/
theorem callbackAction_of_decode_refuse {bytes : List Byte} (h : decode bytes = .refuse k) (owner : Nat) (s : State) :
    callbackAction owner (.op bytes) s = markRefusal k s := by
  simp [callbackAction, h]

/-- An operation refused at the interface leaves its refusal's mark. -/
theorem callbackAction_of_callbackOp_refused {bytes rest : List Byte} {i : Instr} (hd : decode bytes = .ok i rest)
    (h : callbackOp i s = .refused (.atInterface k)) (owner : Nat) :
    callbackAction owner (.op bytes) s = markRefusal k s := by
  rw [callbackAction_of_decode_ok hd, h, settle]

/-- After an action that only leaves a mark the callback goes on with the next one: a refusal is no fault. -/
theorem callbackActions_cons_of_mark {a : CallbackAction} (hf : s.fault = none)
    (h : callbackAction owner a s = markRefusal k s) (more : List CallbackAction) :
    callbackActions owner (a :: more) s = callbackActions owner more (markRefusal k s) := by
  rw [callbackActions, h]
  exact State.andThen_of_none (s := markRefusal k s) hf _

end

/-- Settles O50: by the three causes of a refusal, each leaves its mark and no fault. -/
theorem callbackRefusalLeavesItsMark : Obligations.CallbackRefusalLeavesItsMark := by
  intro s owner bytes k hf hcause
  have hmark : callbackAction owner (.op bytes) s = markRefusal k s := by
    obtain hd | ⟨rfl, ⟨e, hfiring, hcb⟩, c, rest, hd⟩ | ⟨rfl, T, rest, hd⟩ := hcause
    · exact callbackAction_of_decode_refuse hd owner s
    · have hrefused := execOvf_of_notDelivering (State.notDelivering_of_foreign hfiring hcb) hf c
      exact callbackAction_of_callbackOp_refused hd hrefused owner
    · exact callbackAction_of_callbackOp_refused hd rfl owner
  exact ⟨hmark, callbackActions_cons_of_mark hf hmark⟩

end Sys2Proof.Machine

/-! # Proofs of the family 70_reset_and_hazards: power-on, RESET, quiet states, splitting an ADVANCE -/

/-! ### Splitting an ADVANCE (R105, R106, R214) -/

namespace Sys2Proof.Machine

section
variable {s t : State} {e : Event} {T₁ T₂ : Nat}

/-- The earliest event of a list is the earliest of those that remain when others are left out, also among events with the
same time and number, where the list's order decides. -/
theorem earliest_filter {q : List Event} {p : Event → Bool} (h : earliest q = some e) (hp : p e = true) :
    earliest (q.filter p) = some e := by
  induction q generalizing e with
  | nil => exact h
  | cons x xs ih =>
    simp only [earliest] at h
    split at h
    · next hnone =>
      obtain rfl : x = e := Option.some.inj h
      simp [earliest_eq_none.1 hnone, hp, earliest]
    · next m hm =>
      split at h
      · next hbefore =>
        obtain rfl : m = e := Option.some.inj h
        by_cases hx : p x = true
        · simp [hx, earliest, ih hm hp, hbefore]
        · simp [hx, ih hm hp]
      · next hnot =>
        obtain rfl : x = e := Option.some.inj h
        rw [List.filter_cons_of_pos hp, earliest]
        split
        · rfl
        · next m' hm' =>
          have hleast : m'.before m = false := earliest_least hm (List.mem_of_mem_filter (earliest_mem hm'))
          have hnot' : ¬m'.before x = true := by
            rw [Bool.eq_false_iff, Ne, Event.before_iff] at hleast
            rw [Event.before_iff] at hnot ⊢
            omega
          exact if_neg hnot'

/-- The event that fires next does not depend on a target further away. -/
theorem State.nextDue_of_le (hT : T₁ ≤ T₂) (h : s.nextDue T₁ = some e) : s.nextDue T₂ = some e := by
  obtain ⟨he, heT⟩ := State.nextDue_mem h
  cases hx : s.nextDue T₂ with
  | none => exact absurd (State.nextDue_eq_none.1 hx e he) (Nat.not_lt.2 (heT.trans hT))
  | some x =>
    have hxT : x.t ≤ T₁ := by
      have hleast := State.nextDue_least hx he (heT.trans hT)
      rw [Bool.eq_false_iff, Ne, Event.before_iff] at hleast
      omega
    have hfirst : earliest ((s.queue.filter fun y => y.t ≤ T₂).filter fun y => y.t ≤ T₁) = some x :=
      earliest_filter hx (decide_eq_true hxT)
    have hsame : ((s.queue.filter fun y => y.t ≤ T₂).filter fun y => y.t ≤ T₁) = s.queue.filter fun y => y.t ≤ T₁ := by
      rw [List.filter_filter]
      refine List.filter_congr fun y _ => ?_
      rw [← Bool.decide_and]
      exact decide_eq_decide.2 (and_iff_left_of_imp fun hy => hy.trans hT)
    rw [hsame] at hfirst
    exact hfirst.symm.trans h

/-- By induction on the bound of the first ADVANCE: both fire its next event; with none left only the time passes, and after a
fault nothing does. -/
theorem execAdvance_split (s : State) (hT : s.now ≤ T₁) (hle : T₁ ≤ T₂) (h : execAdvance T₁ s = .next t) :
    execAdvance T₂ t = execAdvance T₂ s := by
  by_cases hf : s.fault = none
  · cases hdue : s.nextDue T₁ with
    | none =>
      cases (execAdvance_of_nextDue_none hf hT hdue).symm.trans h
      exact (execAdvance_setNow hf hT hle).symm
    | some e =>
      rw [execAdvance_of_nextDue_some hf hT hdue] at h
      rw [execAdvance_of_nextDue_some hf (hT.trans hle) (State.nextDue_of_le hle hdue)]
      exact execAdvance_split (fire e s) ((fire_now e s).trans_le (State.nextDue_mem hdue).2) hle h
  · cases (execAdvance_of_fault hf T₁).symm.trans h
    rfl
termination_by s.advanceBound T₁
decreasing_by exact fire_lowers_bound hdue

end

/-- Settles O43: the two ADVANCEs fire the same events in the same order. -/
theorem advanceSplits : Obligations.AdvanceSplits := fun s _ _ _ hT hle h => execAdvance_split s hT hle h

end Sys2Proof.Machine

/-! ### Power-on and RESET (R200, R201) -/

namespace Sys2Proof.Machine

/-- Settles O1: by the power-on value of each field. -/
theorem powerOnState : Obligations.PowerOnState := ⟨State.reset_ch, rfl, rfl, rfl, rfl, rfl⟩

/-- RESET of one channel (R201). -/
theorem resetChannel_eq (c : Chan) (s : State) :
    resetChannel c s =
      { s.setCh c Channel.zero with queue := s.queue.filter fun e => decide ((s.ch c).ev ≠ some e.seq) } := by
  simp [resetChannel, cancelOverflow_eq, State.setCh]

theorem resetChannel_ch_ne {c d : Chan} (h : d ≠ c) (s : State) : (resetChannel c s).ch d = s.ch d := by
  rw [resetChannel_ch, if_neg h]

/-- Each channel takes from the queue the event it held before RESET, since the channels reset before it are others. -/
theorem resetChannels_queue (s : State) :
    (resetChannels s).queue = s.queue.filter fun e => decide (∀ c : Chan, (s.ch c).ev ≠ some e.seq) := by
  have hone (c : Chan) (u : State) :
      (resetChannel c u).queue = u.queue.filter fun e => decide ((u.ch c).ev ≠ some e.seq) := by
    rw [resetChannel_eq]
  rw [resetChannels, hone, hone, hone, hone]
  simp (disch := decide) only [resetChannel_ch_ne, List.filter_filter]
  refine List.filter_congr fun e _ => ?_
  rw [Bool.eq_iff_iff]
  simp only [Bool.and_eq_true, decide_eq_true_eq]
  constructor
  · rintro ⟨h3, h2, h1, h0⟩ c
    match c with
    | 0 => exact h0
    | 1 => exact h1
    | 2 => exact h2
    | 3 => exact h3
  · exact fun h => ⟨h 3, h 2, h 1, h 0⟩

theorem resetChannels_eq (s : State) :
    resetChannels s =
      { s with
        chans := Vector.replicate 4 Channel.zero
        queue := s.queue.filter fun e => decide (∀ c : Chan, (s.ch c).ev ≠ some e.seq) } := by
  apply State.ext_ch
  case hc => intro c; rw [resetChannels_ch]; simp [State.ch]
  case hq => exact resetChannels_queue s
  all_goals simp [resetChannels, resetChannel_eq]

/-- Settles O48: RESET's four channels, one after another, are these changes at once. -/
theorem resetZeroesTheChannels : Obligations.ResetZeroesTheChannels := fun s hf =>
  ⟨rfl, (unlessFaulted_of_none hf resetChannels).trans (congrArg Host.Outcome.next (resetChannels_eq s))⟩

end Sys2Proof.Machine

/-! ### Still states: no channel runs and no overflow is pending (R202) -/

namespace Sys2Proof.Machine

/-- `State.Quiet` without its last clause: what holds inside a foreign callback too. -/
structure State.Still (s : State) : Prop where
  stopped : ∀ c, (s.ch c).run = false
  noOverflow : ∀ e ∈ s.queue, ∀ c, e.cb ≠ .ovf c

theorem State.quiet_iff {s : State} : s.Quiet ↔ s.Still ∧ s.firing = none :=
  ⟨fun ⟨hrun, hq, hg⟩ => ⟨⟨hrun, hq⟩, hg⟩, fun ⟨⟨hrun, hq⟩, hg⟩ => ⟨hrun, hq, hg⟩⟩

/-- From `s` the state `t` is reached, in which no channel runs and no overflow is pending, with no output but RATE and with no
callback added to those still to run. -/
structure StaysStill (s t : State) : Prop where
  still : t.Still
  rates : ∃ l : List OutEvent, t.out = s.out ++ l ∧ ∀ o ∈ l, o.kind = .rate
  schedule : t.schedule <:+ s.schedule

/-- No action of a foreign callback is a control write with the run bit set. -/
def ActionsStartNone (as : List CallbackAction) : Prop :=
  ∀ bytes, .op bytes ∈ as → ∀ i rest, decode bytes = .ok i rest → setsRun i = false

theorem State.callbacksStartNone_iff {s : State} : s.CallbacksStartNone ↔ ∀ as ∈ s.schedule, ActionsStartNone as := .rfl

section
variable {s t u : State} {c : Chan} {i : Instr} {owner T : Nat} {e : Event}

theorem StaysStill.callbacksStartNone (h : StaysStill s t) (hs : s.CallbacksStartNone) : t.CallbacksStartNone :=
  fun as has => hs as (h.schedule.subset has)

namespace StaysStill

theorem trans (h : StaysStill s t) (k : StaysStill t u) : StaysStill s u := by
  obtain ⟨l, hl, hlr⟩ := h.rates
  obtain ⟨m, hm, hmr⟩ := k.rates
  exact ⟨k.still, ⟨l ++ m, by rw [hm, hl, List.append_assoc], List.forall_mem_append.2 ⟨hlr, hmr⟩⟩,
    k.schedule.trans h.schedule⟩

/-- What emits nothing and leaves the callbacks still to run as they are. -/
theorem silent (ht : t.Still) (ho : t.out = s.out) (hsch : t.schedule = s.schedule) : StaysStill s t :=
  ⟨ht, ⟨[], by simp [ho]⟩, hsch ▸ List.suffix_rfl⟩

theorem refl (hs : s.Still) : StaysStill s s := silent hs rfl rfl

theorem of_unlessFaulted {f : State → State} (hs : s.Still) (hf : ∀ u, u.Still → u.fault = none → StaysStill u (f u))
    (h : unlessFaulted s f = .next t) : StaysStill s t := by
  obtain ⟨hnone, rfl⟩ | ⟨-, rfl⟩ := unlessFaulted_eq_next.1 h
  · exact hf s hs hnone
  · exact refl hs

end StaysStill

/-! ### What keeps a state still -/

/-- Events may leave the queue, and fields other than queue and channels may change. -/
theorem State.Still.of_subset (hs : s.Still) (hc : t.chans = s.chans) (hq : t.queue ⊆ s.queue) : t.Still where
  stopped c := by simpa only [State.ch, hc] using hs.stopped c
  noOverflow e he := hs.noOverflow e (hq he)

theorem State.Still.of_same (hs : s.Still) (hc : t.chans = s.chans) (hq : t.queue = s.queue) : t.Still :=
  hs.of_subset hc fun _ he => hq ▸ he

/-- A stopped channel's registers may be written. -/
theorem State.Still.setCh (hs : s.Still) {x : Channel} (hx : x.run = false) : (s.setCh c x).Still where
  stopped d := by
    rw [State.ch_setCh]
    split
    · exact hx
    · exact hs.stopped d
  noOverflow := hs.noOverflow

/-- A write to a stopped channel that leaves it stopped emits its RATE (R123, R125). -/
theorem State.Still.setCh_emit_rate (hs : s.Still) {x : Channel} (hx : x.run = false) :
    StaysStill s (emit .rate c (s.setCh c x)) :=
  ⟨(hs.setCh hx).of_same rfl rfl, ⟨[⟨.rate, c, s.now⟩], rfl, by simp⟩, List.suffix_rfl⟩

theorem State.Still.writeReload (hs : s.Still) (c : Chan) (v : Half) : StaysStill s (writeReload c v s) :=
  hs.setCh_emit_rate (hs.stopped c)

/-- A control write with the run bit clear (R123). -/
theorem State.Still.writeControl (hs : s.Still) (hf : s.fault = none) (c : Chan) {v : Half} (hv : v.getLsbD 7 = false) :
    StaysStill s (writeControl c v s) := by
  have heq : Machine.writeControl c v s = emit .rate c (storeControl c v s) := Host.Outcome.next.inj
    ((unlessFaulted_of_none hf _).symm.trans (exec_wr16Ctl_of_stays_stopped hf (hs.stopped c) hv))
  rw [heq]
  exact hs.setCh_emit_rate hv

theorem State.Still.returnValue (hs : s.Still) (v : ReadValue) : StaysStill s (returnValue v s) :=
  .silent (hs.of_same rfl rfl) rfl rfl

theorem State.Still.resetChannels (hs : s.Still) : StaysStill s (resetChannels s) := by
  refine .silent ⟨fun c => ?_, fun e he => ?_⟩ (resetChannels_out s) (by rw [resetChannels_eq])
  · rw [resetChannels_ch]; rfl
  · rw [resetChannels_queue] at he
    exact hs.noOverflow e (List.mem_of_mem_filter he)

/-- Every operation but ADVANCE, unless it is a control write with the run bit set; OVF is refused while no overflow is being
delivered (R77). -/
theorem State.Still.exec (hs : s.Still) (hg : s.NotDelivering) (hi : setsRun i = false) (hadv : ∀ T, i ≠ .advance T)
    (h : exec i s = .next t) : StaysStill s t := by
  cases i with
  | wr8ReloadLo c b => exact .of_unlessFaulted hs (fun u hu _ => hu.writeReload c (withLowByte (u.ch c).reload b)) h
  | wr8ReloadHi c b => exact .of_unlessFaulted hs (fun u hu _ => hu.writeReload c (withHighByte (u.ch c).reload b)) h
  | wr16Reload c v => exact .of_unlessFaulted hs (fun _ hu _ => hu.writeReload c v) h
  | wr8CtlLo c b =>
    have hv : (b.setWidth 16).getLsbD 7 = false := by simpa [setsRun] using hi
    exact .of_unlessFaulted hs (fun _ hu hf => hu.writeControl hf c hv) h
  | wr16Ctl c v => exact .of_unlessFaulted hs (fun _ hu hf => hu.writeControl hf c hi) h
  | wr32 c w =>
    have hv : (highHalf w).getLsbD 7 = false := by simpa [setsRun, highHalf] using hi
    refine .of_unlessFaulted hs (fun u hu hf => ?_) h
    have hreload := hu.writeReload c (lowHalf w)
    exact hreload.trans (hreload.still.writeControl hf c hv)
  | reset => exact .of_unlessFaulted hs (fun _ hu _ => hu.resetChannels) h
  | wr8CtlHi c b => exact .of_unlessFaulted (f := id) hs (fun _ hu _ => .refl hu) h
  | ovf c =>
    by_cases hf : s.fault = none
    · cases (execOvf_of_notDelivering hg hf c).symm.trans h
    · cases (execOvf_of_fault hf c).symm.trans h
      exact .refl hs
  | advance T => exact absurd rfl (hadv T)
  | _ => exact .of_unlessFaulted hs (fun _ hu _ => hu.returnValue _) h

/-- A foreign component's Add and Cancel (R101). -/
theorem State.Still.foreignRequest (hs : s.Still) (owner : Nat) (r : ForeignRequest) :
    StaysStill s (foreignRequest owner r s) := by
  cases r with
  | add due =>
    rw [foreignRequest_add]
    by_cases hdue : s.now ≤ due
    · rw [schedAdd_of_le hdue]
      exact .silent ⟨hs.stopped, List.forall_mem_append.2 ⟨hs.noOverflow, by simp⟩⟩ rfl rfl
    · rw [schedAdd_of_lt (Nat.not_le.1 hdue)]
      exact .silent (hs.of_same rfl rfl) rfl rfl
  | cancel k =>
    by_cases hown : ∃ e ∈ s.queue, e.seq = k ∧ e.cb = .foreign owner
    · rw [foreignRequest_cancel_of_owned hown]
      exact .silent (hs.of_subset rfl (List.filter_subset_self _)) rfl rfl
    · rw [foreignRequest_cancel_of_not_owned hown]
      exact .refl hs

/-! ### Foreign callbacks and ADVANCE from a still state -/

/-- A callback's operation leaves its next state, its refusal's mark, or nothing (R182). -/
theorem settle_cases (s : State) (r : Result) :
    r = .next (settle s r) ∨ (∃ k, settle s r = markRefusal k s) ∨ settle s r = s := by
  cases r with
  | next t => exact .inl rfl
  | fault x => exact .inr (.inr rfl)
  | refused x =>
    cases x with
    | atInterface k => exact .inr (.inl ⟨k, rfl⟩)
    | notModelled m => exact .inr (.inr rfl)

/-- In a callback ADVANCE is refused, so what answers a next state there answers it from the host (R8). -/
theorem exec_of_callbackOp_next (h : callbackOp i s = .next t) : exec i s = .next t ∧ ∀ T, i ≠ .advance T := by
  have hadv : ∀ T, i ≠ .advance T := by
    rintro T rfl
    cases h
  exact ⟨callbackOp_eq_exec hadv s ▸ h, hadv⟩

theorem State.Still.callbackAction (hs : s.Still) (hg : s.NotDelivering) {as : List CallbackAction}
    (has : ActionsStartNone as) {a : CallbackAction} (ha : a ∈ as) : StaysStill s (callbackAction owner a s) := by
  have hmark (k) : StaysStill s (markRefusal k s) := .silent (hs.of_same rfl rfl) rfl rfl
  cases a with
  | request r => exact hs.foreignRequest owner r
  | op bytes =>
    cases hd : decode bytes with
    | refuse k =>
      rw [callbackAction_of_decode_refuse hd]
      exact hmark k
    | ok i rest =>
      rw [callbackAction_of_decode_ok hd]
      obtain hnext | ⟨k, hk⟩ | hsame := settle_cases s (callbackOp i s)
      · obtain ⟨hexec, hadv⟩ := exec_of_callbackOp_next hnext
        exact hs.exec hg (has bytes ha i rest hd) hadv hexec
      · rw [hk]
        exact hmark k
      · rw [hsame]
        exact .refl hs

theorem State.Still.callbackActions (hs : s.Still) (hg : s.NotDelivering) {as : List CallbackAction}
    (has : ActionsStartNone as) : StaysStill s (callbackActions owner as s) := by
  induction as generalizing s with
  | nil => exact .refl hs
  | cons a as ih =>
    have hfirst : StaysStill s (Machine.callbackAction owner a s) := hs.callbackAction hg has List.mem_cons_self
    have hg' := hg.congr (callbackAction_emits hg owner a).firing
    have hrest := ih hfirst.still hg' fun bytes hb => has bytes (List.mem_cons_of_mem _ hb)
    simp only [Machine.callbackActions, State.andThen]
    split
    · exact hfirst
    · exact hfirst.trans hrest

theorem State.Still.foreignCallback (hs : s.Still) (hg : s.NotDelivering) (hstart : s.CallbacksStartNone) :
    StaysStill s (foreignCallback owner s) := by
  unfold Machine.foreignCallback
  split
  · exact .refl hs
  · next as rest hsch =>
    have htaken : StaysStill s { s with schedule := rest } :=
      ⟨hs.of_same rfl rfl, ⟨[], by simp⟩, hsch ▸ List.suffix_cons as rest⟩
    have has : ActionsStartNone as := State.callbacksStartNone_iff.1 hstart as (hsch ▸ List.mem_cons_self)
    exact htaken.trans (htaken.still.callbackActions (hg.congr rfl) has)

/-- Only foreign events fire (R105). -/
theorem State.Still.fire (hs : s.Still) (hstart : s.CallbacksStartNone) (he : e ∈ s.queue) : StaysStill s (fire e s) := by
  cases hcb : e.cb with
  | ovf c => exact absurd hcb (hs.noOverflow e he c)
  | foreign owner =>
    have hbegin : StaysStill s (s.beginFiring e) := .silent (hs.of_subset rfl (List.filter_subset_self _)) rfl rfl
    have hrun : StaysStill (s.beginFiring e) (Machine.foreignCallback owner (s.beginFiring e)) :=
      hbegin.still.foreignCallback (State.notDelivering_of_foreign rfl hcb) hstart
    rw [fire_of_foreign hcb]
    exact (hbegin.trans hrun).trans (.silent (hrun.still.of_same rfl rfl) rfl rfl)

theorem fire_firing (e : Event) (s : State) : (fire e s).firing = none := by
  cases hcb : e.cb with
  | ovf c => rw [fire_of_ovf hcb]
  | foreign owner => rw [fire_of_foreign hcb]

/-- ADVANCE from a quiet state (R105, R202). -/
theorem execAdvance_staysStill (hs : s.Still) (hg : s.firing = none) (hstart : s.CallbacksStartNone)
    (h : execAdvance T s = .next t) : StaysStill s t ∧ t.firing = none := by
  have hsame {v : State} (hv : v.Still) {n f} : StaysStill v { v with now := n, fault := f } :=
    .silent (hv.of_same rfl rfl) rfl rfl
  by_cases hf : s.fault = none
  · obtain ⟨-, rfl⟩ | ⟨-, hloop⟩ := execAdvance_cases hf h
    · exact ⟨hsame hs, hg⟩
    · refine advanceLoop_induction (P := fun u => StaysStill s u ∧ u.firing = none) ?_ ?_ _ ⟨.refl hs, hg⟩ hf hloop
      · rintro u e ⟨hu, -⟩ - hdue
        have hfire := hu.still.fire (hu.callbacksStartNone hstart) (State.nextDue_mem hdue).1
        exact ⟨hu.trans hfire, fire_firing e u⟩
      · rintro u ⟨hu, hgu⟩ -
        exact ⟨hu.trans (hsame hu.still), hgu⟩
  · cases (execAdvance_of_fault hf T).symm.trans h
    exact ⟨.refl hs, hg⟩

/-- With no foreign callback left to run, the only output that could be is a RATE, and no RATE is. -/
theorem execAdvance_out_of_still (hs : s.Still) (hg : s.firing = none) (hsch : s.schedule = [])
    (h : execAdvance T s = .next t) : t.out = s.out := by
  have hstart : s.CallbacksStartNone := fun as has => absurd (hsch ▸ has) List.not_mem_nil
  obtain ⟨l, hl, hrates⟩ := (execAdvance_staysStill hs hg hstart h).1.rates
  have hnone : NoRate s t := execAdvance_noRate hsch h
  have hnil : l = [] := by
    rw [NoRate, hl, List.filter_append, List.append_right_eq_self, List.filter_eq_nil_iff] at hnone
    exact List.eq_nil_iff_forall_not_mem.2 fun o ho => hnone o ho (by simp [hrates o ho])
  rw [hl, hnil, List.append_nil]

/-- Between callbacks every operation but ADVANCE ends between callbacks. -/
theorem exec_firing (hg : s.firing = none) (hadv : ∀ T, i ≠ .advance T) (h : exec i s = .next t) : t.firing = none := by
  obtain rfl | ⟨f, hop, rfl⟩ | ⟨c, tReq, -, rfl⟩ := exec_cases_of_ne_advance hadv h
  · exact hg
  · exact (hop.emits s).firing.trans hg
  · rfl

theorem exec_staysStill (hs : s.Still) (hg : s.firing = none) (hstart : s.CallbacksStartNone) (hi : setsRun i = false)
    (h : exec i s = .next t) : StaysStill s t ∧ t.firing = none := by
  by_cases hadv : ∃ T, i = .advance T
  · obtain ⟨T, rfl⟩ := hadv
    exact execAdvance_staysStill hs hg hstart h
  · have hadv' := not_exists.1 hadv
    exact ⟨hs.exec (State.notDelivering_of_none hg) hi hadv' h, exec_firing hg hadv' h⟩

/-- RESET stops every channel, and under the invariant no stopped channel has an overflow pending (R31, R201). -/
theorem State.Inv.resetChannels_quiet (h : s.Inv) : (resetChannels s).Quiet := by
  obtain ⟨hs, hg⟩ := State.inv_iff.1 h
  have hstopped (c) : ((resetChannels s).ch c).run = false := by rw [resetChannels_ch]; rfl
  have hpending (e) (he : e ∈ (resetChannels s).queue) (c) : e.cb ≠ .ovf c := fun hcb => by
    have hi := hs.resetChannels.internal_of_ovf he hcb
    rw [State.internal_of_stopped (hstopped c)] at hi
    cases hi
  exact ⟨hstopped, hpending, (Emits.resetChannels s).firing.trans hg⟩

end

/-- Settles O49: power-on and RESET leave a still state, and what starts no channel keeps it still, event by event within an
ADVANCE. -/
theorem quietUntilAChannelIsStarted : Obligations.QuietUntilAChannelIsStarted := by
  refine ⟨⟨⟨fun c => ?_, by simp, rfl⟩, fun c => ?_⟩, fun s hinv hf => ?_, fun s t i hquiet hstart hi h => ?_⟩
  · rw [State.reset_ch]; rfl
  · rw [State.reset_ch]; rfl
  · have hquiet := hinv.resetChannels_quiet
    obtain ⟨hs, hg⟩ := State.quiet_iff.1 hquiet
    refine ⟨_, unlessFaulted_of_none hf _, hquiet, fun c => by rw [resetChannels_ch]; rfl, fun hsch T hT => ?_⟩
    obtain ⟨u, hu, -⟩ := execAdvance_ends _ ((resetChannels_fault s).trans hf) hT
    exact ⟨u, hu, execAdvance_out_of_still hs hg hsch hu⟩
  · obtain ⟨hs, hg⟩ := State.quiet_iff.1 hquiet
    obtain ⟨hstays, hgt⟩ := exec_staysStill hs hg hstart hi h
    exact ⟨State.quiet_iff.2 ⟨hstays.still, hgt⟩, hstays.callbacksStartNone hstart, hstays.rates⟩

end Sys2Proof.Machine
